-- ==== Sys2Proof/Word.lean ====
section
/-! DEFINITION. The words of the hardware: registers and samples are 32 bits, command words 64 (spec R7, R14, R70).
A bit is numbered from 0, the least significant. -/

namespace Sys2Proof

/-- One 32-bit word: a register, a ring word, an immediate (R14, R51). -/
abbrev W32 := BitVec 32

/-- An F32 value, held as its IEEE 754 binary32 bit pattern: sign bit 31, exponent bits 30:23, fraction bits
22:0 (R7). `asF32` and `bitsOf` of R11 are the identity on it. -/
abbrev F32 := BitVec 32

/-- One command word `CW` (R70). -/
abbrev W64 := BitVec 64

end Sys2Proof
end

