-- ==== Sys2Proof/Syntax.lean ====
section
/-! DEFINITION. The 33 commands of the opcode table (R73), one constructor a row. A selector (R74) is a type with
exactly its legal values; the status index of `RDSTAT`, whose legal values are scattered, stays the raw 16 bits and is
checked by `WellFormed.lean`. A value operand keeps the width of its field (R70, R75). -/

namespace Sys2Proof

/-- Lane selector `c`: 0 left, 1 right (R5, R19). -/
abbrev Lane := Fin 2
/-- Ring selector `r` (R31). -/
abbrev RingId := Fin 22
/-- Biquad stage selector `b` (R33). -/
abbrev StageId := Fin 126
/-- Parameter index `p` (R26). -/
abbrev ParamId := Fin 13
/-- Argument register index `k` (R21). -/
abbrev ArgId := Fin 4
/-- Ramp index `q` (R35). -/
abbrev RampId := Fin 10
/-- Reverb tap index `i` (R230). -/
abbrev TapId := Fin 10

/-- LFO selector (R36): `CH[0].cph`, `CH[1].cph`, `RPH`. -/
inductive LfoId where
  | chorusLeft | chorusRight | reverb
deriving DecidableEq, Repr

/-- The two parameter register files `RDPARAM` reads (R123). -/
inductive ParamSpace where
  | staging | snapshot
deriving DecidableEq, Repr

/-- Coefficient type of `BQ_COEF` (R194). -/
inductive BqType where
  | lp | hp | ap
deriving DecidableEq, Repr

/-- Register of a stage, field 0 to 8 of `BQ_RD` (R199). -/
inductive BqField where
  | b0 | b1 | b2 | a1 | a2 | x1 | x2 | y1 | y2
deriving DecidableEq, Repr

/-- The commands, in the order of R73. -/
inductive Instr where
  | nop
  | prepare (maxBlk : BitVec 16) (fs : W32)
  | release
  | block (n : BitVec 16)
  | sample (c : Lane) (x : F32)
  | wrparam (p : ParamId) (v : W32)
  | rdparam (space : ParamSpace) (p : ParamId)
  | rdstat (idx : BitVec 16)
  | ldarg (k : ArgId) (v : W32)
  | rdarg (k : ArgId)
  | rbCreate (r : RingId) (len : W32)
  | rbWrite (r : RingId) (v : W32)
  | rbReadi (r : RingId) (d : W32)
  | rbReadf (r : RingId) (d : F32)
  | rbInterp (r : RingId) (on : Bool)
  | dlSettime (r : RingId) (ms : F32)
  | dlRead (r : RingId)
  | dlWrite (r : RingId)
  | smOnepole
  | smCoeff (tau : F32)
  | rampSet (c : Lane) (q : RampId) (t : F32)
  | rampAdv (c : Lane) (q : RampId) (n : W32)
  | rampRd (c : Lane) (q : RampId)
  | bqCoef (b : StageId) (ty : BqType)
  | bqStep (b : StageId) (x : F32)
  | bqReset (b : StageId)
  | bqRd (b : StageId) (field : BqField)
  | lfoStep (id : LfoId) (n : BitVec 16)
  | lfoRd (id : LfoId)
  | mix
  | mixadd
  | tapStep (c : Lane) (i : TapId) (u : F32)
  | rvStep (c : Lane) (u : F32)
deriving DecidableEq, Repr

end Sys2Proof
end

