-- ==== Sys2Proof/WellFormed.lean ====
section
/-! DEFINITION. The one check a command term needs beyond its types: the status index of `RDSTAT` is in the map of
R29 (R74, and the interval list of the opcode table's `RDSTAT` row). -/

namespace Sys2Proof

/-- The index intervals of the status map, R29, both ends included. -/
def statusIntervals : List (Nat × Nat) :=
  [(0x0000, 0x0009), (0x0010, 0x0013), (0x0020, 0x0035), (0x0040, 0x0055), (0x0060, 0x0075), (0x0080, 0x0095),
   (0x0100, 0x010B), (0x0110, 0x0119), (0x0120, 0x0129), (0x0130, 0x0139), (0x0140, 0x0149),
   (0x0180, 0x018B), (0x0190, 0x0199), (0x01A0, 0x01A9), (0x01B0, 0x01B9), (0x01C0, 0x01C9)]

/-- `idx` selects an item of the status map (R29). -/
def inStatusMap (idx : BitVec 16) : Bool :=
  statusIntervals.any fun iv => iv.1 ≤ idx.toNat && idx.toNat ≤ iv.2

/-- A command term is well formed when every selector is in range (R74). -/
def Instr.wellFormed : Instr → Bool
  | .nop => true
  | .prepare _ _ => true
  | .release => true
  | .block _ => true
  | .sample _ _ => true
  | .wrparam _ _ => true
  | .rdparam _ _ => true
  | .rdstat idx => inStatusMap idx
  | .ldarg _ _ => true
  | .rdarg _ => true
  | .rbCreate _ _ => true
  | .rbWrite _ _ => true
  | .rbReadi _ _ => true
  | .rbReadf _ _ => true
  | .rbInterp _ _ => true
  | .dlSettime _ _ => true
  | .dlRead _ => true
  | .dlWrite _ => true
  | .smOnepole => true
  | .smCoeff _ => true
  | .rampSet _ _ _ => true
  | .rampAdv _ _ _ => true
  | .rampRd _ _ => true
  | .bqCoef _ _ => true
  | .bqStep _ _ => true
  | .bqReset _ => true
  | .bqRd _ _ => true
  | .lfoStep _ _ => true
  | .lfoRd _ => true
  | .mix => true
  | .mixadd => true
  | .tapStep _ _ _ => true
  | .rvStep _ _ => true

end Sys2Proof
end

