-- ==== Sys2Proof/Decode.lean ====
section
/-! DEFINITION. The decoder of command words, total and rejecting by name, and the encoder (R70, R73 to R81, R84). All
rejections are answered with `E_ILLEGAL` (R254); the name only says which of the decoder's tests failed. -/

namespace Sys2Proof

/-- Why a word is no command on its port: every case is `E_ILLEGAL` (R80 steps 1 to 3, R254). -/
inductive DecodeError where
  /-- On the PAR port, an opcode other than `WRPARAM` and `RDPARAM` (R84). -/
  | notOnPar
  /-- An `opc` outside the 33 of R73 (R77). -/
  | reservedOpcode
  /-- A field the command does not use is not zero (R78). -/
  | reservedField
  /-- A selector outside its range (R74). -/
  | selectorRange
deriving DecidableEq, Repr

/-! ## Fields (R70) -/

def opcOf (w : W64) : BitVec 8 := w.extractLsb' 56 8
def selOf (w : W64) : BitVec 8 := w.extractLsb' 48 8
def idxOf (w : W64) : BitVec 16 := w.extractLsb' 32 16
def immOf (w : W64) : W32 := w.extractLsb' 0 32

/-- The command word with these four fields. -/
def mkWord (opc : BitVec 8) (sel : BitVec 8) (idx : BitVec 16) (imm : W32) : W64 := opc ++ sel ++ idx ++ imm

/-! ## Selectors (R74) -/

/-- A selector with the legal values 0 to `n - 1`. -/
def toFin? (n v : Nat) : Option (Fin n) := if h : v < n then some ⟨v, h⟩ else none

def lfoId? : Nat → Option LfoId
  | 0 => some .chorusLeft
  | 1 => some .chorusRight
  | 2 => some .reverb
  | _ => none

def LfoId.code : LfoId → BitVec 8
  | .chorusLeft => 0
  | .chorusRight => 1
  | .reverb => 2

def paramSpace? : Nat → Option ParamSpace
  | 0 => some .staging
  | 1 => some .snapshot
  | _ => none

def ParamSpace.code : ParamSpace → BitVec 8
  | .staging => 0
  | .snapshot => 1

def bqType? : Nat → Option BqType
  | 0 => some .lp
  | 1 => some .hp
  | 2 => some .ap
  | _ => none

def BqType.code : BqType → BitVec 16
  | .lp => 0
  | .hp => 1
  | .ap => 2

def bqField? : Nat → Option BqField
  | 0 => some .b0
  | 1 => some .b1
  | 2 => some .b2
  | 3 => some .a1
  | 4 => some .a2
  | 5 => some .x1
  | 6 => some .x2
  | 7 => some .y1
  | 8 => some .y2
  | _ => none

def BqField.code : BqField → BitVec 16
  | .b0 => 0
  | .b1 => 1
  | .b2 => 2
  | .a1 => 3
  | .a2 => 4
  | .x1 => 5
  | .x2 => 6
  | .y1 => 7
  | .y2 => 8

/-- The flag operand of `RB_INTERP`, bit 0 of `imm` (R75). -/
def flagWord (on : Bool) : W32 := if on then 1 else 0

/-- Step 3 of R80: the reserved fields are zero and the selectors in range. -/
def checked (reservedZero : Bool) (i : Option Instr) : Except DecodeError Instr :=
  if reservedZero then
    match i with
    | some i => .ok i
    | none => .error .selectorRange
  else .error .reservedField

/-- The decoder of the CMD port (R80 steps 2 and 3). -/
def decode (w : W64) : Except DecodeError Instr :=
  let sel := selOf w
  let idx := idxOf w
  let imm := immOf w
  let ring := toFin? 22 sel.toNat
  let lane := toFin? 2 sel.toNat
  let stage := toFin? 126 sel.toNat
  let ramp := toFin? 10 idx.toNat
  match (opcOf w).toNat with
  | 0x00 => checked (sel == 0 && idx == 0 && imm == 0) (some .nop)
  | 0x01 => checked (sel == 0) (some (.prepare idx imm))
  | 0x02 => checked (sel == 0 && idx == 0 && imm == 0) (some .release)
  | 0x03 => checked (sel == 0 && imm == 0) (some (.block idx))
  | 0x04 => checked (idx == 0) (lane.map fun c => .sample c imm)
  | 0x05 => checked (sel == 0) ((toFin? 13 idx.toNat).map fun p => .wrparam p imm)
  | 0x06 => checked (imm == 0)
      ((paramSpace? sel.toNat).bind fun sp => (toFin? 13 idx.toNat).map fun p => .rdparam sp p)
  | 0x07 => checked (sel == 0 && imm == 0) (if inStatusMap idx then some (.rdstat idx) else none)
  | 0x08 => checked (sel == 0) ((toFin? 4 idx.toNat).map fun k => .ldarg k imm)
  | 0x09 => checked (sel == 0 && imm == 0) ((toFin? 4 idx.toNat).map fun k => .rdarg k)
  | 0x10 => checked (idx == 0) (ring.map fun r => .rbCreate r imm)
  | 0x11 => checked (idx == 0) (ring.map fun r => .rbWrite r imm)
  | 0x12 => checked (idx == 0) (ring.map fun r => .rbReadi r imm)
  | 0x13 => checked (idx == 0) (ring.map fun r => .rbReadf r imm)
  | 0x14 => checked (idx == 0 && imm >>> 1 == 0) (ring.map fun r => .rbInterp r (imm.getLsbD 0))
  | 0x18 => checked (idx == 0) (ring.map fun r => .dlSettime r imm)
  | 0x19 => checked (idx == 0 && imm == 0) (ring.map fun r => .dlRead r)
  | 0x1A => checked (idx == 0 && imm == 0) (ring.map fun r => .dlWrite r)
  | 0x20 => checked (sel == 0 && idx == 0 && imm == 0) (some .smOnepole)
  | 0x21 => checked (sel == 0 && idx == 0) (some (.smCoeff imm))
  | 0x22 => checked true (lane.bind fun c => ramp.map fun q => .rampSet c q imm)
  | 0x23 => checked true (lane.bind fun c => ramp.map fun q => .rampAdv c q imm)
  | 0x24 => checked (imm == 0) (lane.bind fun c => ramp.map fun q => .rampRd c q)
  | 0x28 => checked (imm == 0) (stage.bind fun b => (bqType? idx.toNat).map fun t => .bqCoef b t)
  | 0x29 => checked (idx == 0) (stage.map fun b => .bqStep b imm)
  | 0x2A => checked (idx == 0 && imm == 0) (stage.map fun b => .bqReset b)
  | 0x2B => checked (imm == 0) (stage.bind fun b => (bqField? idx.toNat).map fun f => .bqRd b f)
  | 0x30 => checked (imm == 0) ((lfoId? sel.toNat).map fun l => .lfoStep l idx)
  | 0x31 => checked (idx == 0 && imm == 0) ((lfoId? sel.toNat).map fun l => .lfoRd l)
  | 0x38 => checked (sel == 0 && idx == 0 && imm == 0) (some .mix)
  | 0x39 => checked (sel == 0 && idx == 0 && imm == 0) (some .mixadd)
  | 0x40 => checked true (lane.bind fun c => (toFin? 10 idx.toNat).map fun i => .tapStep c i imm)
  | 0x41 => checked (idx == 0) (lane.map fun c => .rvStep c imm)
  | _ => .error .reservedOpcode

/-- The decoder of the PAR port: only `WRPARAM` and `RDPARAM` (R80 step 1, R84). -/
def decodePar (w : W64) : Except DecodeError Instr :=
  if opcOf w == 0x05 || opcOf w == 0x06 then decode w else .error .notOnPar

/-! ## Encoder -/

/-- A selector in the 8-bit field `sel`. -/
def sel8 {n : Nat} (v : Fin n) : BitVec 8 := BitVec.ofNat 8 v.val

/-- A selector in the 16-bit field `idx`. -/
def idx16 {n : Nat} (v : Fin n) : BitVec 16 := BitVec.ofNat 16 v.val

/-- The command word of an instruction (R73, R75). -/
def encode : Instr → W64
  | .nop => mkWord 0x00 0 0 0
  | .prepare maxBlk fs => mkWord 0x01 0 maxBlk fs
  | .release => mkWord 0x02 0 0 0
  | .block n => mkWord 0x03 0 n 0
  | .sample c x => mkWord 0x04 (sel8 c) 0 x
  | .wrparam p v => mkWord 0x05 0 (idx16 p) v
  | .rdparam sp p => mkWord 0x06 sp.code (idx16 p) 0
  | .rdstat idx => mkWord 0x07 0 idx 0
  | .ldarg k v => mkWord 0x08 0 (idx16 k) v
  | .rdarg k => mkWord 0x09 0 (idx16 k) 0
  | .rbCreate r len => mkWord 0x10 (sel8 r) 0 len
  | .rbWrite r v => mkWord 0x11 (sel8 r) 0 v
  | .rbReadi r d => mkWord 0x12 (sel8 r) 0 d
  | .rbReadf r d => mkWord 0x13 (sel8 r) 0 d
  | .rbInterp r on => mkWord 0x14 (sel8 r) 0 (flagWord on)
  | .dlSettime r ms => mkWord 0x18 (sel8 r) 0 ms
  | .dlRead r => mkWord 0x19 (sel8 r) 0 0
  | .dlWrite r => mkWord 0x1A (sel8 r) 0 0
  | .smOnepole => mkWord 0x20 0 0 0
  | .smCoeff tau => mkWord 0x21 0 0 tau
  | .rampSet c q t => mkWord 0x22 (sel8 c) (idx16 q) t
  | .rampAdv c q n => mkWord 0x23 (sel8 c) (idx16 q) n
  | .rampRd c q => mkWord 0x24 (sel8 c) (idx16 q) 0
  | .bqCoef b ty => mkWord 0x28 (sel8 b) ty.code 0
  | .bqStep b x => mkWord 0x29 (sel8 b) 0 x
  | .bqReset b => mkWord 0x2A (sel8 b) 0 0
  | .bqRd b f => mkWord 0x2B (sel8 b) f.code 0
  | .lfoStep l n => mkWord 0x30 l.code n 0
  | .lfoRd l => mkWord 0x31 l.code 0 0
  | .mix => mkWord 0x38 0 0 0
  | .mixadd => mkWord 0x39 0 0 0
  | .tapStep c i u => mkWord 0x40 (sel8 c) (idx16 i) u
  | .rvStep c u => mkWord 0x41 (sel8 c) 0 u

/-- The fixed bits of a command's row in the opcode table, `mask` then `match` (R79). -/
def rowOf : Instr → W64 × W64
  | .nop => (0xFFFFFFFFFFFFFFFF, 0x0000000000000000)
  | .prepare _ _ => (0xFFFF000000000000, 0x0100000000000000)
  | .release => (0xFFFFFFFFFFFFFFFF, 0x0200000000000000)
  | .block _ => (0xFFFF0000FFFFFFFF, 0x0300000000000000)
  | .sample _ _ => (0xFFFEFFFF00000000, 0x0400000000000000)
  | .wrparam _ _ => (0xFFFFFFF000000000, 0x0500000000000000)
  | .rdparam _ _ => (0xFFFEFFF0FFFFFFFF, 0x0600000000000000)
  | .rdstat _ => (0xFFFFFE00FFFFFFFF, 0x0700000000000000)
  | .ldarg _ _ => (0xFFFFFFFC00000000, 0x0800000000000000)
  | .rdarg _ => (0xFFFFFFFCFFFFFFFF, 0x0900000000000000)
  | .rbCreate _ _ => (0xFFE0FFFF00000000, 0x1000000000000000)
  | .rbWrite _ _ => (0xFFE0FFFF00000000, 0x1100000000000000)
  | .rbReadi _ _ => (0xFFE0FFFF00000000, 0x1200000000000000)
  | .rbReadf _ _ => (0xFFE0FFFF00000000, 0x1300000000000000)
  | .rbInterp _ _ => (0xFFE0FFFFFFFFFFFE, 0x1400000000000000)
  | .dlSettime _ _ => (0xFFE0FFFF00000000, 0x1800000000000000)
  | .dlRead _ => (0xFFE0FFFFFFFFFFFF, 0x1900000000000000)
  | .dlWrite _ => (0xFFE0FFFFFFFFFFFF, 0x1A00000000000000)
  | .smOnepole => (0xFFFFFFFFFFFFFFFF, 0x2000000000000000)
  | .smCoeff _ => (0xFFFFFFFF00000000, 0x2100000000000000)
  | .rampSet _ _ _ => (0xFFFEFFF000000000, 0x2200000000000000)
  | .rampAdv _ _ _ => (0xFFFEFFF000000000, 0x2300000000000000)
  | .rampRd _ _ => (0xFFFEFFF0FFFFFFFF, 0x2400000000000000)
  | .bqCoef _ _ => (0xFF80FFFCFFFFFFFF, 0x2800000000000000)
  | .bqStep _ _ => (0xFF80FFFF00000000, 0x2900000000000000)
  | .bqReset _ => (0xFF80FFFFFFFFFFFF, 0x2A00000000000000)
  | .bqRd _ _ => (0xFF80FFF0FFFFFFFF, 0x2B00000000000000)
  | .lfoStep _ _ => (0xFFFC0000FFFFFFFF, 0x3000000000000000)
  | .lfoRd _ => (0xFFFCFFFFFFFFFFFF, 0x3100000000000000)
  | .mix => (0xFFFFFFFFFFFFFFFF, 0x3800000000000000)
  | .mixadd => (0xFFFFFFFFFFFFFFFF, 0x3900000000000000)
  | .tapStep _ _ _ => (0xFFFEFFF000000000, 0x4000000000000000)
  | .rvStep _ _ => (0xFFFEFFFF00000000, 0x4100000000000000)

/-- The instruction the decoder reads from an opcode-table word of `nbits` bits, the bits above them zero. A command is
one word of 64 bits (R81). -/
def decodeTableWord (nbits w : Nat) : Option Instr :=
  let v := w % 2 ^ nbits
  if v < 2 ^ 64 then (decode (BitVec.ofNat 64 v)).toOption else none

end Sys2Proof
end

