-- ==== Sys2Proof/Config.lean ====
section
/-! DEFINITION. What is fixed for the machine: the structural parameters (R5), the calibration constants (R6), the
numeric constants (R9), the calibration values the spec leaves OPEN as one record, and the free values (constants
without a body) for what the spec does not fix. -/

namespace Sys2Proof

namespace Config

/-! ## Structural parameters (R5) -/

/-- `FS_MAX`, the largest sample rate `PREPARE` accepts, in Hz. -/
def fsMax : Nat := 262144

/-- The largest ring capacity in words, 2 ^ `RB_LOG2_MAX`. -/
def capMax : Nat := 524288

/-- `DELAY_MAX_MS`, the upper clamp of the delay-time parameters. -/
def delayMaxMs : Nat := 2000

/-- `RAMP_MS`, the length of a linear ramp in ms (R6). -/
def rampMs : Nat := 50

/-! ## Numeric constants (R9) and calibration constants with a stated value (R6) -/

def f0 : F32 := 0x00000000#32
def f1 : F32 := 0x3F800000#32
def f2 : F32 := 0x40000000#32
def f3 : F32 := 0x40400000#32
def f20 : F32 := 0x41A00000#32
def f1000 : F32 := 0x447A0000#32
def f7000 : F32 := 0x45DAC000#32
/-- 0.1 -/
def fTenth : F32 := 0x3DCCCCCD#32
/-- 0.45 -/
def f045 : F32 := 0x3EE66666#32
/-- 262144.0, the largest rate `LFO_STEP` accepts (R212). -/
def fRateMax : F32 := 0x48800000#32
/-- `PI` -/
def fPi : F32 := 0x40490FDB#32
/-- `TWO_PI` -/
def fTwoPi : F32 := 0x40C90FDB#32

/-- `TAU_GEN`, 0.010 s. -/
def tauGen : F32 := 0x3C23D70A#32
/-- `TAU_SML`, 0.001 s. -/
def tauSml : F32 := 0x3A83126F#32
/-- `TAU_LRG`, 0.5 s. -/
def tauLrg : F32 := 0x3F000000#32
/-- `GLPF_HZ`, 7000.0. -/
def glpfHz : F32 := f7000
/-- `TLP_HZ`, 3300.0. -/
def tlpHz : F32 := 0x454E4000#32
/-- `Q_BUTTER`, the nearest F32 to 1 / sqrt 2. -/
def qButter : F32 := 0x3F3504F3#32
/-- `RV_LFO_HZ`, 0.005. -/
def rvLfoHz : F32 := 0x3BA3D70A#32
/-- `RV_LFO_DEPTH_MS`, 0.005. -/
def rvLfoDepthMs : F32 := 0x3BA3D70A#32

/-- `AP_HZ[0..4]`: 500.0, 1625.0, 2750.0, 3875.0, 5000.0. -/
def apHz (k : Fin 5) : F32 :=
  [0x43FA0000#32, 0x44CB2000#32, 0x452BE000#32, 0x45723000#32, 0x459C4000#32].getD k.val f0

/-- `DECAY[0..9]`: the F32 nearest to 0.90 - 0.01 i (R234). -/
def decay (i : Fin 10) : F32 :=
  [0x3F666666#32, 0x3F63D70A#32, 0x3F6147AE#32, 0x3F5EB852#32, 0x3F5C28F6#32,
   0x3F59999A#32, 0x3F570A3D#32, 0x3F547AE1#32, 0x3F51EB85#32, 0x3F4F5C29#32].getD i.val f0

/-! ## Free values -/

/-- The operations that can produce a NaN. -/
inductive Op where
  | add | sub | mul | div | sin | exp | tan
deriving DecidableEq, Repr

/-- The functions that are not basic IEEE operations (R8). -/
inductive Fn where
  | sin | exp | tan
deriving DecidableEq, Repr

/-- FREE VALUE (U1, assumption log 3): sign (bit 23) and fraction (bits 22:0) of the NaN that an operation
produces from these operands. Nothing constrains it. -/
opaque nanBits : Op → F32 → F32 → BitVec 24

/-- FREE VALUE (assumption log 4 and 5): the value of `fsin`, `fexp` or `ftan` at an argument where the spec
states no result (an infinity without a real result, the sign of the zero at -0.0), or the choice between the two
ends where the enclosure of `Machine/Transcendental.lean` does not decide the rounding. -/
opaque freeFn : Fn → F32 → F32

/-- FREE VALUE (assumption log 6): `lfo_wrap` outside the domain R211 states for it, and the sign of its zero at -0.0. -/
opaque freeWrap : F32 → F32

end Config

/-- The calibration values R6 marks OPEN: a parameter of the run (U7), never changed by the machine. -/
structure Calibration where
  /-- `AP_Q[0..4]` -/
  apQ : Vector F32 5
  /-- `CHORUS_DEPTH_MS` -/
  chorusDepth : F32
  /-- `TAP_MS[c][i]` -/
  tapMs : Vector (Vector F32 10) 2
deriving DecidableEq, Repr

/-- `CAL0`, the spec's own reference calibration (R6, R231): every `AP_Q[k]` is `Q_BUTTER`, the chorus depth 1.0,
the tap times 31, 37, 41, 43, 47, 53, 59, 61, 67, 71 ms left and 29, 39, 45, 49, 51, 55, 57, 63, 69, 73 ms right. -/
def Calibration.cal0 : Calibration where
  apQ := Vector.replicate 5 Config.qButter
  chorusDepth := Config.f1
  tapMs := #v[
    #v[0x41F80000#32, 0x42140000#32, 0x42240000#32, 0x422C0000#32, 0x423C0000#32,
       0x42540000#32, 0x426C0000#32, 0x42740000#32, 0x42860000#32, 0x428E0000#32],
    #v[0x41E80000#32, 0x421C0000#32, 0x42340000#32, 0x42440000#32, 0x424C0000#32,
       0x425C0000#32, 0x42640000#32, 0x427C0000#32, 0x428A0000#32, 0x42920000#32]]

end Sys2Proof
end

