-- ==== Sys2Proof/Machine/Float.lean ====
section
/-! DEFINITION. IEEE 754 binary32 arithmetic (R7), the conversions (R11) and the clamps (R12). A finite value is an
integer number of units of 2^-149, the smallest subnormal, so sums and products are computed exactly on integers and
rounded once at the end. -/

namespace Sys2Proof.F32

/-- The sign bit. -/
def sign (v : F32) : Bool := v.toNat.testBit 31

/-- The magnitude pattern, bits 30:0. -/
def mag (v : F32) : Nat := v.toNat % 2 ^ 31

/-- The magnitude pattern of an infinity. -/
def infMag : Nat := 0x7F800000

/-- A NaN: exponent 0xFF, fraction not zero. -/
def isNaN (v : F32) : Bool := infMag < v.mag

/-- An infinity. -/
def isInf (v : F32) : Bool := v.mag == infMag

/-- Neither a NaN nor an infinity. -/
def isFinite (v : F32) : Bool := v.mag < infMag

/-- A zero of either sign. -/
def isZero (v : F32) : Bool := v.mag == 0

/-- The value with this sign bit and this magnitude pattern. -/
def pack (s : Bool) (m : Nat) : F32 := BitVec.ofNat 32 (if s then 2 ^ 31 + m else m)

/-- The magnitude of a finite value in units of 2^-149. -/
def units (v : F32) : Nat :=
  let e := v.mag / 2 ^ 23
  let f := v.mag % 2 ^ 23
  if e = 0 then f else (2 ^ 23 + f) * 2 ^ (e - 1)

/-- A finite value in units of 2^-149, signed. -/
def sunits (v : F32) : Int := if v.sign then -(v.units : Int) else (v.units : Int)

/-- The integer nearest to `n / d`, ties to even. -/
def roundHalfEven (n d : Nat) : Nat :=
  let q := n / d
  let r := n % d
  if 2 * r < d then q else if d < 2 * r then q + 1 else q + q % 2

/-- The magnitude pattern of the F32 nearest to `n / d` units of 2^-149, ties to even, an infinity on overflow (R7).
The exponent is chosen so that the rounded significand has 24 bits, or fewer in the subnormal range; the pattern is
then the exponent steps plus the significand, a carry included. -/
def roundMag (n d : Nat) : Nat :=
  let k := Nat.log2 (n / d) - 23
  min infMag (k * 2 ^ 23 + roundHalfEven n (d * 2 ^ k))

/-- The F32 nearest to the exact value `i` units of 2^-149; `zs` is the sign a zero takes. -/
def ofUnits (zs : Bool) (i : Int) : F32 :=
  if i = 0 then pack zs 0 else pack (decide (i < 0)) (roundMag i.natAbs 1)

/-- The NaN an operation produces: exponent 0xFF and a non-zero fraction, the rest a free value (U1). -/
def nan (op : Config.Op) (a b : F32) : F32 :=
  let n := (Config.nanBits op a b).toNat
  pack (n.testBit 23) (infMag + max 1 (n % 2 ^ 23))

/-- `-v` of R7: flips the sign bit. -/
def neg (v : F32) : F32 := v ^^^ 0x80000000#32

/-- `abs(v)` of R7: clears the sign bit. -/
def abs (v : F32) : F32 := v &&& 0x7FFFFFFF#32

/-- A sum, for the operation `op` (an addition or, with `b` negated, a subtraction). -/
def addAs (op : Config.Op) (a b : F32) : F32 :=
  if a.isNaN || b.isNaN then nan op a b
  else if a.isInf then (if b.isInf && a.sign != b.sign then nan op a b else a)
  else if b.isInf then b
  else ofUnits (a.sign && b.sign) (a.sunits + b.sunits)

/-- `a + b`, rounded once (R7). -/
def add (a b : F32) : F32 := addAs .add a b

/-- `a - b`, rounded once (R7). -/
def sub (a b : F32) : F32 := addAs .sub a b.neg

/-- `a * b`, rounded once (R7). -/
def mul (a b : F32) : F32 :=
  let s := a.sign != b.sign
  if a.isNaN || b.isNaN || (a.isInf && b.isZero) || (a.isZero && b.isInf) then nan .mul a b
  else if a.isInf || b.isInf then pack s infMag
  else pack s (roundMag (a.units * b.units) (2 ^ 149))

/-- `a / b`, rounded once (R7). -/
def div (a b : F32) : F32 :=
  let s := a.sign != b.sign
  if a.isNaN || b.isNaN || (a.isInf && b.isInf) || (a.isZero && b.isZero) then nan .div a b
  else if a.isInf || b.isZero then pack s infMag
  else if b.isInf then pack s 0
  else pack s (roundMag (a.units * 2 ^ 149) b.units)

/-- A number that orders the values that are no NaN as the reals and the two infinities are ordered. -/
def key (v : F32) : Int := if v.sign then -(v.mag : Int) else (v.mag : Int)

/-- `a < b` (R7). -/
def lt (a b : F32) : Bool := !a.isNaN && !b.isNaN && decide (a.key < b.key)

/-- `a > b` (R7). -/
def gt (a b : F32) : Bool := lt b a

/-- `a >= b` (R7). -/
def ge (a b : F32) : Bool := !a.isNaN && !b.isNaN && decide (b.key ≤ a.key)

/-- `a == b` (R7): `-0 == +0`, false with a NaN. -/
def feq (a b : F32) : Bool := !a.isNaN && !b.isNaN && decide (a.key = b.key)

/-- `a != b` (R7): true with a NaN. -/
def fne (a b : F32) : Bool := !feq a b

/-- `toF32(n)` of R11. -/
def ofNat (n : Nat) : F32 := ofUnits false ((n * 2 ^ 149 : Nat) : Int)

/-- `floor(d)` of R11 for a finite `d`. -/
def floor (d : F32) : Int := d.sunits / ((2 ^ 149 : Nat) : Int)

/-- `toF32(floor(d))` of R11 for a finite `d`, exact. The floor of -0.0 is -0.0, so that the fraction of every
integer-valued `d` is +0.0 (R148 (c); assumption log 17). -/
def floorF (d : F32) : F32 := ofUnits d.sign (floor d * ((2 ^ 149 : Nat) : Int))

/-- `clampF` of R12. -/
def clamp (v lo hi : F32) : F32 := if !ge v lo then lo else if gt v hi then hi else v

/-- `lfo_wrap` of R211: the remainder by `TWO_PI`, exact on the common unit; outside the stated domain (a finite
value that is not negative) a free value. At -0.0, which is in the domain, the rule gives a zero and not its sign: the
sign is a free value too (DESIGN CHOICE, assumption log 6). -/
def wrap (p : F32) : F32 :=
  if p.isFinite && ge p Config.f0 then
    ofUnits (p.sign && (Config.freeWrap p).sign) ((p.units % Config.fTwoPi.units : Nat) : Int)
  else Config.freeWrap p

end Sys2Proof.F32

namespace Sys2Proof

/-- `clampI(asI32(w), 0, hi)` of R12, as the word it leaves. -/
def clampDelay (w : W32) (hi : Nat) : W32 := BitVec.ofNat 32 (min (max w.toInt 0).toNat hi)

/-- `nextPow2` of R13. -/
def nextPow2 (n : Nat) : Nat := if n ≤ 1 then 1 else 2 ^ (Nat.log2 (n - 1) + 1)

end Sys2Proof
end

