-- ==== Sys2Proof/Machine/Calibration.lean ====
section
/-! DEFINITION. The calibration of a run (R6): the OPEN values together with the proof that they meet the constraints R6
imposes on them, so that no state with other values can be built. -/

namespace Sys2Proof

/-- The constraints of R6 on the OPEN values: every `AP_Q[k]` is finite and greater than 0, `CHORUS_DEPTH_MS` is finite
and at least 0, every `TAP_MS[c][i]` is finite, greater than 0 and at most `DELAY_MAX_MS`, and the two rows of `TAP_MS`
differ. -/
def Calibration.valid (k : Calibration) : Bool :=
  decide (∀ j : Fin 5, F32.isFinite k.apQ[j] = true ∧ F32.gt k.apQ[j] Config.f0 = true) &&
  (F32.isFinite k.chorusDepth && F32.ge k.chorusDepth Config.f0) &&
  decide (∀ (c : Lane) (i : TapId), F32.isFinite (k.tapMs[c])[i] = true ∧ F32.gt (k.tapMs[c])[i] Config.f0 = true ∧
    F32.ge (F32.ofNat Config.delayMaxMs) (k.tapMs[c])[i] = true) &&
  decide (∃ i : TapId, (k.tapMs[(0 : Lane)])[i] ≠ (k.tapMs[(1 : Lane)])[i])

/-- A calibration that meets the constraints of R6. -/
structure RunCalibration extends Calibration where
  isValid : toCalibration.valid = true
deriving DecidableEq, Repr

/-- `CAL0` with its check. -/
def RunCalibration.cal0 : RunCalibration := { Calibration.cal0 with isValid := by decide +kernel }

end Sys2Proof
end

