-- ==== Sys2Proof/Machine/State.lean ====
section
/-! DEFINITION. The state of the hardware, the record of R20, as plain data, with its reset value (R40); beside it the
model's own fields (calibration, the events still to come, the responses given). -/

namespace Sys2Proof.Machine

/-- No fault exists: the hardware has no trap and no stuck state, every command gets a response (R251, R296; 93 part 1:
nothing has the treatment `fault`). A command the hardware turns away is answered with an error code, which is a
next state (assumption log 14). -/
inductive Fault
deriving DecidableEq, Repr

/-- Why the model would give an instruction no meaning. -/
inductive Refusal where
  /-- Raised by no meaning: every command of the table has its meaning. Safe. -/
  | notModelled (mnemonic : String)
deriving DecidableEq, Repr

/-- `LIFE` (R24). -/
inductive Life where
  | unprep | prep | run
deriving DecidableEq, Repr

/-- The two ports (R72). -/
inductive Port where
  | cmd | par
deriving DecidableEq, Repr

/-- The error codes of R250 that a refused command answers with. -/
inductive ErrCode where
  | illegal | state | config | range
deriving DecidableEq, Repr

/-- A response code (R71): `OK` or an error. Codes 5 to 15 do not exist. -/
inductive RspCode where
  | ok
  | err (e : ErrCode)
deriving DecidableEq, Repr

/-- One response on a port (R71, R72). -/
structure Reply where
  port : Port
  code : RspCode
  data : W32
deriving DecidableEq, Repr

/-- What the outside world does to the hardware, one event at a time (R16, R62, R280). -/
inductive Event where
  /-- a command word accepted on the CMD port -/
  | cmd (w : W64)
  /-- a command word accepted on the PAR port -/
  | par (w : W64)
  /-- `rst_n` held low at a rising clock edge -/
  | reset
deriving DecidableEq, Repr

/-- The sticky bits `ERR`, bits 11:8 of `STATUS` (R28). -/
structure Err where
  illegal : Bool
  state : Bool
  config : Bool
  range : Bool
deriving DecidableEq, Repr

/-- One word of a ring memory: its index and its value (R51; assumption log 1). -/
abbrev Cell := Nat × W32

/-- A ring buffer `RB[r]` (R30). -/
structure Ring where
  cap : W32
  widx : W32
  interp : Bool
  mem : List Cell
deriving DecidableEq, Repr

/-- A biquad stage `BQ[b]` (R33). -/
structure Biquad where
  b0 : F32
  b1 : F32
  b2 : F32
  a1 : F32
  a2 : F32
  x1 : F32
  x2 : F32
  y1 : F32
  y2 : F32
deriving DecidableEq, Repr

/-- A linear ramp `CH[c].RAMP[q]` (R35). -/
structure Ramp where
  cur : F32
  tgt : F32
  step : F32
  cnt : W32
deriving DecidableEq, Repr

/-- A lane `CH[c]` (R34 to R37). -/
structure Chan where
  fbS : F32
  dwS : F32
  rlS : F32
  lpmS : F32
  hpmS : F32
  chmS : F32
  rvmS : F32
  zero : Bool
  dparam : W32
  lpfApp : F32
  hpfApp : F32
  ramp : Vector Ramp 10
  cph : F32
  pkIn : F32
  pkOut : F32
deriving DecidableEq, Repr

/-- The whole state (R20), then the model's own fields. -/
structure State where
  life : Life
  err : Err
  fs : W32
  maxBlk : BitVec 16
  nRamp : W32
  lastN : BitVec 16
  cGen : F32
  cSml : F32
  cLrg : F32
  a : Vector W32 4
  param : Vector W32 13
  snap : Vector W32 13
  rph : F32
  rmod : F32
  rb : Vector Ring 22
  /-- `DL[r].dcur` -/
  dl : Vector F32 22
  bq : Vector Biquad 126
  ch : Vector Chan 2
  /-- the OPEN calibration values of this run, within the constraints of R6 (R20; assumption log 7) -/
  cal : RunCalibration
  /-- the events still to come, oldest first (R16, R17, R62; assumption log 8) -/
  input : List Event
  /-- the port of the command in execution (R72; assumption log 10) -/
  port : Port
  /-- how many commands have been accepted (R22; assumption log 10) -/
  pos : Nat
  /-- the responses given, newest first (R17, R71; assumption log 10) -/
  log : List Reply
deriving DecidableEq, Repr

/-- A ring that is not allocated (R30). -/
def Ring.reset : Ring := { cap := 0, widx := 0, interp := true, mem := [] }

/-- The identity stage (R33). -/
def Biquad.reset : Biquad :=
  { b0 := Config.f1, b1 := 0, b2 := 0, a1 := 0, a2 := 0, x1 := 0, x2 := 0, y1 := 0, y2 := 0 }

/-- A ramp at rest at zero (R35). -/
def Ramp.reset : Ramp := { cur := 0, tgt := 0, step := 0, cnt := 0 }

/-- The reset values of a lane (R34 to R37). -/
def Chan.reset : Chan :=
  { fbS := 0, dwS := 0, rlS := 0, lpmS := 0, hpmS := 0, chmS := 0, rvmS := 0, zero := true, dparam := 0,
    lpfApp := 0, hpfApp := 0, ramp := Vector.replicate 10 Ramp.reset, cph := 0, pkIn := 0, pkOut := 0 }

/-- The reset values of the parameter staging registers (R26). -/
def paramReset : Vector W32 13 :=
  #v[0#32, 0#32, 0#32, 0#32, 0#32, 0#32, 0x3DCCCCCD#32, 0#32, 0x45DAC000#32, 0#32, 0x41A00000#32, 0#32, 0#32]

/-- The machine right after hardware reset (R40). -/
def State.reset : State :=
  { life := .unprep
    err := { illegal := false, state := false, config := false, range := false }
    fs := 0, maxBlk := 0, nRamp := 0, lastN := 0
    cGen := 0, cSml := 0, cLrg := 0
    a := Vector.replicate 4 0
    param := paramReset
    snap := Vector.replicate 13 0
    rph := 0, rmod := 0
    rb := Vector.replicate 22 Ring.reset
    dl := Vector.replicate 22 0
    bq := Vector.replicate 126 Biquad.reset
    ch := Vector.replicate 2 Chan.reset
    cal := RunCalibration.cal0
    input := []
    port := .cmd
    pos := 0
    log := [] }

end Sys2Proof.Machine
end

