-- ==== Sys2Proof/Machine/Flags.lean ====
section
/-! DEFINITION. The one-bit and coded items a host reads: response codes (R71, R250), sticky bits and `STATUS` (R28),
and the status map (R29). The hardware has no arithmetic condition codes (R23). -/

namespace Sys2Proof.Machine

/-- The 4-bit response code (R71, R250). -/
def ErrCode.code : ErrCode → BitVec 4
  | .illegal => 1
  | .state => 2
  | .config => 3
  | .range => 4

/-- The 4-bit response code (R71, R250). -/
def RspCode.code : RspCode → BitVec 4
  | .ok => 0
  | .err e => e.code

/-- Sets the sticky bit of an error code; a set bit stays set (R28, R252). -/
def Err.set (x : Err) : ErrCode → Err
  | .illegal => { x with illegal := true }
  | .state => { x with state := true }
  | .config => { x with config := true }
  | .range => { x with range := true }

/-- The value of `LIFE` (R24). -/
def Life.code : Life → Nat
  | .unprep => 0
  | .prep => 1
  | .run => 2

/-- A one-bit item as a word (R29). -/
def flag (b : Bool) : W32 := if b then 1 else 0

/-- `STATUS` (R28): `LIFE` in bits 1:0, the sticky bits in 8 to 11, zero elsewhere. -/
def State.status (s : State) : W32 :=
  BitVec.ofNat 32 (s.life.code + 0x100 * s.err.illegal.toNat + 0x200 * s.err.state.toNat
    + 0x400 * s.err.config.toNat + 0x800 * s.err.range.toNat)

/-- `n` as an index into the `k` items of the status map that start at `base`. -/
def within (base k n : Nat) : Option (Fin k) := if base ≤ n then toFin? k (n - base) else none

/-- Items 0x0000 to 0x0009 of R29. -/
def State.globalItem (s : State) (j : Fin 10) : W32 :=
  match j.val with
  | 0 => s.status
  | 1 => s.fs
  | 2 => s.maxBlk.setWidth 32
  | 3 => s.nRamp
  | 4 => s.cGen
  | 5 => s.cSml
  | 6 => s.cLrg
  | 7 => s.rmod
  | 8 => s.lastN.setWidth 32
  | _ => s.rph

/-- The lane registers `j` = 0 to 11 of R29. -/
def Chan.item (l : Chan) (j : Fin 12) : W32 :=
  match j.val with
  | 0 => l.fbS
  | 1 => l.dwS
  | 2 => l.rlS
  | 3 => l.lpmS
  | 4 => l.hpmS
  | 5 => l.chmS
  | 6 => l.rvmS
  | 7 => flag l.zero
  | 8 => l.lpfApp
  | 9 => l.hpfApp
  | 10 => l.dparam
  | _ => l.cph

/-- A lane block of R29: registers from `j` = 0, ramp fields from 0x10, 0x20, 0x30, 0x40. -/
def Chan.statItem (l : Chan) (j : Nat) : Option W32 :=
  match within 0 12 j with
  | some k => some (l.item k)
  | none => match within 0x10 10 j with
    | some q => some (l.ramp[q]).cur
    | none => match within 0x20 10 j with
      | some q => some (l.ramp[q]).tgt
      | none => match within 0x30 10 j with
        | some q => some (l.ramp[q]).cnt
        | none => (within 0x40 10 j).map fun q => (l.ramp[q]).step

/-- `status_item(idx)`: the status map of R29, `none` outside it. -/
def State.statusItem (s : State) (idx : BitVec 16) : Option W32 :=
  let n := idx.toNat
  match within 0x0000 10 n with
  | some j => some (s.globalItem j)
  | none => match within 0x0010 2 n with
    | some c => some (s.ch[c]).pkIn
    | none => match within 0x0012 2 n with
      | some c => some (s.ch[c]).pkOut
      | none => match within 0x0020 22 n with
        | some r => some (s.rb[r]).cap
        | none => match within 0x0040 22 n with
          | some r => some (s.rb[r]).widx
          | none => match within 0x0060 22 n with
            | some r => some (flag (s.rb[r]).interp)
            | none => match within 0x0080 22 n with
              | some r => some s.dl[r]
              | none => match within 0x0100 0x80 n with
                | some j => (s.ch[0]).statItem j.val
                | none => match within 0x0180 0x80 n with
                  | some j => (s.ch[1]).statItem j.val
                  | none => none

end Sys2Proof.Machine
end

