-- ==== Sys2Proof/Machine/Operands.lean ====
section
/-! DEFINITION. Operands: the numbering of rings and stages by lane and tap (R31, R33, R203, R230), the argument
registers (R21, R76), the phase registers (R36), the lifecycle and allocation tests (R256) and the value tests
(R258). -/

namespace Sys2Proof.Machine

/-! ## Numbering -/

/-- Ring and delay line `11 c` (R31). -/
def mainRing (c : Lane) : RingId := ⟨11 * c.val, by omega⟩

/-- Ring and delay line `11 c + 1 + i` (R31, R230). -/
def tapRing (c : Lane) (i : TapId) : RingId := ⟨11 * c.val + 1 + i.val, by omega⟩

/-- Stage `63 c + 0`, the user low-pass (R33). -/
def lpfStage (c : Lane) : StageId := ⟨63 * c.val, by omega⟩

/-- Stage `63 c + 1`, the user high-pass (R33). -/
def hpfStage (c : Lane) : StageId := ⟨63 * c.val + 1, by omega⟩

/-- Stage `63 c + 2`, the general low-pass (R33). -/
def glpfStage (c : Lane) : StageId := ⟨63 * c.val + 2, by omega⟩

/-- Stage `63 c + 3 + 6 i + k`, an all-pass of tap `i` (R33, R230). -/
def apStage (c : Lane) (i : TapId) (k : Fin 5) : StageId := ⟨63 * c.val + 3 + 6 * i.val + k.val, by omega⟩

/-- Stage `63 c + 3 + 6 i + 5`, the low-pass of tap `i` (R33, R230). -/
def tlpStage (c : Lane) (i : TapId) : StageId := ⟨63 * c.val + 3 + 6 * i.val + 5, by omega⟩

/-- The two lanes in order. -/
def lanes : List Lane := [0, 1]

/-- The ten taps in order (R235). -/
def taps : List TapId := [0, 1, 2, 3, 4, 5, 6, 7, 8, 9]

/-- The five all-pass stages of a tap in order (R233). -/
def aps : List (Fin 5) := [0, 1, 2, 3, 4]

/-! ## State tests (R256, R67) -/

/-- `RB[r].cap > 0`. -/
def State.allocated (s : State) (r : RingId) : Bool := (s.rb[r]).cap != 0

/-- `LIFE != UNPREP`. -/
def State.prepared (s : State) : Bool := s.life != .unprep

/-- The ten tap rings of a lane are allocated; every prepared state a program can reach has this (R39 (b), R67,
assumption log 11). -/
def State.tapsAllocated (s : State) (c : Lane) : Bool := taps.all fun i => s.allocated (tapRing c i)

/-- The eleven rings of a lane are allocated (R39 (b), R67, assumption log 11). -/
def State.laneAllocated (s : State) (c : Lane) : Bool := s.allocated (mainRing c) && s.tapsAllocated c

/-! ## Value tests (R258) -/

/-- Finite and greater than 0.0, for `tau` and `Q`. -/
def positiveFinite (v : F32) : Bool := v.isFinite && F32.gt v Config.f0

/-- A rate `LFO_STEP` accepts: finite, 0.0 to 262144.0. -/
def rateOk (v : F32) : Bool := v.isFinite && F32.ge v Config.f0 && F32.ge Config.fRateMax v

/-! ## Phase registers -/

/-- The phase register of an LFO (R36). -/
def State.phase (s : State) : LfoId → F32
  | .chorusLeft => (s.ch[0]).cph
  | .chorusRight => (s.ch[1]).cph
  | .reverb => s.rph

/-- The register of a stage that `BQ_RD` names (R199). -/
def Biquad.field (g : Biquad) : BqField → F32
  | .b0 => g.b0
  | .b1 => g.b1
  | .b2 => g.b2
  | .a1 => g.a1
  | .a2 => g.a2
  | .x1 => g.x1
  | .x2 => g.x2
  | .y1 => g.y1
  | .y2 => g.y2

end Sys2Proof.Machine
end

