-- ==== Sys2Proof/Machine/Ops.lean ====
section
/-! DEFINITION. The shared operations: ring memory (R52, R53) in one canonical form, the register writers, the response
(R71), the refusal of a command (R252) which is all this hardware has of an exception, the freeing of the rings
(R103, R106), the acceptance of a command and the hardware reset (R280). There is no return from a refusal to model:
the next command is simply decoded (R259). -/

namespace Sys2Proof.Machine

/-- What a meaning answers. -/
abbrev Out := Host.Outcome State Fault Refusal

/-! ## Ring memory: (index, word) pairs, indices strictly rising, no word 0 listed (assumption log 1 and 2) -/

/-- What an unlisted word reads as: the zero fill of creation (R141). -/
def unlisted : W32 := 0

/-- The word at index `i`. -/
def memRead : List Cell → Nat → W32
  | [], _ => unlisted
  | (j, v) :: rest, i => if i = j then v else memRead rest i

/-- Stores a word that is not the unlisted one. -/
def memInsert : List Cell → Nat → W32 → List Cell
  | [], i, v => [(i, v)]
  | (j, w) :: rest, i, v =>
    if i < j then (i, v) :: (j, w) :: rest
    else if i = j then (i, v) :: rest
    else (j, w) :: memInsert rest i v

/-- Makes a word read as the unlisted one. -/
def memErase : List Cell → Nat → List Cell
  | [], _ => []
  | (j, w) :: rest, i => if i = j then rest else (j, w) :: memErase rest i

/-- `MemWrite` on the cells of one ring (R53). -/
def memWrite (m : List Cell) (i : Nat) (v : W32) : List Cell :=
  if v = unlisted then memErase m i else memInsert m i v

/-- The canonical form from index `lo` on: indices strictly rising, no unlisted word listed. -/
def memWfFrom : Nat → List Cell → Bool
  | _, [] => true
  | lo, (j, v) :: rest => decide (lo ≤ j) && v != unlisted && memWfFrom (j + 1) rest

/-- The canonical form of a ring memory. -/
def memWf (m : List Cell) : Bool := memWfFrom 0 m

/-- Every listed index is below `n`. -/
def memBelow (m : List Cell) (n : Nat) : Bool := m.all fun cell => decide (cell.1 < n)

/-! ## Register writers -/

def State.setRing (s : State) (r : RingId) (g : Ring) : State := { s with rb := s.rb.set r.val g r.isLt }

def State.setDl (s : State) (r : RingId) (v : F32) : State := { s with dl := s.dl.set r.val v r.isLt }

def State.setBq (s : State) (b : StageId) (g : Biquad) : State := { s with bq := s.bq.set b.val g b.isLt }

def State.setCh (s : State) (c : Lane) (l : Chan) : State := { s with ch := s.ch.set c.val l c.isLt }

def State.setArg (s : State) (k : ArgId) (v : W32) : State := { s with a := s.a.set k.val v k.isLt }

def State.setParam (s : State) (p : ParamId) (v : W32) : State := { s with param := s.param.set p.val v p.isLt }

/-- Writes one ramp of a lane. -/
def State.setRamp (s : State) (c : Lane) (q : RampId) (x : Ramp) : State :=
  s.setCh c { s.ch[c] with ramp := (s.ch[c]).ramp.set q.val x q.isLt }

/-- Writes the phase register of an LFO (R36). -/
def State.setPhase (s : State) : LfoId → F32 → State
  | .chorusLeft, v => s.setCh 0 { s.ch[0] with cph := v }
  | .chorusRight, v => s.setCh 1 { s.ch[1] with cph := v }
  | .reverb, v => { s with rph := v }

/-! ## Responses and refusals -/

/-- The one response of the command in execution, on its port (R71). -/
def State.respond (s : State) (c : RspCode) (d : W32) : State := { s with log := ⟨s.port, c, d⟩ :: s.log }

/-- `return d` (R15): code `OK`, data `d`. -/
def answer (s : State) (d : W32) : Out := .next (s.respond .ok d)

/-- The state a refused command leaves (R252): the sticky bit set, the error code and data 0 answered. -/
def State.refuse (s : State) (e : ErrCode) : State := { s with err := s.err.set e }.respond (.err e) 0

/-- `raise E_x` (R252). -/
def raise (e : ErrCode) (s : State) : Out := .next (s.refuse e)

/-- A ring freed: no capacity, write index 0, its words lost (R67, R106; assumption log 2). -/
def Ring.free (g : Ring) : Ring := { g with cap := 0, widx := 0, mem := [] }

/-- The unprepared state of `RELEASE` and of a refused `PREPARE` (R103, R106). -/
def State.unprepare (s : State) : State :=
  { s with life := .unprep, rb := Vector.ofFn fun r => (s.rb[r]).free }

/-! ## Events -/

/-- A command is accepted on a port: the position in the host's list advances by one (R22, R72). -/
def State.accept (s : State) (p : Port) (rest : List Event) : State :=
  { s with input := rest, port := p, pos := s.pos + 1 }

/-- Hardware reset (R280): every piece of the hardware's state takes its reset value; the calibration, the events still
to come and the record of the run are the outside world's (assumption log 9). -/
def State.hardReset (s : State) (rest : List Event) : State :=
  { State.reset with cal := s.cal, input := rest, pos := s.pos, log := s.log }

end Sys2Proof.Machine
end

