-- ==== Sys2Proof/Machine/Transcendental.lean ====
section
/-! DEFINITION. `fsin`, `fexp` and `ftan` of R8, correctly rounded: the exact result is enclosed between two integers in
units of 2^-384 and both ends are rounded; where they round to one F32 that is the result, else a free value between
the two. Arguments for which the spec states no result give a free value. -/

namespace Sys2Proof.F32

/-- The working unit is 2^-384. -/
def wp : Nat := 384

/-- Half of pi in working units, rounded down. -/
def halfPi : Nat :=
  0x1921fb54442d18469898cc51701b839a252049c1114cf98e804177d4c76273644a29410f31c6809bbdf2a33679a748636

/-- A bound, in working units, on the error of every value below (assumption log 4). -/
def slack : Nat := 2 ^ 140

/-- Adds `fuel` further terms to `acc`: the last term is `t`, the next is `t * x / ((j + 1) * 2^384)` and so on. -/
def expSum (x : Nat) : Nat → Nat → Nat → Nat → Nat
  | 0, _, _, acc => acc
  | fuel + 1, j, t, acc =>
    let t' := t * x / ((j + 1) * 2 ^ wp)
    expSum x fuel (j + 1) t' (acc + t')

/-- The square of a value in working units, repeated. -/
def squareUp : Nat → Nat → Nat
  | 0, a => a
  | n + 1, a => squareUp n (a * a / 2 ^ wp)

/-- `exp` of `u` units of 2^-149, in working units: the series at `u / 256`, then eight squarings. -/
def expPos (u : Nat) : Nat :=
  squareUp 8 (expSum (u * 2 ^ (wp - 149 - 8)) 80 0 (2 ^ wp) (2 ^ wp))

/-- The alternating series: `t` is the term of index `j`; adds the terms of index `j + 2`, `j + 4`, ... with the
sign `neg` for the first of them. -/
def altSum (x2 : Nat) : Nat → Nat → Nat → Bool → Nat → Nat
  | 0, _, _, _, acc => acc
  | fuel + 1, j, t, neg, acc =>
    let t' := t * x2 / ((j + 1) * (j + 2) * 2 ^ wp)
    altSum x2 fuel (j + 2) t' (!neg) (if neg then acc - t' else acc + t')

/-- `sin` and `cos` of `r` working units, `0 ≤ r ≤ 1`. -/
def sinCosSmall (r : Nat) : Nat × Nat :=
  let x2 := r * r / 2 ^ wp
  (altSum x2 40 1 r true r, altSum x2 40 0 (2 ^ wp) true (2 ^ wp))

/-- `sin` and `cos` of `u` units of 2^-149 as signed working units: the argument is reduced by the nearest multiple
of half pi. -/
def sinCos (u : Nat) : Int × Int :=
  let x := u * 2 ^ (wp - 149)
  let k := (2 * x + halfPi) / (2 * halfPi)
  let r : Int := (x : Int) - (k * halfPi : Nat)
  let sc := sinCosSmall r.natAbs
  let s : Int := if r < 0 then -(sc.1 : Int) else (sc.1 : Int)
  let c : Int := sc.2
  match k % 4 with
  | 0 => (s, c)
  | 1 => (c, -s)
  | 2 => (-s, -c)
  | _ => (-c, s)

/-- The result with sign `s` where the two ends of the enclosure round to the magnitudes `lo` and `hi`: that magnitude
where they agree, else a free one between the two (assumption log 4). -/
def settle (f : Config.Fn) (v : F32) (s : Bool) (lo hi : Nat) : F32 :=
  pack s (if lo = hi then lo else min hi (max lo (Config.freeFn f v).mag))

/-- One unit of 2^-149 in working units. -/
def unitScale : Nat := 2 ^ (wp - 149)

/-- `fexp` (R8): 1 at both zeros, +0.0 at minus infinity (R172), a NaN at a NaN, a free value at plus infinity. Beyond
128 in magnitude the result is past the range of F32. -/
def exp (v : F32) : F32 :=
  if v.isNaN then nan .exp v v
  else if v.isInf then (if v.sign then pack false 0 else Config.freeFn .exp v)
  else if v.isZero then Config.f1
  else if 2 ^ 156 ≤ v.units then (if v.sign then pack false 0 else pack false infMag)
  else
    let e := expPos v.units
    let err := e / 2 ^ 230 + slack
    if v.sign then
      settle .exp v false (roundMag (2 ^ wp * 2 ^ 149) (e + err)) (roundMag (2 ^ wp * 2 ^ 149) (e - err))
    else
      settle .exp v false (roundMag (e - err) unitScale) (roundMag (e + err) unitScale)

/-- `fsin` (R8): +0.0 at +0.0, a NaN at a NaN, a free value at an infinity and at -0.0. -/
def sin (v : F32) : F32 :=
  if v.isNaN then nan .sin v v
  else if v.isInf then Config.freeFn .sin v
  else if v.isZero then (if v.sign then pack ((Config.freeFn .sin v).sign) 0 else pack false 0)
  else
    let s := (sinCos v.units).1
    settle .sin v (v.sign != decide (s < 0))
      (roundMag (s.natAbs - slack) unitScale) (roundMag (s.natAbs + slack) unitScale)

/-- `ftan` (R8): +0.0 at +0.0, a NaN at a NaN, a free value at an infinity and at -0.0. -/
def tan (v : F32) : F32 :=
  if v.isNaN then nan .tan v v
  else if v.isInf then Config.freeFn .tan v
  else if v.isZero then (if v.sign then pack ((Config.freeFn .tan v).sign) 0 else pack false 0)
  else
    let sc := sinCos v.units
    let s := sc.1.natAbs
    let c := sc.2.natAbs
    settle .tan v (v.sign != (decide (sc.1 < 0) != decide (sc.2 < 0)))
      (roundMag ((s - slack) * 2 ^ 149) (c + slack))
      (if c ≤ slack then infMag else roundMag ((s + slack) * 2 ^ 149) (c - slack))

end Sys2Proof.F32
end

