-- ==== Sys2Proof/Machine/Lfo.lean ====
section
/-! DEFINITION. The LFO modulator: unit functions and commands of `44_lfo.md`. -/

namespace Sys2Proof.Machine

/-! ## Unit functions -/

/-- `lfo_inc(rate)` at the sample rate `fs` (R210). -/
def lfoInc (fs : W32) (rate : F32) : F32 := F32.div (F32.mul Config.fTwoPi rate) (F32.ofNat fs.toNat)

/-- The phase after `lfo_step` by `n` sample periods (R213). -/
def lfoNext (fs : W32) (ph rate : F32) (n : Nat) : F32 :=
  F32.wrap (F32.add ph (F32.mul (F32.ofNat n) (lfoInc fs rate)))

/-- The result of `lfo_step`, taken before the step (R213). -/
def lfoOut (ph depth : F32) : F32 := F32.mul depth (F32.sin ph)

/-! ## Commands -/

/-- `LFO_STEP` (R212). -/
def execLfoStep (id : LfoId) (n : BitVec 16) (s : State) : Out :=
  if s.prepared then
    if rateOk s.a[0] && F32.isFinite s.a[1] then
      answer (s.setPhase id (lfoNext s.fs (s.phase id) s.a[0] n.toNat)) (lfoOut (s.phase id) s.a[1])
    else raise .range s
  else raise .state s

/-- `LFO_RD` (R214). -/
def execLfoRd (id : LfoId) (s : State) : Out := answer s (s.phase id)

end Sys2Proof.Machine
end

