-- ==== Sys2Proof/Machine/Mixer.lean ====
section
/-! DEFINITION. The sample mixer: unit functions and commands of `45_mixer.md`. -/

namespace Sys2Proof.Machine

/-- `mix(dry, wet, m)` (R221). -/
def mix (dry wet m : F32) : F32 := F32.add (F32.mul (F32.sub Config.f1 m) dry) (F32.mul m wet)

/-- `mixadd(base, add, m)` (R223). -/
def mixadd (base add m : F32) : F32 := F32.add base (F32.mul m add)

/-- `MIX` (R220). -/
def execMix (s : State) : Out := answer s (mix s.a[0] s.a[1] s.a[2])

/-- `MIXADD` (R222). -/
def execMixadd (s : State) : Out := answer s (mixadd s.a[0] s.a[1] s.a[2])

end Sys2Proof.Machine
end

