-- ==== Sys2Proof/Machine/Biquad.lean ====
section
/-! DEFINITION. The IIR biquad filter and the all-pass stage: unit functions and commands of `43_biquad.md`. -/

namespace Sys2Proof.Machine

/-! ## Unit functions -/

/-- The five coefficients of a stage (R190). -/
structure Coeffs where
  b0 : F32
  b1 : F32
  b2 : F32
  a1 : F32
  a2 : F32
deriving DecidableEq, Repr

/-- The cutoff clamp (R191). -/
def cutoff (fs : W32) (f : F32) : F32 := F32.clamp f Config.f20 (F32.mul Config.f045 (F32.ofNat fs.toNat))

/-- `n` of R192, the reciprocal of the pre-warped corner. -/
def bqWarp (fs : W32) (f : F32) : F32 :=
  F32.div Config.f1 (F32.tan (F32.div (F32.mul Config.fPi (cutoff fs f)) (F32.ofNat fs.toNat)))

/-- The coefficients of a type from `n`, `n2 = n * n` and `nq = n / Q` (R192). -/
def bqFrom (ty : BqType) (n2 nq : F32) : Coeffs :=
  let c1 := F32.div Config.f1 (F32.add (F32.add Config.f1 nq) n2)
  let a1 := F32.mul (F32.mul c1 Config.f2) (F32.sub Config.f1 n2)
  let a2 := F32.mul c1 (F32.add (F32.sub Config.f1 nq) n2)
  match ty with
  | .lp => { b0 := c1, b1 := F32.mul c1 Config.f2, b2 := c1, a1 := a1, a2 := a2 }
  | .hp =>
    let b0 := F32.mul c1 n2
    { b0 := b0, b1 := F32.neg (F32.mul b0 Config.f2), b2 := b0, a1 := a1, a2 := a2 }
  | .ap => { b0 := a2, b1 := a1, b2 := Config.f1, a1 := a1, a2 := a2 }

/-- The coefficients `bq_coef` computes, before its finiteness test (R192). -/
def bqDesign (fs : W32) (ty : BqType) (f q : F32) : Coeffs :=
  let n := bqWarp fs f
  bqFrom ty (F32.mul n n) (F32.div n q)

/-- All five are finite (R192, R195). -/
def Coeffs.finite (k : Coeffs) : Bool :=
  F32.isFinite k.b0 && F32.isFinite k.b1 && F32.isFinite k.b2 && F32.isFinite k.a1 && F32.isFinite k.a2

/-- A stage with new coefficients and its old history (R192). -/
def Biquad.load (g : Biquad) (k : Coeffs) : Biquad :=
  { g with b0 := k.b0, b1 := k.b1, b2 := k.b2, a1 := k.a1, a2 := k.a2 }

/-- The stage after `bq_coef`: loaded when the five values are finite, else as it was (R192, R195). -/
def Biquad.tryLoad (g : Biquad) (k : Coeffs) : Biquad := if k.finite then g.load k else g

/-- `bq_coef(b, type, f, Q)` (R192). -/
def State.bqCoef (s : State) (b : StageId) (ty : BqType) (f q : F32) : State :=
  s.setBq b ((s.bq[b]).tryLoad (bqDesign s.fs ty f q))

/-- The output of `bq_step` (R197). -/
def Biquad.out (g : Biquad) (x : F32) : F32 :=
  F32.sub (F32.sub (F32.add (F32.add (F32.mul g.b0 x) (F32.mul g.b1 g.x1)) (F32.mul g.b2 g.x2))
    (F32.mul g.a1 g.y1)) (F32.mul g.a2 g.y2)

/-- The stage after `bq_step` (R197). -/
def Biquad.push (g : Biquad) (x : F32) : Biquad :=
  { g with x2 := g.x1, x1 := x, y2 := g.y1, y1 := g.out x }

/-- `bq_step(b, x)` (R197): the state after it and its result. -/
def State.bqStep (s : State) (b : StageId) (x : F32) : State × F32 :=
  (s.setBq b ((s.bq[b]).push x), (s.bq[b]).out x)

/-- A stage with its history cleared (R198). -/
def Biquad.clear (g : Biquad) : Biquad := { g with x1 := 0, x2 := 0, y1 := 0, y2 := 0 }

/-! ## Commands -/

/-- `BQ_COEF` (R194). -/
def execBqCoef (b : StageId) (ty : BqType) (s : State) : Out :=
  if s.prepared then
    if positiveFinite s.a[1] then
      answer (s.bqCoef b ty s.a[0] s.a[1]) (flag (bqDesign s.fs ty s.a[0] s.a[1]).finite)
    else raise .range s
  else raise .state s

/-- `BQ_STEP` (R196). -/
def execBqStep (b : StageId) (x : F32) (s : State) : Out :=
  if F32.isFinite x then answer (s.bqStep b x).1 (s.bqStep b x).2 else raise .range s

/-- `BQ_RESET` (R198). -/
def execBqReset (b : StageId) (s : State) : Out := answer (s.setBq b (s.bq[b]).clear) 0

/-- `BQ_RD` (R199). -/
def execBqRd (b : StageId) (field : BqField) (s : State) : Out := answer s ((s.bq[b]).field field)

end Sys2Proof.Machine
end

