-- ==== Sys2Proof/Machine/RingBuffer.lean ====
section
/-! DEFINITION. The circular delay buffer, the fractional-delay interpolator and the delay line: unit functions and
commands of `41_ring_buffer.md`. -/

namespace Sys2Proof.Machine

/-! ## Unit functions -/

/-- `rb_create(r, L)` (R141): the zero-filled ring lists no word. `interp` keeps its value (R140). -/
def Ring.create (g : Ring) (len : Nat) : Ring :=
  { g with cap := BitVec.ofNat 32 (nextPow2 len), widx := 0, mem := [] }

/-- The index `rb_read` reads for a delay of `k` samples (R145). -/
def Ring.readIndex (g : Ring) (k : Int) : Nat :=
  (((g.widx.toNat : Int) - 1 - k) % (g.cap.toNat : Int)).toNat

/-- `rb_read(r, k)` (R145). -/
def Ring.read (g : Ring) (k : Int) : W32 := memRead g.mem (g.readIndex k)

/-- `rb_write(r, v)` (R143). -/
def Ring.write (g : Ring) (v : W32) : Ring :=
  { g with mem := memWrite g.mem g.widx.toNat v, widx := (g.widx + 1) &&& (g.cap - 1) }

/-- `rb_readf(r, d)` for a finite `d` (R147). -/
def Ring.readf (g : Ring) (d : F32) : F32 :=
  let fl := F32.floor d
  let y1 := g.read fl
  if g.interp then
    let y2 := g.read (fl + 1)
    let frac := F32.sub d (F32.floorF d)
    if F32.lt frac Config.f1 then F32.add (F32.mul frac y2) (F32.mul (F32.sub Config.f1 frac) y1) else y2
  else y1

/-- A delay time in milliseconds as a delay in samples (R155). -/
def delaySamples (fs : W32) (ms : F32) : F32 := F32.div (F32.mul ms (F32.ofNat fs.toNat)) Config.f1000

/-- The read of `dl_read` at the delay time `ms` (R155). -/
def Ring.readMs (g : Ring) (fs : W32) (ms : F32) : F32 :=
  if F32.isFinite (delaySamples fs ms) then g.readf (delaySamples fs ms) else Config.f0

/-- `dl_read(r)` (R155). -/
def State.dlRead (s : State) (r : RingId) : F32 := (s.rb[r]).readMs s.fs s.dl[r]

/-- The word `dl_write` stores (R157). -/
def dlWord (x g t : F32) : W32 := F32.add x (F32.mul g t)

/-- `rb_write` on ring `r` (R143). -/
def State.rbWrite (s : State) (r : RingId) (v : W32) : State := s.setRing r ((s.rb[r]).write v)

/-- `dl_write(r, x, g, t)` (R157). -/
def State.dlWrite (s : State) (r : RingId) (x g t : F32) : State := s.rbWrite r (dlWord x g t)

/-! ## Commands -/

/-- `RB_CREATE` (R140). -/
def execRbCreate (r : RingId) (len : W32) (s : State) : Out :=
  if s.prepared then raise .state s
  else if 1 ≤ len.toNat ∧ len.toNat ≤ Config.capMax then
    let g := (s.rb[r]).create len.toNat
    answer (s.setRing r g) g.cap
  else raise .range s

/-- `RB_WRITE` (R142). -/
def execRbWrite (r : RingId) (v : W32) (s : State) : Out :=
  if s.allocated r then answer (s.rbWrite r v) 0 else raise .state s

/-- `RB_READI` (R144). -/
def execRbReadi (r : RingId) (d : W32) (s : State) : Out :=
  if s.allocated r then answer s ((s.rb[r]).read d.toNat) else raise .state s

/-- `RB_READF` (R146). -/
def execRbReadf (r : RingId) (d : F32) (s : State) : Out :=
  if s.allocated r then
    if F32.isFinite d then answer s ((s.rb[r]).readf d) else raise .range s
  else raise .state s

/-- `RB_INTERP` (R150). -/
def execRbInterp (r : RingId) (on : Bool) (s : State) : Out :=
  answer (s.setRing r { s.rb[r] with interp := on }) 0

/-- `DL_SETTIME` (R152). -/
def execDlSettime (r : RingId) (ms : F32) (s : State) : Out :=
  if F32.isFinite ms then answer (s.setDl r ms) 0 else raise .range s

/-- `DL_READ` (R154). -/
def execDlRead (r : RingId) (s : State) : Out :=
  if s.prepared && s.allocated r then answer s (s.dlRead r) else raise .state s

/-- `DL_WRITE` (R156). -/
def execDlWrite (r : RingId) (s : State) : Out :=
  if s.allocated r then answer (s.dlWrite r s.a[0] s.a[1] s.a[2]) (dlWord s.a[0] s.a[1] s.a[2])
  else raise .state s

end Sys2Proof.Machine
end

