-- ==== Sys2Proof/Machine/Smoother.lean ====
section
/-! DEFINITION. The one-pole smoother and the linear ramp: unit functions and commands of `42_smoother.md`. -/

namespace Sys2Proof.Machine

/-! ## Unit functions -/

/-- `onepole(cur, nxt, k)` (R171). -/
def onepole (cur nxt k : F32) : F32 := F32.add cur (F32.mul (F32.sub nxt cur) k)

/-- `sm_coeff(tau)` at the sample rate `fs` (R172). -/
def smCoeff (fs : W32) (tau : F32) : F32 :=
  F32.sub Config.f1 (F32.exp (F32.neg (F32.div Config.f1 (F32.mul tau (F32.ofNat fs.toNat)))))

/-- `ramp_set(R, t)` with ramp length `nRamp` (R174). -/
def Ramp.setTarget (x : Ramp) (nRamp : W32) (t : F32) : Ramp :=
  if F32.fne t x.tgt then
    if nRamp = 0 then { cur := t, tgt := t, step := 0, cnt := 0 }
    else { x with tgt := t, cnt := nRamp, step := F32.div (F32.sub t x.cur) (F32.ofNat nRamp.toNat) }
  else x

/-- `ramp_snap(R, t)` (R175). -/
def Ramp.snapTo (t : F32) : Ramp := { cur := t, tgt := t, step := 0, cnt := 0 }

/-- `ramp_adv(R, n)` (R177). -/
def Ramp.advance (x : Ramp) (n : Nat) : Ramp :=
  if x.cnt = 0 ∨ n = 0 then x
  else if x.cnt.toNat ≤ n then { x with cur := x.tgt, cnt := 0 }
  else
    let v := F32.add x.cur (F32.mul x.step (F32.ofNat n))
    let past := (F32.gt x.step Config.f0 && F32.gt v x.tgt) || (F32.lt x.step Config.f0 && F32.lt v x.tgt)
    { x with cur := if past then x.tgt else v, cnt := BitVec.ofNat 32 (x.cnt.toNat - n) }

/-! ## Commands -/

/-- `SM_ONEPOLE` (R170). -/
def execSmOnepole (s : State) : Out := answer s (onepole s.a[0] s.a[1] s.a[2])

/-- `SM_COEFF` (R172). -/
def execSmCoeff (tau : F32) (s : State) : Out :=
  if s.prepared then
    if positiveFinite tau then answer s (smCoeff s.fs tau) else raise .range s
  else raise .state s

/-- `RAMP_SET` (R176). -/
def execRampSet (c : Lane) (q : RampId) (t : F32) (s : State) : Out :=
  if s.prepared then
    if F32.isFinite t then answer (s.setRamp c q (((s.ch[c]).ramp[q]).setTarget s.nRamp t)) 0
    else raise .range s
  else raise .state s

/-- `RAMP_ADV` (R178). -/
def execRampAdv (c : Lane) (q : RampId) (n : W32) (s : State) : Out :=
  if s.prepared then
    let x := ((s.ch[c]).ramp[q]).advance n.toNat
    answer (s.setRamp c q x) x.cur
  else raise .state s

/-- `RAMP_RD` (R180). -/
def execRampRd (c : Lane) (q : RampId) (s : State) : Out := answer s ((s.ch[c]).ramp[q]).cur

end Sys2Proof.Machine
end

