-- ==== Sys2Proof/Machine/Reverb.lean ====
section
/-! DEFINITION. The multi-tap reverb engine: unit functions and commands of `46_reverb.md`. -/

namespace Sys2Proof.Machine

/-- The delay target of a tap, `TAP_MS[c][i] + RMOD`, a negative one clamped to +0.0 (R233). -/
def State.tapTarget (s : State) (c : Lane) (i : TapId) : F32 :=
  let t := F32.add (s.cal.tapMs[c])[i] s.rmod
  if F32.lt t Config.f0 then Config.f0 else t

/-- The delay-time step of a tap (R233). -/
def State.tapGlide (s : State) (c : Lane) (i : TapId) : State :=
  s.setDl (tapRing c i) (onepole s.dl[tapRing c i] (s.tapTarget c i) s.cSml)

/-- The all-pass cascade and the low-pass of a tap on the sample `v` (R233). -/
def State.tapFilter (s : State) (c : Lane) (i : TapId) (v : F32) : State × F32 :=
  let sv := aps.foldl (fun sv k => sv.1.bqStep (apStage c i k) sv.2) (s, v)
  sv.1.bqStep (tlpStage c i) sv.2

/-- `tap_step(c, i, u)` (R233): the state after it and its result. -/
def State.tapStep (s : State) (c : Lane) (i : TapId) (u : F32) : State × F32 :=
  let s1 := s.tapGlide c i
  let st := s1.tapFilter c i (s1.dlRead (tapRing c i))
  (st.1.dlWrite (tapRing c i) u (Config.decay i) st.2, st.2)

/-- `rv_sum(c, u)` (R235): the taps in order, the sum from +0.0. -/
def State.rvSum (s : State) (c : Lane) (u : F32) : State × F32 :=
  taps.foldl (fun sa i =>
    let st := sa.1.tapStep c i u
    (st.1, F32.add sa.2 (F32.mul (st.1.ch[c]).rlS st.2))) (s, Config.f0)

/-- `TAP_STEP` (R232). -/
def execTapStep (c : Lane) (i : TapId) (u : F32) (s : State) : Out :=
  if s.prepared && s.allocated (tapRing c i) then
    if F32.isFinite u then
      let st := s.tapStep c i u
      answer st.1 st.2
    else raise .range s
  else raise .state s

/-- `RV_STEP` (R236). -/
def execRvStep (c : Lane) (u : F32) (s : State) : Out :=
  if s.prepared && s.tapsAllocated c then
    if F32.isFinite u then
      let st := s.rvSum c u
      answer st.1 st.2
    else raise .range s
  else raise .state s

end Sys2Proof.Machine
end

