-- ==== Sys2Proof/Machine/Control.lean ====
section
/-! DEFINITION. The control commands of `40_control.md`: lifecycle, block, sample, parameters, status, argument
registers. -/

namespace Sys2Proof.Machine

/-! ## PREPARE -/

/-- What `PREPARE` accepts (R102, R257). -/
def prepareOk (maxBlk : BitVec 16) (fs : W32) : Bool :=
  decide (1 ≤ fs.toNat) && decide (fs.toNat ≤ Config.fsMax) && decide (1 ≤ maxBlk.toNat)

/-- The stages `PREPARE` builds once: they depend on the tap only by their place (R104). -/
structure FixedBank where
  glpf : Biquad
  ap : Vector Biquad 5
  tlp : Biquad
deriving DecidableEq, Repr

/-- The identity stage after `bq_coef` (R104: a load that fails leaves the identity). -/
def fixedStage (fs : W32) (ty : BqType) (f q : F32) : Biquad := Biquad.reset.tryLoad (bqDesign fs ty f q)

/-- The fixed filters at a sample rate (R104). -/
def fixedBank (fs : W32) (cal : Calibration) : FixedBank :=
  { glpf := fixedStage fs .lp Config.glpfHz Config.qButter
    ap := Vector.ofFn fun k => fixedStage fs .ap (Config.apHz k) cal.apQ[k]
    tlp := fixedStage fs .lp Config.tlpHz Config.qButter }

/-- The place of a stage in its lane decides its filter (R33, R104): 0 and 1 the identity, 2 the general low-pass, then
six by six the five all-passes and the low-pass of a tap. -/
def FixedBank.stage (k : FixedBank) (b : StageId) : Biquad :=
  let j := b.val % 63
  if j < 2 then Biquad.reset
  else if j = 2 then k.glpf
  else if h : (j - 3) % 6 < 5 then k.ap[(j - 3) % 6]
  else k.tlp

/-- `prepare_init` (R104), with `LIFE <- PREP` of R102. -/
def State.prepareInit (s : State) (maxBlk : BitVec 16) (fs : W32) : State :=
  let bank := fixedBank fs s.cal.toCalibration
  { s with
    life := .prep
    fs := fs
    maxBlk := maxBlk
    lastN := 0
    nRamp := BitVec.ofNat 32 (fs.toNat * Config.rampMs / 1000)
    cGen := smCoeff fs Config.tauGen
    cSml := smCoeff fs Config.tauSml
    cLrg := smCoeff fs Config.tauLrg
    rb := Vector.ofFn fun r => { (s.rb[r]).create (2 * fs.toNat) with interp := true }
    dl := Vector.replicate 22 Config.f0
    bq := Vector.ofFn fun b => bank.stage b
    ch := Vector.replicate 2 Chan.reset
    rph := Config.f0
    rmod := Config.f0
    snap := Vector.replicate 13 0 }

/-! ## BLOCK -/

/-- `snapshot()` (R112): every parameter clamped to its range. -/
def snapshotOf (p : Vector W32 13) : Vector W32 13 :=
  #v[clampDelay p[0] Config.delayMaxMs, clampDelay p[1] Config.delayMaxMs,
     F32.clamp p[2] Config.f0 Config.f1, F32.clamp p[3] Config.f0 Config.f1,
     p[4] &&& 1#32, p[5] &&& 1#32,
     F32.clamp p[6] Config.fTenth Config.f3,
     p[7] &&& 1#32, F32.clamp p[8] Config.f20 Config.f7000,
     p[9] &&& 1#32, F32.clamp p[10] Config.f20 Config.f1000,
     p[11] &&& 1#32, F32.clamp p[12] Config.f0 Config.f1]

/-- The modulation latch and the reverb LFO advance (R109). -/
def State.reverbLfo (s : State) (n : BitVec 16) : State :=
  { s with
    rmod := lfoOut s.rph Config.rvLfoDepthMs
    rph := lfoNext s.fs s.rph Config.rvLfoHz n.toNat }

/-- The delay parameter of a lane (R110). -/
def State.laneDelay (s : State) (c : Lane) : W32 := if c = 1 ∧ s.snap[4] = 1 then s.snap[1] else s.snap[0]

/-- A toggle as a weight (R110). -/
def gate (w : W32) : F32 := if w = 1 then Config.f1 else Config.f0

/-- The ramp targets `tg[0..9]` of R110, from the snapshot and the lane's delay parameter. -/
def rampTargets (snap : Vector W32 13) (dparam : W32) : Vector F32 10 :=
  #v[F32.ofNat dparam.toNat, snap[2], if dparam = 0 then Config.f0 else snap[3], snap[12],
     gate snap[7], gate snap[9], gate snap[5], gate snap[11], snap[8], snap[10]]

/-- A ramp at a block: snapped on the first block after `PREPARE`, else retargeted and advanced (R110). -/
def Ramp.atBlock (x : Ramp) (first : Bool) (nRamp : W32) (t : F32) (n : Nat) : Ramp :=
  if first then Ramp.snapTo t else (x.setTarget nRamp t).advance n

/-- The delay parameter, the zero flag and the ramps of a lane at a block (R110). -/
def State.blockRamps (s : State) (c : Lane) (n : BitVec 16) (first : Bool) : State :=
  let l := s.ch[c]
  let d := s.laneDelay c
  let tg := rampTargets s.snap d
  s.setCh c { l with
    dparam := d
    zero := d == 0
    ramp := Vector.ofFn fun q => (l.ramp[q]).atBlock first s.nRamp tg[q] n.toNat }

/-- The delay time of a primed tap (R113). -/
def State.tapPrime (s : State) (c : Lane) (i : TapId) : F32 :=
  let t := F32.add (s.cal.tapMs[c])[i] s.rmod
  if F32.ge t Config.f0 then t else Config.f0

/-- `prime_lane(c)` (R113). -/
def State.primeLane (s : State) (c : Lane) : State :=
  let l := s.ch[c]
  let s1 := s.setDl (mainRing c) (l.ramp[0]).cur
  let s2 := s1.setCh c { l with
    fbS := (l.ramp[1]).cur, dwS := (l.ramp[2]).cur, rlS := (l.ramp[3]).cur,
    lpmS := (l.ramp[4]).cur, hpmS := (l.ramp[5]).cur, chmS := (l.ramp[6]).cur, rvmS := (l.ramp[7]).cur }
  taps.foldl (fun t i => t.setDl (tapRing c i) (t.tapPrime c i)) s2

/-- The user low-pass part of `coef_update` (R111). -/
def State.lpfUpdate (s : State) (c : Lane) (first : Bool) : State :=
  let f := ((s.ch[c]).ramp[8]).cur
  if first || F32.fne f (s.ch[c]).lpfApp then
    let s1 := s.bqCoef (lpfStage c) .lp f Config.qButter
    s1.setCh c { s1.ch[c] with lpfApp := f }
  else s

/-- The user high-pass part of `coef_update` (R111). -/
def State.hpfUpdate (s : State) (c : Lane) (first : Bool) : State :=
  let f := ((s.ch[c]).ramp[9]).cur
  if first || F32.fne f (s.ch[c]).hpfApp then
    let s1 := s.bqCoef (hpfStage c) .hp f Config.qButter
    s1.setCh c { s1.ch[c] with hpfApp := f }
  else s

/-- Clears the peak meters of a lane (R37, R110). -/
def State.clearPeaks (s : State) (c : Lane) : State := s.setCh c { s.ch[c] with pkIn := 0, pkOut := 0 }

/-- `block_lane(c, n, first)` (R110). -/
def State.blockLane (s : State) (c : Lane) (n : BitVec 16) (first : Bool) : State :=
  let s1 := s.blockRamps c n first
  let s2 := if first then s1.primeLane c else s1
  ((s2.lpfUpdate c first).hpfUpdate c first).clearPeaks c

/-- The state `BLOCK n` leaves, before its response (R108). -/
def State.blockAll (s : State) (n : BitVec 16) : State :=
  let first := s.life == .prep
  let s1 := { s with snap := snapshotOf s.param }.reverbLfo n
  let s2 := (s1.blockLane 0 n first).blockLane 1 n first
  { s2 with lastN := n, life := .run }

/-! ## SAMPLE -/

/-- A peak meter fed the value `v` (R116, R120). -/
def peak (m v : F32) : F32 :=
  let a := F32.abs v
  if F32.gt a m then (if F32.gt a Config.f1 then Config.f1 else a) else m

/-- `peak_in(c, x)` (R116). -/
def State.peakIn (s : State) (c : Lane) (x : F32) : State :=
  s.setCh c { s.ch[c] with pkIn := peak (s.ch[c]).pkIn x }

/-- The output peak of R120. -/
def State.peakOut (s : State) (c : Lane) (x : F32) : State :=
  s.setCh c { s.ch[c] with pkOut := peak (s.ch[c]).pkOut x }

/-- `smooth_lane(c)` (R115). -/
def State.smoothLane (s : State) (c : Lane) : State :=
  let l := s.ch[c]
  s.setCh c { l with
    fbS := onepole l.fbS (l.ramp[1]).cur s.cSml
    dwS := onepole l.dwS (l.ramp[2]).cur (if l.zero then s.cLrg else s.cGen)
    rlS := onepole l.rlS (l.ramp[3]).cur s.cSml
    lpmS := onepole l.lpmS (l.ramp[4]).cur s.cGen
    hpmS := onepole l.hpmS (l.ramp[5]).cur s.cGen
    chmS := onepole l.chmS (l.ramp[6]).cur s.cGen
    rvmS := onepole l.rvmS (l.ramp[7]).cur s.cGen }

/-- The delay-time target of a sample (R117): the ramped time, with the chorus term unless the lane's delay is exactly
zero, a negative one clamped to +0.0. -/
def delayTarget (l : Chan) (m : F32) : F32 :=
  let t := if l.zero then (l.ramp[0]).cur else F32.add (l.ramp[0]).cur (F32.mul l.chmS m)
  if F32.lt t Config.f0 then Config.f0 else t

/-- The chorus LFO step and the delay-time glide of `delay_read` (R117). -/
def State.delayGlide (s : State) (c : Lane) : State :=
  let l := s.ch[c]
  let m := lfoOut l.cph s.cal.chorusDepth
  let s1 := s.setCh c { l with cph := lfoNext s.fs l.cph s.snap[6] 1 }
  s1.setDl (mainRing c)
    (onepole s.dl[mainRing c] (delayTarget l m) (if l.zero then s.cLrg else s.cSml))

/-- `tone(c, w)` (R118): the state after it and its result. -/
def State.tone (s : State) (c : Lane) (w : F32) : State × F32 :=
  let l := s.bqStep (lpfStage c) w
  let w1 := mix w l.2 (s.ch[c]).lpmS
  let h := l.1.bqStep (hpfStage c) w1
  let w2 := mix w1 h.2 (s.ch[c]).hpmS
  h.1.bqStep (glpfStage c) w2

/-- `SAMPLE c, x` (R114): the state after it, before its response, and its result. -/
def State.sampleStep (s : State) (c : Lane) (x : F32) : State × F32 :=
  let s1 := ((s.peakIn c x).smoothLane c).delayGlide c
  let w := s1.dlRead (mainRing c)
  let t := s1.tone c w
  let s2 := t.1.dlWrite (mainRing c) x (t.1.ch[c]).fbS t.2
  let y := mix x t.2 (s2.ch[c]).dwS
  let r := s2.rvSum c y
  let out := mixadd y r.2 (r.1.ch[c]).rvmS
  (r.1.peakOut c out, out)

/-! ## Commands -/

/-- `NOP` (R100). -/
def execNop (s : State) : Out := answer s 0

/-- `PREPARE` (R102): a refused one leaves the hardware unprepared (R103). -/
def execPrepare (maxBlk : BitVec 16) (fs : W32) (s : State) : Out :=
  if prepareOk maxBlk fs then answer (s.prepareInit maxBlk fs) 0 else raise .config s.unprepare

/-- `RELEASE` (R106). -/
def execRelease (s : State) : Out := answer s.unprepare 0

/-- `BLOCK` (R108). -/
def execBlock (n : BitVec 16) (s : State) : Out :=
  if s.prepared then
    if n.toNat ≤ s.maxBlk.toNat then answer (s.blockAll n) 0 else raise .range s
  else raise .state s

/-- `SAMPLE` (R114). -/
def execSample (c : Lane) (x : F32) (s : State) : Out :=
  if s.life == .run && s.laneAllocated c then
    if F32.isFinite x then
      let st := s.sampleStep c x
      answer st.1 st.2
    else raise .range s
  else raise .state s

/-- `WRPARAM` (R122). -/
def execWrparam (p : ParamId) (v : W32) (s : State) : Out := answer (s.setParam p v) 0

/-- `RDPARAM` (R123). -/
def execRdparam (space : ParamSpace) (p : ParamId) (s : State) : Out :=
  match space with
  | .staging => answer s s.param[p]
  | .snapshot => answer s s.snap[p]

/-- `RDSTAT` (R126); an index outside the map is a selector out of range (R74). -/
def execRdstat (idx : BitVec 16) (s : State) : Out :=
  match s.statusItem idx with
  | some v => answer s v
  | none => raise .illegal s

/-- `LDARG` (R128). -/
def execLdarg (k : ArgId) (v : W32) (s : State) : Out := answer (s.setArg k v) 0

/-- `RDARG` (R130). -/
def execRdarg (k : ArgId) (s : State) : Out := answer s s.a[k]

end Sys2Proof.Machine
end

