-- ==== Sys2Proof/Machine/Dispatch.lean ====
section
/-! DEFINITION. The meaning of each command, one arm a constructor. -/

namespace Sys2Proof.Machine

def exec (i : Instr) (s : State) : Host.Outcome State Fault Refusal :=
  match i with
  | .nop => Sys2Proof.Machine.execNop s
  | .prepare maxBlk fs => Sys2Proof.Machine.execPrepare maxBlk fs s
  | .release => Sys2Proof.Machine.execRelease s
  | .block n => Sys2Proof.Machine.execBlock n s
  | .sample c x => Sys2Proof.Machine.execSample c x s
  | .wrparam p v => Sys2Proof.Machine.execWrparam p v s
  | .rdparam space p => Sys2Proof.Machine.execRdparam space p s
  | .rdstat idx => Sys2Proof.Machine.execRdstat idx s
  | .ldarg k v => Sys2Proof.Machine.execLdarg k v s
  | .rdarg k => Sys2Proof.Machine.execRdarg k s
  | .rbCreate r len => Sys2Proof.Machine.execRbCreate r len s
  | .rbWrite r v => Sys2Proof.Machine.execRbWrite r v s
  | .rbReadi r d => Sys2Proof.Machine.execRbReadi r d s
  | .rbReadf r d => Sys2Proof.Machine.execRbReadf r d s
  | .rbInterp r on => Sys2Proof.Machine.execRbInterp r on s
  | .dlSettime r ms => Sys2Proof.Machine.execDlSettime r ms s
  | .dlRead r => Sys2Proof.Machine.execDlRead r s
  | .dlWrite r => Sys2Proof.Machine.execDlWrite r s
  | .smOnepole => Sys2Proof.Machine.execSmOnepole s
  | .smCoeff tau => Sys2Proof.Machine.execSmCoeff tau s
  | .rampSet c q t => Sys2Proof.Machine.execRampSet c q t s
  | .rampAdv c q n => Sys2Proof.Machine.execRampAdv c q n s
  | .rampRd c q => Sys2Proof.Machine.execRampRd c q s
  | .bqCoef b ty => Sys2Proof.Machine.execBqCoef b ty s
  | .bqStep b x => Sys2Proof.Machine.execBqStep b x s
  | .bqReset b => Sys2Proof.Machine.execBqReset b s
  | .bqRd b field => Sys2Proof.Machine.execBqRd b field s
  | .lfoStep id n => Sys2Proof.Machine.execLfoStep id n s
  | .lfoRd id => Sys2Proof.Machine.execLfoRd id s
  | .mix => Sys2Proof.Machine.execMix s
  | .mixadd => Sys2Proof.Machine.execMixadd s
  | .tapStep c k u => Sys2Proof.Machine.execTapStep c k u s
  | .rvStep c u => Sys2Proof.Machine.execRvStep c u s

end Sys2Proof.Machine
end

