-- ==== Sys2Proof/Machine/Step.lean ====
section
/-! DEFINITION. One step: the next event of the outside world, carried out to its end (R16, R60, R61). -/

namespace Sys2Proof.Machine

/-- A command word accepted on a port, as that port's decoder reads it (R80). -/
def runWord (d : Except DecodeError Instr) (s : State) : Out :=
  match d with
  | .ok i => exec i s
  | .error _ => raise .illegal s

/-- One step. With no event pending the core waits, and nothing changes (R16, R281; assumption log 12). -/
def step (s : State) : Host.Outcome State Fault Refusal :=
  match s.input with
  | [] => .next s
  | .cmd w :: rest => runWord (decode w) (s.accept .cmd rest)
  | .par w :: rest => runWord (decodePar w) (s.accept .par rest)
  | .reset :: rest => .next (s.hardReset rest)

/-- `s` with the command word of an opcode-table row offered next on the CMD port. -/
def State.withFetchWord (s : State) (nbits w : Nat) : State :=
  { s with input := .cmd (BitVec.ofNat 64 (w % 2 ^ nbits)) :: s.input }

end Sys2Proof.Machine
end

