-- ==== Sys2Proof/Safety.lean ====
section
/-! DEFINITION. The terms the claims use: the invariants of R39, the checks of R256 and R258 as predicates, what one
word of ring memory reads as, which part of the state belongs to a lane (R114), the real value of an F32 and rounding to
nearest, ties to even (R7). -/

namespace Sys2Proof

/-! ## F32 values (R7) -/

/-- The exact value of a finite F32. -/
def F32.val (v : F32) : ℚ := (v.sunits : ℚ) / 2 ^ 149

/-- From this magnitude on a result rounds to an infinity: halfway past the largest finite F32. -/
def F32.overflow : ℚ := 2 ^ 128 - 2 ^ 103

/-- `r` is the exact result `x` rounded to nearest, ties to even (R7). -/
structure F32.RoundsTo (x : ℝ) (r : F32) : Prop where
  finite_iff : r.isFinite = true ↔ |x| < (F32.overflow : ℝ)
  infinite : r.isFinite = false → r.isInf = true ∧ (r.sign = true ↔ x < 0)
  nearest : r.isFinite = true → ∀ w : F32, w.isFinite = true → |(r.val : ℝ) - x| ≤ |(w.val : ℝ) - x|
  even : r.isFinite = true → ∀ w : F32, w.isFinite = true → w.val ≠ r.val →
    |(w.val : ℝ) - x| = |(r.val : ℝ) - x| → r.mag % 2 = 0

/-- The constraints of R6 on the OPEN calibration values. -/
structure Calibration.Ok (k : Calibration) : Prop where
  apQ : ∀ j : Fin 5, F32.isFinite k.apQ[j] = true ∧ F32.gt k.apQ[j] Config.f0 = true
  chorusDepth : F32.isFinite k.chorusDepth = true ∧ F32.ge k.chorusDepth Config.f0 = true
  tapMs : ∀ (c : Lane) (i : TapId), F32.isFinite (k.tapMs[c])[i] = true ∧ F32.gt (k.tapMs[c])[i] Config.f0 = true ∧
    F32.ge (F32.ofNat Config.delayMaxMs) (k.tapMs[c])[i] = true
  rowsDiffer : k.tapMs[(0 : Lane)] ≠ k.tapMs[(1 : Lane)]

namespace Machine

/-! ## Ring memory -/

/-- What word `i` of ring `r` reads as (R52). -/
def State.word (s : State) (r : RingId) (i : Nat) : W32 := memRead (s.rb[r]).mem i

/-- R39 (a) for one ring, and the canonical form of its memory: words below `cap` only. -/
structure Ring.Ok (g : Ring) : Prop where
  capPow2 : g.cap = 0 ∨ ∃ k : Fin 20, g.cap.toNat = 2 ^ k.val
  widxBelow : g.cap ≠ 0 → g.widx.toNat < g.cap.toNat
  canonical : memWf g.mem = true
  inside : memBelow g.mem g.cap.toNat = true

/-- R39 (a) for all rings. -/
def State.ringsOk (s : State) : Prop := ∀ r : RingId, (s.rb[r]).Ok

/-! ## The other invariants of R39 -/

/-- R39 (b). -/
def State.sizedOk (s : State) : Prop :=
  s.life ≠ .unprep →
    1 ≤ s.fs.toNat ∧ s.fs.toNat ≤ Config.fsMax ∧ 1 ≤ s.maxBlk.toNat ∧
      ∀ r : RingId, (s.rb[r]).cap.toNat = nextPow2 (2 * s.fs.toNat)

/-- A phase in `[0, TWO_PI)`, no NaN (R36, R39 (d)). -/
def phaseOk (v : F32) : Prop := F32.ge v Config.f0 = true ∧ F32.lt v Config.fTwoPi = true

/-- R39 (d). -/
def State.phasesOk (s : State) : Prop := ∀ id : LfoId, phaseOk (s.phase id)

/-- R39 (e). -/
def State.rampsOk (s : State) : Prop :=
  ∀ (c : Lane) (q : RampId), ((s.ch[c]).ramp[q]).cnt.toNat ≤ s.nRamp.toNat

/-- The value `v` lies in `[lo, hi]` and is no NaN. -/
def inRange (lo hi v : F32) : Prop := F32.ge v lo = true ∧ F32.ge hi v = true

/-- The ranges of R26 on a snapshot (R27). -/
structure SnapOk (p : Vector W32 13) : Prop where
  delayLeft : p[0].toNat ≤ Config.delayMaxMs
  delayRight : p[1].toNat ≤ Config.delayMaxMs
  feedback : inRange Config.f0 Config.f1 p[2]
  dryWet : inRange Config.f0 Config.f1 p[3]
  dual : p[4].toNat ≤ 1
  chorus : p[5].toNat ≤ 1
  chorusRate : inRange Config.fTenth Config.f3 p[6]
  lowPass : p[7].toNat ≤ 1
  lowPassHz : inRange Config.f20 Config.f7000 p[8]
  highPass : p[9].toNat ≤ 1
  highPassHz : inRange Config.f20 Config.f1000 p[10]
  reverb : p[11].toNat ≤ 1
  reverbLevel : inRange Config.f0 Config.f1 p[12]

/-- R39 (f). -/
def State.snapOk (s : State) : Prop := s.life = .run → SnapOk s.snap

/-- R39 (g). -/
def State.peaksOk (s : State) : Prop :=
  ∀ c : Lane, inRange Config.f0 Config.f1 (s.ch[c]).pkIn ∧ inRange Config.f0 Config.f1 (s.ch[c]).pkOut

/-- R39 (h). -/
def State.zeroOk (s : State) : Prop := ∀ c : Lane, (s.ch[c]).zero = true ↔ (s.ch[c]).dparam = 0

/-- The ramp length and the last block length as R25 gives them. -/
def State.lengthsOk (s : State) : Prop :=
  s.nRamp.toNat = s.fs.toNat * Config.rampMs / 1000 ∧ s.lastN.toNat ≤ s.maxBlk.toNat

/-! ## The checks of a command -/

/-- The lifecycle and allocation requirement of R256. -/
def stateAllows : Instr → State → Bool
  | .nop, _ | .prepare _ _, _ | .release, _ | .wrparam _ _, _ | .rdparam _ _, _ | .rdstat _, _ | .ldarg _ _, _
  | .rdarg _, _ | .smOnepole, _ | .mix, _ | .mixadd, _ | .rampRd _ _, _ | .lfoRd _, _ | .bqStep _ _, _
  | .bqReset _, _ | .bqRd _ _, _ | .rbInterp _ _, _ | .dlSettime _ _, _ => true
  | .rbCreate _ _, s => s.life == .unprep
  | .rbWrite r _, s | .rbReadi r _, s | .rbReadf r _, s | .dlWrite r, s => (s.rb[r]).cap != 0
  | .dlRead r, s => s.life != .unprep && (s.rb[r]).cap != 0
  | .block _, s | .smCoeff _, s | .rampSet _ _ _, s | .rampAdv _ _ _, s | .bqCoef _ _, s | .lfoStep _ _, s
  | .tapStep _ _ _, s | .rvStep _ _, s => s.life != .unprep
  | .sample _ _, s => s.life == .run

/-- Not refused by the complete list of R258. -/
def valueAllows : Instr → State → Bool
  | .block n, s => decide (n.toNat ≤ s.maxBlk.toNat)
  | .sample _ x, _ => F32.isFinite x
  | .rbCreate _ len, _ => decide (1 ≤ len.toNat) && decide (len.toNat ≤ 2 ^ 19)
  | .rbReadf _ d, _ => F32.isFinite d
  | .dlSettime _ ms, _ => F32.isFinite ms
  | .smCoeff tau, _ => F32.isFinite tau && F32.gt tau Config.f0
  | .rampSet _ _ t, _ => F32.isFinite t
  | .bqCoef _ _, s => F32.isFinite s.a[1] && F32.gt s.a[1] Config.f0
  | .bqStep _ x, _ => F32.isFinite x
  | .lfoStep _ _, s =>
    F32.isFinite s.a[0] && F32.ge s.a[0] Config.f0 && F32.ge Config.fRateMax s.a[0] && F32.isFinite s.a[1]
  | .tapStep _ _ u, _ => F32.isFinite u
  | .rvStep _ u, _ => F32.isFinite u
  | .nop, _ | .prepare _ _, _ | .release, _ | .wrparam _ _, _ | .rdparam _ _, _ | .rdstat _, _ | .ldarg _ _, _
  | .rdarg _, _ | .rbWrite _ _, _ | .rbReadi _ _, _ | .rbInterp _ _, _ | .dlRead _, _ | .dlWrite _, _
  | .smOnepole, _ | .rampAdv _ _ _, _ | .rampRd _ _, _ | .bqReset _, _ | .bqRd _ _, _ | .lfoRd _, _ | .mix, _
  | .mixadd, _ => true

/-- Not refused by `PREPARE`'s check (R257). -/
def configAllows : Instr → Bool
  | .prepare maxBlk fs => decide (1 ≤ fs.toNat) && decide (fs.toNat ≤ 262144) && decide (1 ≤ maxBlk.toNat)
  | .nop | .release | .block _ | .sample _ _ | .wrparam _ _ | .rdparam _ _ | .rdstat _ | .ldarg _ _ | .rdarg _
  | .rbCreate _ _ | .rbWrite _ _ | .rbReadi _ _ | .rbReadf _ _ | .rbInterp _ _ | .dlSettime _ _ | .dlRead _
  | .dlWrite _ | .smOnepole | .smCoeff _ | .rampSet _ _ _ | .rampAdv _ _ _ | .rampRd _ _ | .bqCoef _ _
  | .bqStep _ _ | .bqReset _ | .bqRd _ _ | .lfoStep _ _ | .lfoRd _ | .mix | .mixadd | .tapStep _ _ _
  | .rvStep _ _ => true

/-- The code of the response to a well-formed command: the first failing check in the order of R80 and R253. -/
def expectedCode (i : Instr) (s : State) : RspCode :=
  if !i.wellFormed then .err .illegal
  else if !stateAllows i s then .err .state
  else if !valueAllows i s then .err .range
  else if !configAllows i then .err .config
  else .ok

/-- Commands carried out one after another, where none stops. -/
def execAll : List Instr → State → Option State
  | [], s => some s
  | i :: rest, s =>
    match exec i s with
    | .next t => execAll rest t
    | .fault _ => none
    | .refused _ => none

/-! ## Lanes (R31, R33, R114) -/

/-- `t` differs from `s` in no register, ring or stage but those of lane `c`. -/
structure OnlyLane (c : Lane) (s t : State) : Prop where
  globals : t = { s with rb := t.rb, dl := t.dl, bq := t.bq, ch := t.ch }
  rings : ∀ r : RingId, r.val / 11 ≠ c.val → t.rb[r] = s.rb[r]
  lines : ∀ r : RingId, r.val / 11 ≠ c.val → t.dl[r] = s.dl[r]
  stages : ∀ b : StageId, b.val / 63 ≠ c.val → t.bq[b] = s.bq[b]
  chan : ∀ c' : Lane, c' ≠ c → t.ch[c'] = s.ch[c']

/-- The delay time of tap `i` of lane `c` after one `tap_step` (R233). -/
def State.tapTime (s : State) (c : Lane) (i : TapId) : F32 :=
  let t := F32.add (s.cal.tapMs[c])[i] s.rmod
  onepole s.dl[tapRing c i] (if F32.lt t Config.f0 then Config.f0 else t) s.cSml

/-- The signal entering all-pass stage `k` of a tap, the tap's low-pass for `k = 5`: the delayed sample through the
stages before it (R233). -/
def State.tapSignal (s : State) (c : Lane) (i : TapId) (k : Nat) : F32 :=
  (aps.take k).foldl (fun v j => (s.bq[apStage c i j]).out v)
    ((s.rb[tapRing c i]).readMs s.fs (s.tapTime c i))

/-- The output of a tap: its low-pass on the signal through the five all-pass stages (R233). It reads the tap's line
before the write, so the input sample has no part in it. -/
def State.tapOut (s : State) (c : Lane) (i : TapId) : F32 := (s.bq[tlpStage c i]).out (s.tapSignal c i 5)

end Machine

end Sys2Proof
end

