-- ==== Sys2Proof/Certificates/Slice0/Obligations.lean ====
section
/-! DEFINITION. The statements for the provers, from the numbered rules of the spec: encoding, the step, errors, who
writes what, every command's result and frame, and the properties the rules state. -/

open Sys2Proof Sys2Proof.Machine

/-! ## Encoding and decoding -/

/-- Every well-formed command, with every operand at every value, is read back from its word (R70, R73 to R75). -/
def Obligations.DecodeOfEncodeIsTheCommand : Prop :=
  ∀ i : Instr, i.wellFormed = true → decode (encode i) = .ok i

/-- A word the CMD port decodes is the encoding of the well-formed command it decodes to: no bit is ignored (R78). -/
def Obligations.DecodedWordIsItsEncoding : Prop :=
  ∀ (w : W64) (i : Instr), decode w = .ok i → i.wellFormed = true ∧ encode i = w

/-- R79: a decoded word satisfies `CW & mask = match` for its own row of the opcode table and for no other row; a word
that satisfies it for no row is illegal. -/
def Obligations.DecodedWordSelectsItsTableRow : Prop :=
  (∀ (w : W64) (i : Instr), decode w = .ok i →
    w &&& (rowOf i).1 = (rowOf i).2 ∧ ∀ j : Instr, w &&& (rowOf j).1 = (rowOf j).2 → rowOf j = rowOf i) ∧
  ∀ w : W64, (∀ j : Instr, w &&& (rowOf j).1 ≠ (rowOf j).2) → ∃ e, decode w = .error e

/-- The example lines of R85 and the words the rule prints beside them. -/
def Obligations.ExampleWordsDecode : Prop :=
  decode 0x0000000000000000 = .ok .nop ∧
  decode 0x010002000000BB80 = .ok (.prepare 512 48000) ∧
  decode 0x0200000000000000 = .ok .release ∧
  decode 0x030001F400000000 = .ok (.block 500) ∧
  decode 0x040000003F800000 = .ok (.sample 0 0x3F800000) ∧
  decode 0x04010000BF000000 = .ok (.sample 1 0xBF000000) ∧
  decode 0x05000000000001F4 = .ok (.wrparam 0 500) ∧
  decode 0x050000033F800000 = .ok (.wrparam 3 0x3F800000) ∧
  decode 0x0601000200000000 = .ok (.rdparam .snapshot 2) ∧
  decode 0x0700000000000000 = .ok (.rdstat 0) ∧
  decode 0x080000023E800000 = .ok (.ldarg 2 0x3E800000) ∧
  decode 0x1000000000000005 = .ok (.rbCreate 0 5) ∧
  decode 0x110000003F800000 = .ok (.rbWrite 0 0x3F800000) ∧
  decode 0x1200000000000003 = .ok (.rbReadi 0 3) ∧
  decode 0x1300000040200000 = .ok (.rbReadf 0 0x40200000) ∧
  decode 0x2802000000000000 = .ok (.bqCoef 2 .lp) ∧
  decode 0x2B02000300000000 = .ok (.bqRd 2 .a1) ∧
  decode 0x4001000900000000 = .ok (.tapStep 1 9 0)

/-- R77: a word with a reserved opcode is answered `E_ILLEGAL`, data 0, and changes nothing but the sticky bit. -/
def Obligations.ReservedOpcodeIsRefusedIllegal : Prop :=
  ∀ (s : State) (w : W64) (rest : List Event), s.input = .cmd w :: rest →
    (let o := (opcOf w).toNat
     (0x0A ≤ o ∧ o ≤ 0x0F) ∨ (0x15 ≤ o ∧ o ≤ 0x17) ∨ (0x1B ≤ o ∧ o ≤ 0x1F) ∨ (0x25 ≤ o ∧ o ≤ 0x27) ∨
       (0x2C ≤ o ∧ o ≤ 0x2F) ∨ (0x32 ≤ o ∧ o ≤ 0x37) ∨ (0x3A ≤ o ∧ o ≤ 0x3F) ∨ 0x42 ≤ o) →
    step s = .next { s with
      input := rest, port := .cmd, pos := s.pos + 1,
      err := { s.err with illegal := true }, log := ⟨.cmd, .err .illegal, 0⟩ :: s.log }

/-- R74, R78, R254: a word on the CMD port that is the encoding of no well-formed command (a field the command does not
use not zero, or a selector out of range) is answered `E_ILLEGAL`, and nothing but the sticky bit changes. -/
def Obligations.IllegalWordIsRefused : Prop :=
  ∀ (s : State) (w : W64) (rest : List Event), s.input = .cmd w :: rest →
    (∀ i : Instr, i.wellFormed = true → encode i ≠ w) →
    step s = .next { s with
      input := rest, port := .cmd, pos := s.pos + 1,
      err := { s.err with illegal := true }, log := ⟨.cmd, .err .illegal, 0⟩ :: s.log }

/-- R84: on the PAR port only `WRPARAM` and `RDPARAM` words are commands, with the meaning they have on the CMD port;
every other word is answered `E_ILLEGAL` on the PAR response and sets the sticky bit. -/
def Obligations.ParPortAcceptsOnlyParameterCommands : Prop :=
  ∀ (s : State) (w : W64) (rest : List Event), s.input = .par w :: rest →
    (∀ i : Instr, decode w = .ok i →
      ((∃ p v, i = .wrparam p v) ∨ ∃ sp p, i = .rdparam sp p) →
      step s = exec i { s with input := rest, port := .par, pos := s.pos + 1 }) ∧
    ((∀ p v, encode (.wrparam p v) ≠ w) → (∀ sp p, encode (.rdparam sp p) ≠ w) →
      step s = .next { s with
        input := rest, port := .par, pos := s.pos + 1,
        err := { s.err with illegal := true }, log := ⟨.par, .err .illegal, 0⟩ :: s.log })

/-! ## The step -/

/-- A step on a CMD word that decodes to a well-formed command is that command's meaning on the state that has accepted
the word: the event is taken from the pending ones, the response port is CMD, the position in the host's list advances
by exactly 1 (R22, R61, R80; the fields are the model's choice, assumption log 8 and 10). -/
def Obligations.StepRunsTheDecodedCommand : Prop :=
  ∀ (s : State) (w : W64) (rest : List Event) (i : Instr), s.input = .cmd w :: rest → decode w = .ok i →
    step s = exec i { s with input := rest, port := .cmd, pos := s.pos + 1 }

/-- R280: an active reset gives every piece of the hardware's state its reset value, `LIFE` UNPREP, no ring allocated,
the sticky bits clear; the calibration, the pending events and the record of the run are the outside world's (the model's
choice, assumption log 9). With nothing pending no state changes (R296, assumption log 12). -/
def Obligations.ResetEventRestoresResetState : Prop :=
  (∀ (s : State) (rest : List Event), s.input = .reset :: rest →
    step s = .next { State.reset with cal := s.cal, input := rest, pos := s.pos, log := s.log }) ∧
  ∀ s : State, s.input = [] → step s = .next s

/-- R40, the reset values register by register. -/
def Obligations.ResetStateHoldsTheStatedValues : Prop :=
  let z := State.reset
  z.life = .unprep ∧ z.status = 0 ∧
  z.fs = 0 ∧ z.maxBlk = 0 ∧ z.nRamp = 0 ∧ z.lastN = 0 ∧ z.cGen = 0 ∧ z.cSml = 0 ∧ z.cLrg = 0 ∧
  (∀ k : ArgId, z.a[k] = 0) ∧
  z.param = #v[0, 0, 0, 0, 0, 0, 0x3DCCCCCD, 0, 0x45DAC000, 0, 0x41A00000, 0, 0] ∧
  (∀ p : ParamId, z.snap[p] = 0) ∧ z.rph = 0 ∧ z.rmod = 0 ∧
  (∀ r : RingId, (z.rb[r]).cap = 0 ∧ (z.rb[r]).widx = 0 ∧ (z.rb[r]).interp = true ∧ z.dl[r] = 0) ∧
  (∀ b : StageId, (z.bq[b]).b0 = 0x3F800000 ∧ (z.bq[b]).b1 = 0 ∧ (z.bq[b]).b2 = 0 ∧ (z.bq[b]).a1 = 0 ∧
    (z.bq[b]).a2 = 0 ∧ (z.bq[b]).x1 = 0 ∧ (z.bq[b]).x2 = 0 ∧ (z.bq[b]).y1 = 0 ∧ (z.bq[b]).y2 = 0) ∧
  ∀ c : Lane, (z.ch[c]).fbS = 0 ∧ (z.ch[c]).dwS = 0 ∧ (z.ch[c]).rlS = 0 ∧ (z.ch[c]).lpmS = 0 ∧ (z.ch[c]).hpmS = 0 ∧
    (z.ch[c]).chmS = 0 ∧ (z.ch[c]).rvmS = 0 ∧ (z.ch[c]).zero = true ∧ (z.ch[c]).dparam = 0 ∧
    (z.ch[c]).lpfApp = 0 ∧ (z.ch[c]).hpfApp = 0 ∧ (z.ch[c]).cph = 0 ∧ (z.ch[c]).pkIn = 0 ∧ (z.ch[c]).pkOut = 0 ∧
    ∀ q : RampId, (z.ch[c]).ramp[q] = { cur := 0, tgt := 0, step := 0, cnt := 0 }

/-- R71, R251, R296: a command accepted on either port is answered exactly once, on its own port, whatever the word and
whatever the state; a refused one carries data 0; the machine never stops. -/
def Obligations.EveryCommandGetsOneResponse : Prop :=
  ∀ (s : State) (w : W64) (rest : List Event) (p : Port),
    s.input = (match p with | .cmd => .cmd w | .par => .par w) :: rest →
    ∃ (t : State) (code : RspCode) (data : W32),
      step s = .next t ∧ t.log = ⟨p, code, data⟩ :: s.log ∧ (code ≠ .ok → data = 0) ∧
      t.input = rest ∧ t.pos = s.pos + 1

/-! ## Errors -/

/-- R253, R256, R257, R258: a command reports the first check that fails, in the order `E_ILLEGAL`, `E_STATE`, then
`E_RANGE` or `E_CONFIG`, by the tables of R256 and R258, and `OK` when none fails. The premise is R39 (b), by which a
prepared hardware has its rings. -/
def Obligations.ResponseCodeIsFirstFailingCheck : Prop :=
  ∀ (i : Instr) (s : State), s.sizedOk →
    ∃ (t : State) (data : W32), exec i s = .next t ∧ t.log = ⟨s.port, expectedCode i s, data⟩ :: s.log

/-- R252: a refused command other than `PREPARE` answers data 0, sets its sticky bit and changes nothing else: no
register, no ring word, no write index, no filter history, not `LIFE`. -/
def Obligations.RefusedCommandChangesOnlyItsStickyBit : Prop :=
  ∀ (i : Instr) (s t : State) (e : ErrCode) (data : W32), (∀ m f, i ≠ .prepare m f) → exec i s = .next t →
    t.log = ⟨s.port, .err e, data⟩ :: s.log →
    t = { s with err := s.err.set e, log := ⟨s.port, .err e, 0⟩ :: s.log }

/-- R103, R257: `PREPARE` with an invalid sample rate or a zero block size leaves the hardware unprepared with every ring
freed, sets `ERR_CONFIG` and keeps every other register. -/
def Obligations.RefusedPrepareLeavesUnprepared : Prop :=
  ∀ (m : BitVec 16) (fs : W32) (s : State), (fs.toNat < 1 ∨ 262144 < fs.toNat ∨ m.toNat < 1) →
    ∃ t : State, exec (.prepare m fs) s = .next t ∧
      t = { s with life := .unprep, rb := t.rb, err := { s.err with config := true },
                   log := ⟨s.port, .err .config, 0⟩ :: s.log } ∧
      ∀ r : RingId, (t.rb[r]).cap = 0 ∧ (t.rb[r]).widx = 0 ∧ (t.rb[r]).interp = (s.rb[r]).interp

/-- R28, R252: outside a hardware reset a sticky bit never clears, and a bit is newly set only by a command answered with
its error. -/
def Obligations.StickyBitsAreOnlyEverSet : Prop :=
  ∀ s t : State, (∀ rest, s.input ≠ .reset :: rest) → step s = .next t →
    (s.err.illegal = true → t.err.illegal = true) ∧ (s.err.state = true → t.err.state = true) ∧
    (s.err.config = true → t.err.config = true) ∧ (s.err.range = true → t.err.range = true) ∧
    (t.err ≠ s.err → ∃ e, t.err = s.err.set e ∧ t.log = ⟨t.port, .err e, 0⟩ :: s.log)

/-! ## Who writes what -/

/-- R21, R24 to R27: the argument registers are written by `LDARG` alone, `PARAM` by `WRPARAM` alone, `SNAP` by `BLOCK`
and `PREPARE`, the configuration registers by `PREPARE` (`LASTN` by `BLOCK` too, R108), `LIFE` by `PREPARE`, `RELEASE`
and `BLOCK`. -/
def Obligations.ControlRegistersHaveTheirStatedWriters : Prop :=
  ∀ (i : Instr) (s t : State), exec i s = .next t →
    ((∀ k v, i ≠ .ldarg k v) → t.a = s.a) ∧
    ((∀ p v, i ≠ .wrparam p v) → t.param = s.param) ∧
    ((∀ m f, i ≠ .prepare m f) →
      t.fs = s.fs ∧ t.maxBlk = s.maxBlk ∧ t.nRamp = s.nRamp ∧ t.cGen = s.cGen ∧ t.cSml = s.cSml ∧ t.cLrg = s.cLrg) ∧
    ((∀ m f, i ≠ .prepare m f) → (∀ n, i ≠ .block n) →
      t.snap = s.snap ∧ t.lastN = s.lastN ∧ t.rmod = s.rmod ∧ (i ≠ .release → t.life = s.life)) ∧
    t.cal = s.cal

/-- R30, R34, R67: no command but `PREPARE`, `RELEASE` and `RB_CREATE` changes a capacity; `interp` is written by
`RB_INTERP` and `PREPARE` alone; the zero flag and the delay parameter of a lane by `BLOCK` and `PREPARE` alone. -/
def Obligations.RingAndLaneFlagsHaveTheirStatedWriters : Prop :=
  ∀ (i : Instr) (s t : State), exec i s = .next t → (∀ m f, i ≠ .prepare m f) →
    (i ≠ .release → (∀ r len, i ≠ .rbCreate r len) → ∀ r : RingId, (t.rb[r]).cap = (s.rb[r]).cap) ∧
    ((∀ r on, i ≠ .rbInterp r on) → ∀ r : RingId, (t.rb[r]).interp = (s.rb[r]).interp) ∧
    ((∀ n, i ≠ .block n) → ∀ c : Lane, (t.ch[c]).zero = (s.ch[c]).zero ∧ (t.ch[c]).dparam = (s.ch[c]).dparam)

/-- R291: the read-only commands and the pure ones (but `LDARG`) change no register and no word; only the response, and
a sticky bit when they are refused. -/
def Obligations.ReadOnlyAndPureCommandsChangeNothing : Prop :=
  ∀ (i : Instr) (s t : State),
    ((∃ r d, i = .rbReadi r d) ∨ (∃ r d, i = .rbReadf r d) ∨ (∃ r, i = .dlRead r) ∨ (∃ b f, i = .bqRd b f) ∨
      (∃ c q, i = .rampRd c q) ∨ (∃ l, i = .lfoRd l) ∨ (∃ x, i = .rdstat x) ∨ (∃ sp p, i = .rdparam sp p) ∨
      (∃ k, i = .rdarg k) ∨ i = .smOnepole ∨ (∃ tau, i = .smCoeff tau) ∨ i = .mix ∨ i = .mixadd ∨ i = .nop) →
    exec i s = .next t → t = { s with err := t.err, log := t.log }

/-- R54, R114: `SAMPLE`, `TAP_STEP` and `RV_STEP` of a lane leave every global register and everything of the other lane
as it was: its registers, rings, ring words, delay times and stages. -/
def Obligations.LaneCommandsTouchOnlyTheirLane : Prop :=
  ∀ (c : Lane) (s t : State) (i : Instr),
    ((∃ x, i = .sample c x) ∨ (∃ k u, i = .tapStep c k u) ∨ ∃ u, i = .rvStep c u) → exec i s = .next t →
    OnlyLane c { s with err := t.err, log := t.log } t

/-- R114: the two lanes commute. `SAMPLE L, x` and `SAMPLE R, y` in either order give the same two outputs and the same
final state, but for the order of the two responses. -/
def Obligations.SamplesOfTheTwoLanesCommute : Prop :=
  ∀ (s : State) (x y : F32), s.sizedOk → s.life = .run → F32.isFinite x = true → F32.isFinite y = true →
    ∃ (s1 s2 t1 t2 : State) (u v : W32),
      exec (.sample 0 x) s = .next s1 ∧ exec (.sample 1 y) s1 = .next s2 ∧
      exec (.sample 1 y) s = .next t1 ∧ exec (.sample 0 x) t1 = .next t2 ∧
      s2.log = ⟨s.port, .ok, v⟩ :: ⟨s.port, .ok, u⟩ :: s.log ∧
      t2.log = ⟨s.port, .ok, u⟩ :: ⟨s.port, .ok, v⟩ :: s.log ∧
      t2 = { s2 with log := t2.log }

/-- R122: a `WRPARAM` has no effect on any command but `BLOCK`, `RDPARAM` and another `WRPARAM`: the same response and
the same state but for the register written. -/
def Obligations.ParameterWriteIsInvisibleUntilBlock : Prop :=
  ∀ (i : Instr) (s t : State) (p : ParamId) (v : W32), (∀ n, i ≠ .block n) → (∀ sp q, i ≠ .rdparam sp q) →
    (∀ q u, i ≠ .wrparam q u) → exec i s = .next t →
    exec i { s with param := s.param.set p.val v p.isLt } = .next { t with param := t.param.set p.val v p.isLt }

/-! ## Status -/

/-- R28, the layout of `STATUS`. -/
def Obligations.StatusWordLayout : Prop :=
  ∀ s : State,
    (s.status.extractLsb' 0 2).toNat = (match s.life with | .unprep => 0 | .prep => 1 | .run => 2) ∧
    s.status.extractLsb' 2 6 = 0 ∧ s.status.getLsbD 8 = s.err.illegal ∧ s.status.getLsbD 9 = s.err.state ∧
    s.status.getLsbD 10 = s.err.config ∧ s.status.getLsbD 11 = s.err.range ∧ s.status.extractLsb' 12 20 = 0

/-- R29, R126: `RDSTAT` answers the register the status map names, and changes nothing. -/
def Obligations.StatusMapReadsEachRegister : Prop :=
  ∀ s : State,
    let reads (idx : Nat) (v : W32) : Prop := exec (.rdstat (BitVec.ofNat 16 idx)) s = .next (s.respond .ok v)
    reads 0x0000 s.status ∧ reads 0x0001 s.fs ∧ reads 0x0002 (s.maxBlk.setWidth 32) ∧ reads 0x0003 s.nRamp ∧
    reads 0x0004 s.cGen ∧ reads 0x0005 s.cSml ∧ reads 0x0006 s.cLrg ∧ reads 0x0007 s.rmod ∧
    reads 0x0008 (s.lastN.setWidth 32) ∧ reads 0x0009 s.rph ∧
    (∀ r : RingId, reads (0x20 + r.val) (s.rb[r]).cap ∧ reads (0x40 + r.val) (s.rb[r]).widx ∧
      reads (0x60 + r.val) (if (s.rb[r]).interp then 1 else 0) ∧ reads (0x80 + r.val) s.dl[r]) ∧
    ∀ c : Lane,
      reads (0x10 + c.val) (s.ch[c]).pkIn ∧ reads (0x12 + c.val) (s.ch[c]).pkOut ∧
      (let base := 0x100 + 0x80 * c.val
       reads base (s.ch[c]).fbS ∧ reads (base + 1) (s.ch[c]).dwS ∧ reads (base + 2) (s.ch[c]).rlS ∧
       reads (base + 3) (s.ch[c]).lpmS ∧ reads (base + 4) (s.ch[c]).hpmS ∧ reads (base + 5) (s.ch[c]).chmS ∧
       reads (base + 6) (s.ch[c]).rvmS ∧ reads (base + 7) (if (s.ch[c]).zero then 1 else 0) ∧
       reads (base + 8) (s.ch[c]).lpfApp ∧ reads (base + 9) (s.ch[c]).hpfApp ∧ reads (base + 10) (s.ch[c]).dparam ∧
       reads (base + 11) (s.ch[c]).cph ∧
       ∀ q : RampId,
         reads (base + 0x10 + q.val) ((s.ch[c]).ramp[q]).cur ∧ reads (base + 0x20 + q.val) ((s.ch[c]).ramp[q]).tgt ∧
         reads (base + 0x30 + q.val) ((s.ch[c]).ramp[q]).cnt ∧ reads (base + 0x40 + q.val) ((s.ch[c]).ramp[q]).step)

/-! ## Control commands -/

/-- R100, R123, R130, R180, R199, R214: `NOP` and the register reads complete in every state, answer the register and
change nothing but the record of responses. -/
def Obligations.RegisterReadCommandsAnswer : Prop :=
  ∀ s : State,
    exec .nop s = .next (s.respond .ok 0) ∧
    (∀ p : ParamId, exec (.rdparam .staging p) s = .next (s.respond .ok s.param[p]) ∧
      exec (.rdparam .snapshot p) s = .next (s.respond .ok s.snap[p])) ∧
    (∀ k : ArgId, exec (.rdarg k) s = .next (s.respond .ok s.a[k])) ∧
    (∀ (c : Lane) (q : RampId), exec (.rampRd c q) s = .next (s.respond .ok ((s.ch[c]).ramp[q]).cur)) ∧
    (∀ b : StageId,
      exec (.bqRd b .b0) s = .next (s.respond .ok (s.bq[b]).b0) ∧
      exec (.bqRd b .b1) s = .next (s.respond .ok (s.bq[b]).b1) ∧
      exec (.bqRd b .b2) s = .next (s.respond .ok (s.bq[b]).b2) ∧
      exec (.bqRd b .a1) s = .next (s.respond .ok (s.bq[b]).a1) ∧
      exec (.bqRd b .a2) s = .next (s.respond .ok (s.bq[b]).a2) ∧
      exec (.bqRd b .x1) s = .next (s.respond .ok (s.bq[b]).x1) ∧
      exec (.bqRd b .x2) s = .next (s.respond .ok (s.bq[b]).x2) ∧
      exec (.bqRd b .y1) s = .next (s.respond .ok (s.bq[b]).y1) ∧
      exec (.bqRd b .y2) s = .next (s.respond .ok (s.bq[b]).y2)) ∧
    exec (.lfoRd .chorusLeft) s = .next (s.respond .ok (s.ch[(0 : Lane)]).cph) ∧
    exec (.lfoRd .chorusRight) s = .next (s.respond .ok (s.ch[(1 : Lane)]).cph) ∧
    exec (.lfoRd .reverb) s = .next (s.respond .ok s.rph)

/-- R122, R128, R150, R152: `WRPARAM`, `LDARG`, `RB_INTERP` and (for a finite time) `DL_SETTIME` complete in every state
with data 0, write the one register they name and change nothing else. -/
def Obligations.RegisterWriteCommandsWriteOneRegister : Prop :=
  ∀ s : State,
    (∀ (p : ParamId) (v : W32), ∃ t, exec (.wrparam p v) s = .next t ∧
      t = { s with param := t.param, log := ⟨s.port, .ok, 0⟩ :: s.log } ∧
      t.param[p] = v ∧ ∀ p' : ParamId, p' ≠ p → t.param[p'] = s.param[p']) ∧
    (∀ (k : ArgId) (v : W32), ∃ t, exec (.ldarg k v) s = .next t ∧
      t = { s with a := t.a, log := ⟨s.port, .ok, 0⟩ :: s.log } ∧
      t.a[k] = v ∧ ∀ k' : ArgId, k' ≠ k → t.a[k'] = s.a[k']) ∧
    (∀ (r : RingId) (on : Bool), ∃ t, exec (.rbInterp r on) s = .next t ∧
      t = { s with rb := t.rb, log := ⟨s.port, .ok, 0⟩ :: s.log } ∧
      t.rb[r] = { s.rb[r] with interp := on } ∧ ∀ r' : RingId, r' ≠ r → t.rb[r'] = s.rb[r']) ∧
    ∀ (r : RingId) (ms : F32), F32.isFinite ms = true → ∃ t, exec (.dlSettime r ms) s = .next t ∧
      t = { s with dl := t.dl, log := ⟨s.port, .ok, 0⟩ :: s.log } ∧
      t.dl[r] = ms ∧ ∀ r' : RingId, r' ≠ r → t.dl[r'] = s.dl[r']

/-- R106: `RELEASE` completes in every state, leaves the hardware unprepared and frees every ring; every other register,
the interpolation toggles among them, keeps its value. -/
def Obligations.ReleaseFreesEveryRing : Prop :=
  ∀ s : State, ∃ t, exec .release s = .next t ∧
    t = { s with life := .unprep, rb := t.rb, log := ⟨s.port, .ok, 0⟩ :: s.log } ∧
    ∀ r : RingId, (t.rb[r]).cap = 0 ∧ (t.rb[r]).widx = 0 ∧ (t.rb[r]).interp = (s.rb[r]).interp

/-- R102, R104: a valid `PREPARE` completes in every state and initialises the whole signal path: configuration,
coefficients, 22 zero-filled rings of the smallest power of two from `2 fs`, delay times, the user stages as the
identity, the fixed stages as `bq_coef` builds them on the identity, lanes, phases, snapshot. `PARAM`, `A` and the
sticky bits keep their values. -/
def Obligations.PrepareInitialisesTheSignalPath : Prop :=
  ∀ (m : BitVec 16) (fs : W32) (s : State), 1 ≤ fs.toNat → fs.toNat ≤ 262144 → 1 ≤ m.toNat →
    ∃ t, exec (.prepare m fs) s = .next t ∧
      t.a = s.a ∧ t.param = s.param ∧ t.err = s.err ∧ t.cal = s.cal ∧ t.input = s.input ∧ t.port = s.port ∧
      t.pos = s.pos ∧ t.log = ⟨s.port, .ok, 0⟩ :: s.log ∧
      t.life = .prep ∧ t.fs = fs ∧ t.maxBlk = m ∧ t.lastN = 0 ∧ t.nRamp.toNat = fs.toNat * 50 / 1000 ∧
      (let coeff (tau : F32) : F32 :=
         F32.sub Config.f1 (F32.exp (F32.neg (F32.div Config.f1 (F32.mul tau (F32.ofNat fs.toNat)))))
       t.cGen = coeff Config.tauGen ∧ t.cSml = coeff Config.tauSml ∧ t.cLrg = coeff Config.tauLrg) ∧
      (∀ r : RingId, (t.rb[r]).cap.toNat = nextPow2 (2 * fs.toNat) ∧ (t.rb[r]).widx = 0 ∧ (t.rb[r]).interp = true ∧
        (∀ k : Nat, t.word r k = 0) ∧ t.dl[r] = 0) ∧
      (let fixed (ty : BqType) (f q : F32) : Biquad :=
         if (bqDesign fs ty f q).finite then Biquad.reset.load (bqDesign fs ty f q) else Biquad.reset
       ∀ c : Lane,
        t.bq[lpfStage c] = Biquad.reset ∧ t.bq[hpfStage c] = Biquad.reset ∧
        t.bq[glpfStage c] = fixed .lp Config.glpfHz Config.qButter ∧
        (∀ (i : TapId) (k : Fin 5), t.bq[apStage c i k] = fixed .ap (Config.apHz k) s.cal.apQ[k]) ∧
        (∀ i : TapId, t.bq[tlpStage c i] = fixed .lp Config.tlpHz Config.qButter) ∧
        t.ch[c] = Chan.reset) ∧
      t.rph = 0 ∧ t.rmod = 0 ∧ ∀ p : ParamId, t.snap[p] = 0

/-- R108, R109, R112: `BLOCK n` completes whenever the hardware is prepared and `n` is at most `MAXBLK`. It takes the
clamped snapshot (R12's chain, so a NaN goes to the lower bound), latches the reverb modulation, advances the shared phase, records `n` and enters RUN. Argument and
parameter registers, configuration, rings and ring memory, and every stage but the user filters are left alone. -/
def Obligations.BlockSnapshotsAndStepsTheReverbLfo : Prop :=
  ∀ (n : BitVec 16) (s : State), s.life ≠ .unprep → n.toNat ≤ s.maxBlk.toNat →
    ∃ t, exec (.block n) s = .next t ∧
      t = { s with life := .run, lastN := n, snap := t.snap, rph := t.rph, rmod := t.rmod, dl := t.dl, bq := t.bq,
                   ch := t.ch, log := ⟨s.port, .ok, 0⟩ :: s.log } ∧
      t.rmod = F32.mul Config.rvLfoDepthMs (F32.sin s.rph) ∧
      t.rph = F32.wrap (F32.add s.rph (F32.mul (F32.ofNat n.toNat)
        (F32.div (F32.mul Config.fTwoPi Config.rvLfoHz) (F32.ofNat s.fs.toNat)))) ∧
      (let delay (w : W32) : W32 := BitVec.ofNat 32 (min (max w.toInt 0) 2000).toNat
       t.snap[0] = delay s.param[0] ∧ t.snap[1] = delay s.param[1]) ∧
      (let clamp (v lo hi : F32) : F32 :=
         if F32.ge v lo = true then (if F32.gt v hi = true then hi else v) else lo
       t.snap[2] = clamp s.param[2] Config.f0 Config.f1 ∧ t.snap[3] = clamp s.param[3] Config.f0 Config.f1 ∧
       t.snap[6] = clamp s.param[6] Config.fTenth Config.f3 ∧ t.snap[8] = clamp s.param[8] Config.f20 Config.f7000 ∧
       t.snap[10] = clamp s.param[10] Config.f20 Config.f1000 ∧ t.snap[12] = clamp s.param[12] Config.f0 Config.f1) ∧
      t.snap[4].toNat = s.param[4].toNat % 2 ∧ t.snap[5].toNat = s.param[5].toNat % 2 ∧
      t.snap[7].toNat = s.param[7].toNat % 2 ∧ t.snap[9].toNat = s.param[9].toNat % 2 ∧
      t.snap[11].toNat = s.param[11].toNat % 2 ∧
      ∀ b : StageId, b.val % 63 ≠ 0 → b.val % 63 ≠ 1 → t.bq[b] = s.bq[b]

/-- R110: `block_lane` on the snapshot just taken. The delay parameter follows the dual-delay choice, the zero flag says
whether it is 0, every ramp is snapped to its target on the first block and else retargeted and advanced by `n`, the
peak meters are cleared, and the chorus phase is kept. -/
def Obligations.BlockRetargetsTheLaneRamps : Prop :=
  ∀ (n : BitVec 16) (s : State) (c : Lane), s.life ≠ .unprep → n.toNat ≤ s.maxBlk.toNat →
    ∃ t, exec (.block n) s = .next t ∧
      (t.ch[c]).dparam = (if c = 1 ∧ t.snap[4] = 1 then t.snap[1] else t.snap[0]) ∧
      ((t.ch[c]).zero = true ↔ (t.ch[c]).dparam = 0) ∧
      (t.ch[c]).pkIn = 0 ∧ (t.ch[c]).pkOut = 0 ∧ (t.ch[c]).cph = (s.ch[c]).cph ∧
      (let toggle (w : W32) : F32 := if w = 1 then Config.f1 else Config.f0
       let moved (q : RampId) (target : F32) : Prop :=
         (t.ch[c]).ramp[q] =
           if s.life = .prep then { cur := target, tgt := target, step := 0, cnt := 0 }
           else (((s.ch[c]).ramp[q]).setTarget s.nRamp target).advance n.toNat
       moved 0 (F32.ofNat (t.ch[c]).dparam.toNat) ∧ moved 1 t.snap[2] ∧
       moved 2 (if (t.ch[c]).dparam = 0 then Config.f0 else t.snap[3]) ∧ moved 3 t.snap[12] ∧
       moved 4 (toggle t.snap[7]) ∧ moved 5 (toggle t.snap[9]) ∧ moved 6 (toggle t.snap[5]) ∧
       moved 7 (toggle t.snap[11]) ∧ moved 8 t.snap[8] ∧ moved 9 t.snap[10])

/-- R111, R113: on the first block after a `PREPARE` every smoothed value and delay time adopts its target, else all keep
theirs; the coefficients of a user filter are rebuilt from its ramped cutoff on the first block and when that cutoff
differs from the last one applied, and are else kept; a stage's history is never touched. -/
def Obligations.BlockPrimesAndRebuildsUserFilters : Prop :=
  ∀ (n : BitVec 16) (s : State) (c : Lane), s.life ≠ .unprep → n.toNat ≤ s.maxBlk.toNat →
    ∃ t, exec (.block n) s = .next t ∧
      (let l := t.ch[c]
       s.life = .prep →
        l.fbS = (l.ramp[(1 : RampId)]).cur ∧ l.dwS = (l.ramp[(2 : RampId)]).cur ∧ l.rlS = (l.ramp[(3 : RampId)]).cur ∧
        l.lpmS = (l.ramp[(4 : RampId)]).cur ∧ l.hpmS = (l.ramp[(5 : RampId)]).cur ∧
        l.chmS = (l.ramp[(6 : RampId)]).cur ∧ l.rvmS = (l.ramp[(7 : RampId)]).cur ∧
        t.dl[mainRing c] = (l.ramp[(0 : RampId)]).cur ∧
        ∀ i : TapId, t.dl[tapRing c i] =
          (let d := F32.add (s.cal.tapMs[c])[i] t.rmod
           if F32.ge d Config.f0 then d else Config.f0)) ∧
      (s.life = .run →
        t.dl = s.dl ∧ (t.ch[c]).fbS = (s.ch[c]).fbS ∧ (t.ch[c]).dwS = (s.ch[c]).dwS ∧
        (t.ch[c]).rlS = (s.ch[c]).rlS ∧ (t.ch[c]).lpmS = (s.ch[c]).lpmS ∧ (t.ch[c]).hpmS = (s.ch[c]).hpmS ∧
        (t.ch[c]).chmS = (s.ch[c]).chmS ∧ (t.ch[c]).rvmS = (s.ch[c]).rvmS) ∧
      (let rebuilt (b : StageId) (ty : BqType) (q : RampId) (app app' : F32) : Prop :=
         let f := ((t.ch[c]).ramp[q]).cur
         if s.life = .prep ∨ F32.feq f app = false then
           app' = f ∧ t.bq[b] =
             (if (bqDesign s.fs ty f Config.qButter).finite then (s.bq[b]).load (bqDesign s.fs ty f Config.qButter)
              else s.bq[b])
         else app' = app ∧ t.bq[b] = s.bq[b]
       rebuilt (lpfStage c) .lp 8 (s.ch[c]).lpfApp (t.ch[c]).lpfApp ∧
       rebuilt (hpfStage c) .hp 9 (s.ch[c]).hpfApp (t.ch[c]).hpfApp)

/-! ## SAMPLE -/

/-- R115, R117: the smoothed values a lane has after `smooth_lane`, and its delay time after `delay_read`. -/
def Obligations.SampleGlidesTheLaneRegisters : Prop :=
  ∀ (c : Lane) (x : F32) (s : State), s.sizedOk → s.life = .run → F32.isFinite x = true →
    ∃ t, exec (.sample c x) s = .next t ∧
      (let l := s.ch[c]
       let glide (v target k : F32) : F32 := F32.add v (F32.mul (F32.sub target v) k)
       let cDelay := if l.zero then s.cLrg else s.cSml
       let cDry := if l.zero then s.cLrg else s.cGen
       let m := F32.mul s.cal.chorusDepth (F32.sin l.cph)
       let chm := glide l.chmS (l.ramp[(6 : RampId)]).cur s.cGen
       let target := if l.zero then (l.ramp[(0 : RampId)]).cur else F32.add (l.ramp[(0 : RampId)]).cur (F32.mul chm m)
       t.dl[mainRing c] = glide s.dl[mainRing c] (if F32.lt target Config.f0 then Config.f0 else target) cDelay ∧
       t.ch[c] = { l with
         fbS := glide l.fbS (l.ramp[(1 : RampId)]).cur s.cSml
         dwS := glide l.dwS (l.ramp[(2 : RampId)]).cur cDry
         rlS := glide l.rlS (l.ramp[(3 : RampId)]).cur s.cSml
         lpmS := glide l.lpmS (l.ramp[(4 : RampId)]).cur s.cGen
         hpmS := glide l.hpmS (l.ramp[(5 : RampId)]).cur s.cGen
         chmS := chm
         rvmS := glide l.rvmS (l.ramp[(7 : RampId)]).cur s.cGen
         cph := F32.wrap (F32.add l.cph (F32.mul (F32.ofNat 1)
           (F32.div (F32.mul Config.fTwoPi s.snap[6]) (F32.ofNat s.fs.toNat))))
         pkIn := (t.ch[c]).pkIn
         pkOut := (t.ch[c]).pkOut })

/-- R114, R116 to R120, R235: the output of `SAMPLE` and what it does to the main line, the three tone filters and the
meters of its lane. The taps run on the dry/wet mix `y`; each tap's output is read before the tap is written. -/
def Obligations.SampleOutputIsThePipeline : Prop :=
  ∀ (c : Lane) (x : F32) (s : State), s.sizedOk → s.life = .run → F32.isFinite x = true →
    ∃ t, exec (.sample c x) s = .next t ∧
      (let l := t.ch[c]
       let cross (dry wet m : F32) : F32 := F32.add (F32.mul (F32.sub Config.f1 m) dry) (F32.mul m wet)
       let w := (s.rb[mainRing c]).readMs s.fs t.dl[mainRing c]
       let w1 := cross w ((s.bq[lpfStage c]).out w) l.lpmS
       let w2 := cross w1 ((s.bq[hpfStage c]).out w1) l.hpmS
       let w3 := (s.bq[glpfStage c]).out w2
       let y := cross x w3 l.dwS
       let reverb := taps.foldl (fun acc i => F32.add acc (F32.mul l.rlS (s.tapOut c i))) Config.f0
       let out := F32.add y (F32.mul l.rvmS reverb)
       let meter (m v : F32) : F32 :=
         if F32.gt (F32.abs v) m then (if F32.gt (F32.abs v) Config.f1 then Config.f1 else F32.abs v) else m
       t.log = ⟨s.port, .ok, out⟩ :: s.log ∧
       l.pkIn = meter (s.ch[c]).pkIn x ∧ l.pkOut = meter (s.ch[c]).pkOut out ∧
       t.rb[mainRing c] = (s.rb[mainRing c]).write (F32.add x (F32.mul l.fbS w3)) ∧
       t.bq[lpfStage c] = (s.bq[lpfStage c]).push w ∧ t.bq[hpfStage c] = (s.bq[hpfStage c]).push w1 ∧
       t.bq[glpfStage c] = (s.bq[glpfStage c]).push w2 ∧
       ∀ i : TapId,
         t.dl[tapRing c i] = s.tapTime c i ∧
         t.rb[tapRing c i] = (s.rb[tapRing c i]).write (F32.add y (F32.mul (Config.decay i) (s.tapOut c i))) ∧
         t.bq[tlpStage c i] = (s.bq[tlpStage c i]).push (s.tapSignal c i 5) ∧
         ∀ k : Fin 5, t.bq[apStage c i k] = (s.bq[apStage c i k]).push (s.tapSignal c i k.val))

/-- R54, R57: `SAMPLE` stores one word in each ring of its lane, at that ring's write index, which advances by one under
the mask; every other word of every ring reads as before. -/
def Obligations.SampleStoresOneWordPerRing : Prop :=
  ∀ (c : Lane) (x : F32) (s : State), s.ringsOk → s.sizedOk → s.life = .run → F32.isFinite x = true →
    ∃ t, exec (.sample c x) s = .next t ∧
      ∀ r : RingId,
        (r.val / 11 = c.val → (t.rb[r]).widx.toNat = ((s.rb[r]).widx.toNat + 1) % (s.rb[r]).cap.toNat) ∧
        (r.val / 11 ≠ c.val → (t.rb[r]).widx = (s.rb[r]).widx) ∧
        ∀ i : Nat, (r.val / 11 ≠ c.val ∨ i ≠ (s.rb[r]).widx.toNat) → t.word r i = s.word r i

/-! ## Ring buffer and delay line -/

/-- R13, R140, R141: `RB_CREATE` completes in the unprepared state for a length of 1 to 2^19. The ring's capacity, which
is also the answer, is the smallest power of two not below the length; the write index is 0, every word reads zero, the
interpolation toggle is kept, and nothing else changes. -/
def Obligations.RingCreateZeroFillsTheSmallestPowerOfTwo : Prop :=
  ∀ (r : RingId) (len : W32) (s : State), s.life = .unprep → 1 ≤ len.toNat → len.toNat ≤ 524288 →
    ∃ t, exec (.rbCreate r len) s = .next t ∧
      t = { s with rb := t.rb, log := ⟨s.port, .ok, (t.rb[r]).cap⟩ :: s.log } ∧
      (∃ k : Nat, (t.rb[r]).cap.toNat = 2 ^ k) ∧ len.toNat ≤ (t.rb[r]).cap.toNat ∧
      (∀ k : Nat, len.toNat ≤ 2 ^ k → (t.rb[r]).cap.toNat ≤ 2 ^ k) ∧
      (t.rb[r]).widx = 0 ∧ (t.rb[r]).interp = (s.rb[r]).interp ∧ (∀ i : Nat, t.word r i = 0) ∧
      ∀ r' : RingId, r' ≠ r → t.rb[r'] = s.rb[r']

/-- R53, R142, R143: `RB_WRITE` completes on an allocated ring in every lifecycle state. It stores the word unchanged at
the write index, which advances by one modulo the capacity; every other word of every ring reads as before and no other
register changes. -/
def Obligations.RingWriteStoresOneWord : Prop :=
  ∀ (r : RingId) (v : W32) (s : State), (s.rb[r]).Ok → (s.rb[r]).cap ≠ 0 →
    ∃ t, exec (.rbWrite r v) s = .next t ∧
      t = { s with rb := t.rb, log := ⟨s.port, .ok, 0⟩ :: s.log } ∧
      t.word r (s.rb[r]).widx.toNat = v ∧
      (∀ (r' : RingId) (i : Nat), (r' ≠ r ∨ i ≠ (s.rb[r]).widx.toNat) → t.word r' i = s.word r' i) ∧
      (t.rb[r]).widx.toNat = ((s.rb[r]).widx.toNat + 1) % (s.rb[r]).cap.toNat ∧
      (t.rb[r]).cap = (s.rb[r]).cap ∧ (t.rb[r]).interp = (s.rb[r]).interp ∧
      ∀ r' : RingId, r' ≠ r → t.rb[r'] = s.rb[r']

/-- R144, R145: `RB_READI` completes on an allocated ring for every delay `d`, changes nothing, and answers the word
`d` places before the newest one, a delay past the capacity wrapping. -/
def Obligations.IntegerReadWrapsAtTheCapacity : Prop :=
  ∀ (r : RingId) (d : W32) (s : State), (s.rb[r]).cap ≠ 0 →
    exec (.rbReadi r d) s = .next (s.respond .ok
      (s.word r (((s.rb[r]).widx.toNat - 1 - d.toNat : Int) % ((s.rb[r]).cap.toNat : Int)).toNat)) ∧
    ∀ d' : W32, d'.toNat = d.toNat % (s.rb[r]).cap.toNat → exec (.rbReadi r d') s = exec (.rbReadi r d) s

/-- R146, R147: `RB_READF` completes on an allocated ring for every finite delay, changes nothing, and answers the linear
interpolation between the words at `floor d` and `floor d + 1`, or the newer one with interpolation off. `F32.floorF` is
the rule's `toF32(floor(d))`; what it is, and the fraction R148 gives with it, says `ConversionsAndComparisons`. -/
def Obligations.FractionalReadInterpolates : Prop :=
  ∀ (r : RingId) (d : F32) (s : State), (s.rb[r]).cap ≠ 0 → F32.isFinite d = true →
    let read (k : Int) : F32 :=
      s.word r ((((s.rb[r]).widx.toNat : Int) - 1 - k) % ((s.rb[r]).cap.toNat : Int)).toNat
    let y1 := read ⌊d.val⌋
    let y2 := read (⌊d.val⌋ + 1)
    let frac := F32.sub d (F32.floorF d)
    exec (.rbReadf r d) s = .next (s.respond .ok
      (if (s.rb[r]).interp = false then y1
       else if F32.lt frac Config.f1 then F32.add (F32.mul frac y2) (F32.mul (F32.sub Config.f1 frac) y1)
       else y2))

/-- R154, R155: `DL_READ` completes on a prepared hardware with the ring allocated, changes nothing, and answers the
fractional read at `dcur * FS / 1000` samples, or +0.0 where that is not finite. -/
def Obligations.DelayReadConvertsMillisecondsToSamples : Prop :=
  ∀ (r : RingId) (s : State), s.life ≠ .unprep → (s.rb[r]).cap ≠ 0 →
    let d := F32.div (F32.mul s.dl[r] (F32.ofNat s.fs.toNat)) Config.f1000
    (F32.isFinite d = true →
      exec (.dlRead r) s = .next (s.respond .ok ((s.rb[r]).readf d)) ∧ exec (.dlRead r) s = exec (.rbReadf r d) s) ∧
    (F32.isFinite d = false → exec (.dlRead r) s = .next (s.respond .ok 0))

/-- R156, R157: `DL_WRITE` completes on an allocated ring, computes `A0 + A1 * A2`, answers it and stores it at the write
index; the argument registers and every other word and register keep their values. -/
def Obligations.DelayWriteStoresInputPlusFeedback : Prop :=
  ∀ (r : RingId) (s : State), (s.rb[r]).Ok → (s.rb[r]).cap ≠ 0 →
    let w := F32.add s.a[0] (F32.mul s.a[1] s.a[2])
    ∃ t, exec (.dlWrite r) s = .next t ∧
      t = { s with rb := t.rb, log := ⟨s.port, .ok, w⟩ :: s.log } ∧
      t.word r (s.rb[r]).widx.toNat = w ∧
      (∀ (r' : RingId) (i : Nat), (r' ≠ r ∨ i ≠ (s.rb[r]).widx.toNat) → t.word r' i = s.word r' i) ∧
      (t.rb[r]).widx.toNat = ((s.rb[r]).widx.toNat + 1) % (s.rb[r]).cap.toNat ∧
      (t.rb[r]).cap = (s.rb[r]).cap ∧ (t.rb[r]).interp = (s.rb[r]).interp ∧
      ∀ r' : RingId, r' ≠ r → t.rb[r'] = s.rb[r']

/-- R145 (a), (b), (c), at the level of commands: after `RB_CREATE r, len` and any number of `RB_WRITE r`, a
`RB_READI r, d` answers the word written `d mod cap` writes before the last one, or the zero fill where there was no such
write; `cap` is the capacity. Wrapping loses only what has been overwritten. -/
def Obligations.RingReturnsTheWordsWritten : Prop :=
  ∀ (s : State) (r : RingId) (len d : W32) (vs : List W32), s.life = .unprep → 1 ≤ len.toNat → len.toNat ≤ 524288 →
    ∃ t u : State, execAll (.rbCreate r len :: vs.map (.rbWrite r)) s = some t ∧ exec (.rbReadi r d) t = .next u ∧
      u.log = ⟨s.port, .ok, vs.reverse.getD (d.toNat % nextPow2 len.toNat) 0⟩ :: t.log

/-! ## Smoother, mixer, ramp -/

/-- R170 to R172, R220 to R223: the pure arithmetic commands answer their formula, one rounded operation at a time, and
change nothing. `SM_ONEPOLE`, `MIX` and `MIXADD` complete in every state on every operand, `SM_COEFF` on a prepared
hardware for a finite positive time constant. -/
def Obligations.PureArithmeticCommandsAnswerTheirFormula : Prop :=
  ∀ s : State,
    exec .smOnepole s = .next (s.respond .ok (F32.add s.a[0] (F32.mul (F32.sub s.a[1] s.a[0]) s.a[2]))) ∧
    exec .mix s = .next (s.respond .ok
      (F32.add (F32.mul (F32.sub Config.f1 s.a[2]) s.a[0]) (F32.mul s.a[2] s.a[1]))) ∧
    exec .mixadd s = .next (s.respond .ok (F32.add s.a[0] (F32.mul s.a[2] s.a[1]))) ∧
    ∀ tau : F32, s.life ≠ .unprep → F32.isFinite tau = true → F32.gt tau Config.f0 = true →
      exec (.smCoeff tau) s = .next (s.respond .ok
        (F32.sub Config.f1 (F32.exp (F32.neg (F32.div Config.f1 (F32.mul tau (F32.ofNat s.fs.toNat)))))))

/-- R174, R176, R177, R178: `RAMP_SET` and `RAMP_ADV` complete on a prepared hardware (`RAMP_SET` for a finite target),
move the one ramp they name as `ramp_set` and `ramp_adv` say, and change nothing else. -/
def Obligations.RampCommandsMoveOneRamp : Prop :=
  ∀ (s : State) (c : Lane) (q : RampId), s.life ≠ .unprep →
    let x := (s.ch[c]).ramp[q]
    let moved (t : State) (y : Ramp) (d : W32) : Prop :=
      t = { s with ch := t.ch, log := ⟨s.port, .ok, d⟩ :: s.log } ∧ (t.ch[c]).ramp[q] = y ∧
      t.ch[c] = { s.ch[c] with ramp := (t.ch[c]).ramp } ∧
      (∀ q' : RampId, q' ≠ q → (t.ch[c]).ramp[q'] = (s.ch[c]).ramp[q']) ∧
      ∀ c' : Lane, c' ≠ c → t.ch[c'] = s.ch[c']
    (∀ g : F32, F32.isFinite g = true → ∃ t, exec (.rampSet c q g) s = .next t ∧
      moved t
        (if F32.feq g x.tgt = true then x
         else if s.nRamp = 0 then { cur := g, tgt := g, step := 0, cnt := 0 }
         else { cur := x.cur, tgt := g, cnt := s.nRamp,
                step := F32.div (F32.sub g x.cur) (F32.ofNat s.nRamp.toNat) }) 0) ∧
    ∀ n : W32, ∃ t, exec (.rampAdv c q n) s = .next t ∧
      moved t
        (if x.cnt = 0 ∨ n = 0 then x
         else if x.cnt.toNat ≤ n.toNat then { x with cur := x.tgt, cnt := 0 }
         else
           let v := F32.add x.cur (F32.mul x.step (F32.ofNat n.toNat))
           let past := (F32.gt x.step Config.f0 = true ∧ F32.gt v x.tgt = true) ∨ (F32.lt x.step Config.f0 = true ∧ F32.lt v x.tgt = true)
           { x with cur := (if past then x.tgt else v), cnt := x.cnt - n })
        ((t.ch[c]).ramp[q]).cur

/-- R179 (a), (b): a ramp set to a new finite target and advanced by steps that total at least `NRAMP` is exactly at the
target with its count 0; and however it is advanced, a ramp that rises never goes above its target, one that falls never
below. -/
def Obligations.RampLandsOnItsTargetAndNeverPasses : Prop :=
  ∀ (x : Ramp) (nRamp : W32) (g : F32) (ns : List Nat), F32.isFinite g = true → F32.fne g x.tgt = true →
    let y := ns.foldl Ramp.advance (x.setTarget nRamp g)
    (nRamp.toNat ≤ ns.sum → y.cur = g ∧ y.tgt = g ∧ y.cnt = 0) ∧
    (F32.isFinite x.cur = true → (∀ n ∈ ns, n < 2 ^ 32) →
      (F32.lt x.cur g = true → F32.gt y.cur g = false) ∧ (F32.gt x.cur g = true → F32.lt y.cur g = false))

/-- R181 (a), R221: the one-pole at its target stays there, and the crossfade at weight 0 answers the dry input and at
weight 1 the wet one (as numbers: -0.0 may come back as +0.0), for finite operands. -/
def Obligations.OnePoleAndCrossfadeFixedPoints : Prop :=
  ∀ d w k : F32, F32.isFinite d = true → F32.isFinite w = true → F32.isFinite k = true →
    F32.feq (onepole d d k) d = true ∧ F32.feq (mix d w Config.f0) d = true ∧ F32.feq (mix d w Config.f1) w = true

/-! ## Biquad -/

/-- R191, R192, R194, R195: `BQ_COEF` completes on a prepared hardware for a finite positive `Q`. The five values are
computed by the formulas of R192 from the cutoff clamped as R12 says, also where the bounds cross; the stage loads them and the answer is 1 when all are finite,
else the stage keeps its coefficients and the answer is 0; its history and every other register are left alone. -/
def Obligations.BiquadCoefficientsFollowTheDesign : Prop :=
  ∀ (b : StageId) (ty : BqType) (s : State), s.life ≠ .unprep → F32.isFinite s.a[1] = true →
    F32.gt s.a[1] Config.f0 = true →
    let fsf := F32.ofNat s.fs.toNat
    let top := F32.mul Config.f045 fsf
    let fc := if F32.ge s.a[0] Config.f20 = true then (if F32.gt s.a[0] top = true then top else s.a[0]) else Config.f20
    let n := F32.div Config.f1 (F32.tan (F32.div (F32.mul Config.fPi fc) fsf))
    let n2 := F32.mul n n
    let nq := F32.div n s.a[1]
    let c1 := F32.div Config.f1 (F32.add (F32.add Config.f1 nq) n2)
    let a1 := F32.mul (F32.mul c1 Config.f2) (F32.sub Config.f1 n2)
    let a2 := F32.mul c1 (F32.add (F32.sub Config.f1 nq) n2)
    let b0 := match ty with | .lp => c1 | .hp => F32.mul c1 n2 | .ap => a2
    let b1 := match ty with | .lp => F32.mul c1 Config.f2 | .hp => F32.neg (F32.mul b0 Config.f2) | .ap => a1
    let b2 := match ty with | .lp => c1 | .hp => b0 | .ap => Config.f1
    let good := F32.isFinite b0 && F32.isFinite b1 && F32.isFinite b2 && F32.isFinite a1 && F32.isFinite a2
    ∃ t, exec (.bqCoef b ty) s = .next t ∧
      t = { s with bq := t.bq, log := ⟨s.port, .ok, if good then 1 else 0⟩ :: s.log } ∧
      t.bq[b] = (if good then { s.bq[b] with b0 := b0, b1 := b1, b2 := b2, a1 := a1, a2 := a2 } else s.bq[b]) ∧
      ∀ b' : StageId, b' ≠ b → t.bq[b'] = s.bq[b']

/-- R196, R197, R198: `BQ_STEP` completes in every state for a finite sample, answers the direct-form-1 output and shifts
the history; `BQ_RESET` completes in every state and clears the history. Each moves its own stage only. -/
def Obligations.BiquadStepAndResetMoveOneHistory : Prop :=
  ∀ (b : StageId) (s : State),
    let g := s.bq[b]
    (∀ x : F32, F32.isFinite x = true →
      let y := F32.sub (F32.sub (F32.add (F32.add (F32.mul g.b0 x) (F32.mul g.b1 g.x1)) (F32.mul g.b2 g.x2))
        (F32.mul g.a1 g.y1)) (F32.mul g.a2 g.y2)
      ∃ t, exec (.bqStep b x) s = .next t ∧ t = { s with bq := t.bq, log := ⟨s.port, .ok, y⟩ :: s.log } ∧
        t.bq[b] = { g with x1 := x, x2 := g.x1, y1 := y, y2 := g.y1 } ∧
        ∀ b' : StageId, b' ≠ b → t.bq[b'] = s.bq[b']) ∧
    ∃ t, exec (.bqReset b) s = .next t ∧ t = { s with bq := t.bq, log := ⟨s.port, .ok, 0⟩ :: s.log } ∧
      t.bq[b] = { g with x1 := 0, x2 := 0, y1 := 0, y2 := 0 } ∧ ∀ b' : StageId, b' ≠ b → t.bq[b'] = s.bq[b']

/-! ## LFO -/

/-- R210, R212, R213: `LFO_STEP` completes on a prepared hardware for a rate from 0 to 262144 and a finite depth. It
answers the modulation at the phase before the step, advances that one phase by `n` sample periods, and changes nothing
else (not `RMOD`). -/
def Obligations.LfoStepAnswersThenAdvances : Prop :=
  ∀ (id : LfoId) (n : BitVec 16) (s : State), s.life ≠ .unprep →
    F32.isFinite s.a[0] = true → F32.ge s.a[0] Config.f0 = true → F32.ge Config.fRateMax s.a[0] = true →
    F32.isFinite s.a[1] = true →
    ∃ t, exec (.lfoStep id n) s = .next t ∧
      t = { s with ch := t.ch, rph := t.rph,
                   log := ⟨s.port, .ok, F32.mul s.a[1] (F32.sin (s.phase id))⟩ :: s.log } ∧
      t.phase id = F32.wrap (F32.add (s.phase id) (F32.mul (F32.ofNat n.toNat)
        (F32.div (F32.mul Config.fTwoPi s.a[0]) (F32.ofNat s.fs.toNat)))) ∧
      (∀ id' : LfoId, id' ≠ id → t.phase id' = s.phase id') ∧
      ∀ c : Lane, t.ch[c] = { s.ch[c] with cph := (t.ch[c]).cph }

/-! ## Reverb -/

/-- R232, R233: `TAP_STEP` completes on a prepared hardware with the tap's ring allocated (so it is on every prepared
state, R39 (b); assumption log 11), for a finite input. It glides
the tap's delay time, answers the tap's output, steps the six stages of the tap, and stores input plus decayed output in
the tap's ring; nothing else changes. -/
def Obligations.TapStepRunsOneTap : Prop :=
  ∀ (c : Lane) (i : TapId) (u : F32) (s : State), s.life ≠ .unprep → (s.rb[tapRing c i]).cap ≠ 0 →
    F32.isFinite u = true →
    ∃ t, exec (.tapStep c i u) s = .next t ∧
      t = { s with rb := t.rb, dl := t.dl, bq := t.bq, log := ⟨s.port, .ok, s.tapOut c i⟩ :: s.log } ∧
      t.dl[tapRing c i] = s.tapTime c i ∧
      t.rb[tapRing c i] = (s.rb[tapRing c i]).write (F32.add u (F32.mul (Config.decay i) (s.tapOut c i))) ∧
      (∀ k : Fin 5, t.bq[apStage c i k] = (s.bq[apStage c i k]).push (s.tapSignal c i k.val)) ∧
      t.bq[tlpStage c i] = (s.bq[tlpStage c i]).push (s.tapSignal c i 5) ∧
      (∀ r : RingId, r ≠ tapRing c i → t.rb[r] = s.rb[r] ∧ t.dl[r] = s.dl[r]) ∧
      ∀ b : StageId, (b.val < 63 * c.val + 3 + 6 * i.val ∨ 63 * c.val + 8 + 6 * i.val < b.val) → t.bq[b] = s.bq[b]

/-- R235, R236: `RV_STEP` completes on a prepared hardware with the lane's ten tap rings allocated, for a finite input.
It answers the sum of the ten tap outputs, each scaled by the lane's reverb level, added in the order of the taps from
+0.0; every tap moves as in `TAP_STEP`; the lane's main line, user and general filters and registers do not. -/
def Obligations.ReverbStepSumsTheTenTaps : Prop :=
  ∀ (c : Lane) (u : F32) (s : State), s.life ≠ .unprep → (∀ i : TapId, (s.rb[tapRing c i]).cap ≠ 0) →
    F32.isFinite u = true →
    let term (i : TapId) : F32 := F32.mul (s.ch[c]).rlS (s.tapOut c i)
    let sum := F32.add (F32.add (F32.add (F32.add (F32.add (F32.add (F32.add (F32.add (F32.add (F32.add Config.f0 (term 0))
      (term 1)) (term 2)) (term 3)) (term 4)) (term 5)) (term 6)) (term 7)) (term 8)) (term 9)
    ∃ t, exec (.rvStep c u) s = .next t ∧
      t = { s with rb := t.rb, dl := t.dl, bq := t.bq, log := ⟨s.port, .ok, sum⟩ :: s.log } ∧
      (∀ i : TapId,
        t.dl[tapRing c i] = s.tapTime c i ∧
        t.rb[tapRing c i] = (s.rb[tapRing c i]).write (F32.add u (F32.mul (Config.decay i) (s.tapOut c i))) ∧
        (∀ k : Fin 5, t.bq[apStage c i k] = (s.bq[apStage c i k]).push (s.tapSignal c i k.val)) ∧
        t.bq[tlpStage c i] = (s.bq[tlpStage c i]).push (s.tapSignal c i 5)) ∧
      (∀ r : RingId, (∀ i : TapId, r ≠ tapRing c i) → t.rb[r] = s.rb[r] ∧ t.dl[r] = s.dl[r]) ∧
      ∀ b : StageId, (b.val / 63 ≠ c.val ∨ b.val % 63 < 3) → t.bq[b] = s.bq[b]

/-! ## Numbers -/

/-- R7: each of `+`, `-`, `*`, `/` on finite operands is the exact real result rounded once, to nearest, ties to even,
with gradual underflow, and to an infinity on overflow. -/
def Obligations.ArithmeticRoundsToNearestEven : Prop :=
  ∀ a b : F32, F32.isFinite a = true → F32.isFinite b = true →
    F32.RoundsTo ((a.val : ℝ) + b.val) (F32.add a b) ∧ F32.RoundsTo ((a.val : ℝ) - b.val) (F32.sub a b) ∧
    F32.RoundsTo ((a.val : ℝ) * b.val) (F32.mul a b) ∧ (b.val ≠ 0 → F32.RoundsTo ((a.val : ℝ) / b.val) (F32.div a b))

/-- R6, R9, R234: the constants are the F32 values nearest to the numbers the rules name, and the decay gains fall from
tap to tap. -/
def Obligations.ConstantsAreTheNearestValues : Prop :=
  F32.RoundsTo Real.pi Config.fPi ∧ F32.RoundsTo (2 * Real.pi) Config.fTwoPi ∧ Config.fTwoPi.val = 2 * Config.fPi.val ∧
  F32.RoundsTo (1 / Real.sqrt 2) Config.qButter ∧ F32.RoundsTo 0.45 Config.f045 ∧ F32.RoundsTo 0.1 Config.fTenth ∧
  F32.RoundsTo 0.01 Config.tauGen ∧ F32.RoundsTo 0.001 Config.tauSml ∧ F32.RoundsTo 0.005 Config.rvLfoHz ∧
  F32.RoundsTo 0.005 Config.rvLfoDepthMs ∧ Config.tauLrg.val = 1 / 2 ∧ Config.f1.val = 1 ∧ Config.f2.val = 2 ∧
  Config.f3.val = 3 ∧ Config.f20.val = 20 ∧ Config.f1000.val = 1000 ∧ Config.f7000.val = 7000 ∧
  Config.tlpHz.val = 3300 ∧ Config.fRateMax.val = 262144 ∧
  (∀ k : Fin 5, (Config.apHz k).val = 500 + 1125 * k.val) ∧
  (∀ i : TapId, F32.RoundsTo (0.9 - 0.01 * i.val) (Config.decay i)) ∧
  ∀ i j : TapId, i < j → F32.gt (Config.decay i) (Config.decay j) = true

/-- R8 (a) to (e): the five properties of `fsin`, `fexp` and `ftan` that the spec's own derivations use, of the functions
as the model computes them (assumption log 4 and 5). -/
def Obligations.TranscendentalsHaveTheirStatedProperties : Prop :=
  F32.sin Config.f0 = Config.f0 ∧
  (∀ v : F32, F32.isFinite v = true → F32.ge Config.f1 (F32.abs (F32.sin v)) = true) ∧
  (∀ v : F32, F32.isFinite v = true → F32.ge Config.f0 v = true → F32.ge v 0xC2AE0000 = true →
    F32.gt (F32.exp v) Config.f0 = true ∧ F32.ge Config.f1 (F32.exp v) = true) ∧
  F32.exp Config.f0 = Config.f1 ∧ F32.exp (F32.neg Config.f0) = Config.f1 ∧
  (∀ v : F32, F32.gt v Config.f0 = true → F32.ge 0x3FB4F4AC v = true →
    F32.isFinite (F32.tan v) = true ∧ F32.gt (F32.tan v) Config.f0 = true) ∧
  ∀ v : F32, F32.isNaN v = true →
    F32.isNaN (F32.sin v) = true ∧ F32.isNaN (F32.exp v) = true ∧ F32.isNaN (F32.tan v) = true

/-- R211: the wrapped phase is the exact remainder by `TWO_PI`, it lies in `[0, TWO_PI)`, and the wrap of a value
that is not -0.0 is not -0.0. -/
def Obligations.PhaseWrapIsTheExactRemainder : Prop :=
  ∀ p : F32, F32.isFinite p = true → F32.ge p Config.f0 = true →
    (F32.wrap p).val = p.val - Config.fTwoPi.val * (⌊p.val / Config.fTwoPi.val⌋ : ℚ) ∧
    phaseOk (F32.wrap p) ∧ (p.sign = false → (F32.wrap p).sign = false)

/-! ## Invariants of R39 -/

/-- R39 (a) and the canonical form of ring memory, from every state that has them. -/
def Obligations.StepKeepsRingMemory : Prop :=
  ∀ s t : State, s.ringsOk → step s = .next t → t.ringsOk

/-- R36, R39 (d): every phase stays in `[0, TWO_PI)` and is no NaN; the premises are R39 (b) and (f). -/
def Obligations.StepKeepsPhases : Prop :=
  ∀ s t : State, s.sizedOk → s.snapOk → s.phasesOk → step s = .next t → t.phasesOk

/-- R39 (b), (e), (f), (g), (h), each kept by every step on its own, and the lengths of R25. -/
def Obligations.StepKeepsRegisterInvariants : Prop :=
  ∀ s t : State, step s = .next t →
    (s.sizedOk → t.sizedOk) ∧ (s.rampsOk → t.rampsOk) ∧ (s.snapOk → t.snapOk) ∧ (s.peaksOk → t.peaksOk) ∧
    (s.zeroOk → t.zeroOk) ∧ (s.lengthsOk → t.lengthsOk)

/-- The invariants hold right after reset, and the calibration of every state meets the constraints of R6 (its type holds
them; that the reset state holds CAL0 is the model's choice, assumption log 7). -/
def Obligations.ResetMeetsTheInvariants : Prop :=
  State.reset.ringsOk ∧ State.reset.sizedOk ∧ State.reset.phasesOk ∧ State.reset.rampsOk ∧ State.reset.snapOk ∧
  State.reset.peaksOk ∧ State.reset.zeroOk ∧ State.reset.lengthsOk ∧ ∀ s : State, s.cal.Ok

/-! ## Clamps, special operands, conversions -/

/-- R12: `clampF` is the chain of the rule, for bounds that are no NaN. A NaN goes to the lower bound; crossed bounds
give the upper one for every value not below the lower; ordered bounds give a value between them that is the operand
itself where the operand is between them. `clampI` is the middle one of the three integers, for every word. -/
def Obligations.ClampsFollowTheirRule : Prop :=
  (∀ v lo hi : F32, F32.isNaN lo = false → F32.isNaN hi = false →
    F32.clamp v lo hi = (if F32.ge v lo = true then (if F32.gt v hi = true then hi else v) else lo) ∧
    (F32.isNaN v = true → F32.clamp v lo hi = lo) ∧
    (F32.gt lo hi = true → F32.clamp v lo hi = if F32.ge v lo = true then hi else lo) ∧
    (F32.ge hi lo = true → inRange lo hi (F32.clamp v lo hi) ∧ (inRange lo hi v → F32.clamp v lo hi = v))) ∧
  ∀ (w : W32) (n : Nat), n < 2 ^ 31 → (clampDelay w n).toInt = min (max w.toInt 0) (n : Int)

/-- R7 on the operands for which the exact result is no real number or is zero, as the standard that R7 names gives them
(the model's reading, assumption log 16): NaN operands, infinite operands, the invalid operations, division by a
zero, and the sign of a zero, an underflowed product or quotient among them. -/
def Obligations.ArithmeticOnSpecialOperands : Prop :=
  ∀ a b : F32,
    (F32.isNaN a = true ∨ F32.isNaN b = true →
      F32.isNaN (F32.add a b) = true ∧ F32.isNaN (F32.sub a b) = true ∧
      F32.isNaN (F32.mul a b) = true ∧ F32.isNaN (F32.div a b) = true) ∧
    (F32.isInf a = true → F32.isFinite b = true → F32.add a b = a ∧ F32.sub a b = a) ∧
    (F32.isFinite a = true → F32.isInf b = true → F32.add a b = b ∧ F32.sub a b = F32.neg b) ∧
    (F32.isInf a = true → F32.isInf b = true →
      (a.sign = b.sign → F32.add a b = a ∧ F32.isNaN (F32.sub a b) = true) ∧
      (a.sign ≠ b.sign → F32.isNaN (F32.add a b) = true ∧ F32.sub a b = a)) ∧
    (F32.isFinite a = true → F32.isFinite b = true →
      (a.val + b.val = 0 → F32.isZero (F32.add a b) = true ∧ (F32.add a b).sign = (a.sign && b.sign)) ∧
      (a.val - b.val = 0 → F32.isZero (F32.sub a b) = true ∧ (F32.sub a b).sign = (a.sign && !b.sign)) ∧
      (F32.mul a b).sign = xor a.sign b.sign) ∧
    (F32.isInf a = true ∧ F32.isZero b = true ∨ F32.isZero a = true ∧ F32.isInf b = true →
      F32.isNaN (F32.mul a b) = true) ∧
    (F32.isNaN a = false → F32.isNaN b = false → F32.isZero a = false → F32.isZero b = false →
      F32.isInf a = true ∨ F32.isInf b = true →
      F32.isInf (F32.mul a b) = true ∧ (F32.mul a b).sign = xor a.sign b.sign) ∧
    (F32.isInf a = true ∧ F32.isInf b = true ∨ F32.isZero a = true ∧ F32.isZero b = true →
      F32.isNaN (F32.div a b) = true) ∧
    (F32.isInf a = true ∧ F32.isFinite b = true ∨ F32.isFinite a = true ∧ F32.isZero a = false ∧ F32.isZero b = true →
      F32.isInf (F32.div a b) = true ∧ (F32.div a b).sign = xor a.sign b.sign) ∧
    (F32.isFinite a = true ∧ F32.isInf b = true ∨ F32.isZero a = true ∧ F32.isFinite b = true ∧ F32.isZero b = false →
      F32.isZero (F32.div a b) = true ∧ (F32.div a b).sign = xor a.sign b.sign) ∧
    (F32.isFinite a = true → F32.isFinite b = true → F32.isZero b = false → (F32.div a b).sign = xor a.sign b.sign)

/-- R7, R11: what the conversions, the comparisons, `abs` and `neg` are. `toF32` is the nearest value, exact up to 2^24;
`floor` is the integer floor and its F32 is exact; the fraction `d - toF32(floor(d))` is exact and in `[0, 1)` for `d` at
least 0, and +0.0 for every integer-valued `d` (R148 (a), (c); at -0.0 the model's reading, assumption log 17). An ordered
comparison with a NaN is false and `!=` with one is true; finite values compare as the reals they stand for,
so -0 == +0; the infinities are the two ends of the order. `abs` clears the sign bit and `neg` flips it, whatever
the value. -/
def Obligations.ConversionsAndComparisons : Prop :=
  (∀ n : Nat, F32.RoundsTo (n : ℝ) (F32.ofNat n) ∧ (F32.ofNat n).sign = false ∧
    (n ≤ 2 ^ 24 → F32.isFinite (F32.ofNat n) = true ∧ (F32.ofNat n).val = n)) ∧
  (∀ d : F32, F32.isFinite d = true →
    F32.floor d = ⌊d.val⌋ ∧ F32.isFinite (F32.floorF d) = true ∧ (F32.floorF d).val = (⌊d.val⌋ : ℚ) ∧
    (let frac := F32.sub d (F32.floorF d)
     (0 ≤ d.val → frac.val = d.val - ⌊d.val⌋ ∧ F32.ge frac Config.f0 = true ∧ F32.lt frac Config.f1 = true) ∧
     (d.val = ⌊d.val⌋ → frac = Config.f0))) ∧
  (∀ a b : F32, (F32.isNaN a = true ∨ F32.isNaN b = true) →
    F32.lt a b = false ∧ F32.gt a b = false ∧ F32.ge a b = false ∧ F32.feq a b = false ∧ F32.fne a b = true) ∧
  (∀ a b : F32, F32.isFinite a = true → F32.isFinite b = true →
    (F32.lt a b = true ↔ a.val < b.val) ∧ (F32.gt a b = true ↔ b.val < a.val) ∧ (F32.ge a b = true ↔ b.val ≤ a.val) ∧
    (F32.feq a b = true ↔ a.val = b.val) ∧ (F32.fne a b = true ↔ a.val ≠ b.val)) ∧
  (∀ a b : F32, F32.isInf a = true → F32.isNaN b = false →
    (if b = a then
       F32.lt a b = false ∧ F32.gt a b = false ∧ F32.ge a b = true ∧ F32.feq a b = true ∧ F32.fne a b = false
     else
       F32.lt a b = a.sign ∧ F32.gt a b = !a.sign ∧ F32.ge a b = !a.sign ∧ F32.feq a b = false ∧ F32.fne a b = true ∧
       F32.lt b a = !a.sign ∧ F32.gt b a = a.sign ∧ F32.ge b a = a.sign ∧ F32.feq b a = false ∧ F32.fne b a = true)) ∧
  ∀ v : F32,
    (∀ i : Nat, i < 31 → (F32.abs v).getLsbD i = v.getLsbD i ∧ (F32.neg v).getLsbD i = v.getLsbD i) ∧
    (F32.abs v).sign = false ∧ (F32.neg v).sign = !v.sign
end

