-- ==== Sys2Proof/Laws/State.lean ====
section
/-! SUPPORT. One lemma a field for every record update of the state, and what reading an element of a written vector
gives: later proofs unfold no update. The proofs stand as `(rfl)` so that `simp` rewrites with them by congruence: a
definitional check over a whole state would unfold the F32 functions in it. -/

namespace Sys2Proof.Machine.State

variable (s : State)

/-! ### `setRing` -/

@[simp] theorem setRing_life (r : RingId) (g : Ring) : (s.setRing r g).life = s.life := (rfl)
@[simp] theorem setRing_err (r : RingId) (g : Ring) : (s.setRing r g).err = s.err := (rfl)
@[simp] theorem setRing_fs (r : RingId) (g : Ring) : (s.setRing r g).fs = s.fs := (rfl)
@[simp] theorem setRing_maxBlk (r : RingId) (g : Ring) : (s.setRing r g).maxBlk = s.maxBlk := (rfl)
@[simp] theorem setRing_nRamp (r : RingId) (g : Ring) : (s.setRing r g).nRamp = s.nRamp := (rfl)
@[simp] theorem setRing_lastN (r : RingId) (g : Ring) : (s.setRing r g).lastN = s.lastN := (rfl)
@[simp] theorem setRing_cGen (r : RingId) (g : Ring) : (s.setRing r g).cGen = s.cGen := (rfl)
@[simp] theorem setRing_cSml (r : RingId) (g : Ring) : (s.setRing r g).cSml = s.cSml := (rfl)
@[simp] theorem setRing_cLrg (r : RingId) (g : Ring) : (s.setRing r g).cLrg = s.cLrg := (rfl)
@[simp] theorem setRing_a (r : RingId) (g : Ring) : (s.setRing r g).a = s.a := (rfl)
@[simp] theorem setRing_param (r : RingId) (g : Ring) : (s.setRing r g).param = s.param := (rfl)
@[simp] theorem setRing_snap (r : RingId) (g : Ring) : (s.setRing r g).snap = s.snap := (rfl)
@[simp] theorem setRing_rph (r : RingId) (g : Ring) : (s.setRing r g).rph = s.rph := (rfl)
@[simp] theorem setRing_rmod (r : RingId) (g : Ring) : (s.setRing r g).rmod = s.rmod := (rfl)
@[simp] theorem setRing_rb (r : RingId) (g : Ring) : (s.setRing r g).rb = s.rb.set r.val g r.isLt := (rfl)
@[simp] theorem setRing_dl (r : RingId) (g : Ring) : (s.setRing r g).dl = s.dl := (rfl)
@[simp] theorem setRing_bq (r : RingId) (g : Ring) : (s.setRing r g).bq = s.bq := (rfl)
@[simp] theorem setRing_ch (r : RingId) (g : Ring) : (s.setRing r g).ch = s.ch := (rfl)
@[simp] theorem setRing_cal (r : RingId) (g : Ring) : (s.setRing r g).cal = s.cal := (rfl)
@[simp] theorem setRing_input (r : RingId) (g : Ring) : (s.setRing r g).input = s.input := (rfl)
@[simp] theorem setRing_port (r : RingId) (g : Ring) : (s.setRing r g).port = s.port := (rfl)
@[simp] theorem setRing_pos (r : RingId) (g : Ring) : (s.setRing r g).pos = s.pos := (rfl)
@[simp] theorem setRing_log (r : RingId) (g : Ring) : (s.setRing r g).log = s.log := (rfl)

/-! ### `setDl` -/

@[simp] theorem setDl_life (r : RingId) (v : F32) : (s.setDl r v).life = s.life := (rfl)
@[simp] theorem setDl_err (r : RingId) (v : F32) : (s.setDl r v).err = s.err := (rfl)
@[simp] theorem setDl_fs (r : RingId) (v : F32) : (s.setDl r v).fs = s.fs := (rfl)
@[simp] theorem setDl_maxBlk (r : RingId) (v : F32) : (s.setDl r v).maxBlk = s.maxBlk := (rfl)
@[simp] theorem setDl_nRamp (r : RingId) (v : F32) : (s.setDl r v).nRamp = s.nRamp := (rfl)
@[simp] theorem setDl_lastN (r : RingId) (v : F32) : (s.setDl r v).lastN = s.lastN := (rfl)
@[simp] theorem setDl_cGen (r : RingId) (v : F32) : (s.setDl r v).cGen = s.cGen := (rfl)
@[simp] theorem setDl_cSml (r : RingId) (v : F32) : (s.setDl r v).cSml = s.cSml := (rfl)
@[simp] theorem setDl_cLrg (r : RingId) (v : F32) : (s.setDl r v).cLrg = s.cLrg := (rfl)
@[simp] theorem setDl_a (r : RingId) (v : F32) : (s.setDl r v).a = s.a := (rfl)
@[simp] theorem setDl_param (r : RingId) (v : F32) : (s.setDl r v).param = s.param := (rfl)
@[simp] theorem setDl_snap (r : RingId) (v : F32) : (s.setDl r v).snap = s.snap := (rfl)
@[simp] theorem setDl_rph (r : RingId) (v : F32) : (s.setDl r v).rph = s.rph := (rfl)
@[simp] theorem setDl_rmod (r : RingId) (v : F32) : (s.setDl r v).rmod = s.rmod := (rfl)
@[simp] theorem setDl_rb (r : RingId) (v : F32) : (s.setDl r v).rb = s.rb := (rfl)
@[simp] theorem setDl_dl (r : RingId) (v : F32) : (s.setDl r v).dl = s.dl.set r.val v r.isLt := (rfl)
@[simp] theorem setDl_bq (r : RingId) (v : F32) : (s.setDl r v).bq = s.bq := (rfl)
@[simp] theorem setDl_ch (r : RingId) (v : F32) : (s.setDl r v).ch = s.ch := (rfl)
@[simp] theorem setDl_cal (r : RingId) (v : F32) : (s.setDl r v).cal = s.cal := (rfl)
@[simp] theorem setDl_input (r : RingId) (v : F32) : (s.setDl r v).input = s.input := (rfl)
@[simp] theorem setDl_port (r : RingId) (v : F32) : (s.setDl r v).port = s.port := (rfl)
@[simp] theorem setDl_pos (r : RingId) (v : F32) : (s.setDl r v).pos = s.pos := (rfl)
@[simp] theorem setDl_log (r : RingId) (v : F32) : (s.setDl r v).log = s.log := (rfl)

/-! ### `setBq` -/

@[simp] theorem setBq_life (b : StageId) (g : Biquad) : (s.setBq b g).life = s.life := (rfl)
@[simp] theorem setBq_err (b : StageId) (g : Biquad) : (s.setBq b g).err = s.err := (rfl)
@[simp] theorem setBq_fs (b : StageId) (g : Biquad) : (s.setBq b g).fs = s.fs := (rfl)
@[simp] theorem setBq_maxBlk (b : StageId) (g : Biquad) : (s.setBq b g).maxBlk = s.maxBlk := (rfl)
@[simp] theorem setBq_nRamp (b : StageId) (g : Biquad) : (s.setBq b g).nRamp = s.nRamp := (rfl)
@[simp] theorem setBq_lastN (b : StageId) (g : Biquad) : (s.setBq b g).lastN = s.lastN := (rfl)
@[simp] theorem setBq_cGen (b : StageId) (g : Biquad) : (s.setBq b g).cGen = s.cGen := (rfl)
@[simp] theorem setBq_cSml (b : StageId) (g : Biquad) : (s.setBq b g).cSml = s.cSml := (rfl)
@[simp] theorem setBq_cLrg (b : StageId) (g : Biquad) : (s.setBq b g).cLrg = s.cLrg := (rfl)
@[simp] theorem setBq_a (b : StageId) (g : Biquad) : (s.setBq b g).a = s.a := (rfl)
@[simp] theorem setBq_param (b : StageId) (g : Biquad) : (s.setBq b g).param = s.param := (rfl)
@[simp] theorem setBq_snap (b : StageId) (g : Biquad) : (s.setBq b g).snap = s.snap := (rfl)
@[simp] theorem setBq_rph (b : StageId) (g : Biquad) : (s.setBq b g).rph = s.rph := (rfl)
@[simp] theorem setBq_rmod (b : StageId) (g : Biquad) : (s.setBq b g).rmod = s.rmod := (rfl)
@[simp] theorem setBq_rb (b : StageId) (g : Biquad) : (s.setBq b g).rb = s.rb := (rfl)
@[simp] theorem setBq_dl (b : StageId) (g : Biquad) : (s.setBq b g).dl = s.dl := (rfl)
@[simp] theorem setBq_bq (b : StageId) (g : Biquad) : (s.setBq b g).bq = s.bq.set b.val g b.isLt := (rfl)
@[simp] theorem setBq_ch (b : StageId) (g : Biquad) : (s.setBq b g).ch = s.ch := (rfl)
@[simp] theorem setBq_cal (b : StageId) (g : Biquad) : (s.setBq b g).cal = s.cal := (rfl)
@[simp] theorem setBq_input (b : StageId) (g : Biquad) : (s.setBq b g).input = s.input := (rfl)
@[simp] theorem setBq_port (b : StageId) (g : Biquad) : (s.setBq b g).port = s.port := (rfl)
@[simp] theorem setBq_pos (b : StageId) (g : Biquad) : (s.setBq b g).pos = s.pos := (rfl)
@[simp] theorem setBq_log (b : StageId) (g : Biquad) : (s.setBq b g).log = s.log := (rfl)

/-! ### `setCh` -/

@[simp] theorem setCh_life (c : Lane) (l : Chan) : (s.setCh c l).life = s.life := (rfl)
@[simp] theorem setCh_err (c : Lane) (l : Chan) : (s.setCh c l).err = s.err := (rfl)
@[simp] theorem setCh_fs (c : Lane) (l : Chan) : (s.setCh c l).fs = s.fs := (rfl)
@[simp] theorem setCh_maxBlk (c : Lane) (l : Chan) : (s.setCh c l).maxBlk = s.maxBlk := (rfl)
@[simp] theorem setCh_nRamp (c : Lane) (l : Chan) : (s.setCh c l).nRamp = s.nRamp := (rfl)
@[simp] theorem setCh_lastN (c : Lane) (l : Chan) : (s.setCh c l).lastN = s.lastN := (rfl)
@[simp] theorem setCh_cGen (c : Lane) (l : Chan) : (s.setCh c l).cGen = s.cGen := (rfl)
@[simp] theorem setCh_cSml (c : Lane) (l : Chan) : (s.setCh c l).cSml = s.cSml := (rfl)
@[simp] theorem setCh_cLrg (c : Lane) (l : Chan) : (s.setCh c l).cLrg = s.cLrg := (rfl)
@[simp] theorem setCh_a (c : Lane) (l : Chan) : (s.setCh c l).a = s.a := (rfl)
@[simp] theorem setCh_param (c : Lane) (l : Chan) : (s.setCh c l).param = s.param := (rfl)
@[simp] theorem setCh_snap (c : Lane) (l : Chan) : (s.setCh c l).snap = s.snap := (rfl)
@[simp] theorem setCh_rph (c : Lane) (l : Chan) : (s.setCh c l).rph = s.rph := (rfl)
@[simp] theorem setCh_rmod (c : Lane) (l : Chan) : (s.setCh c l).rmod = s.rmod := (rfl)
@[simp] theorem setCh_rb (c : Lane) (l : Chan) : (s.setCh c l).rb = s.rb := (rfl)
@[simp] theorem setCh_dl (c : Lane) (l : Chan) : (s.setCh c l).dl = s.dl := (rfl)
@[simp] theorem setCh_bq (c : Lane) (l : Chan) : (s.setCh c l).bq = s.bq := (rfl)
@[simp] theorem setCh_ch (c : Lane) (l : Chan) : (s.setCh c l).ch = s.ch.set c.val l c.isLt := (rfl)
@[simp] theorem setCh_cal (c : Lane) (l : Chan) : (s.setCh c l).cal = s.cal := (rfl)
@[simp] theorem setCh_input (c : Lane) (l : Chan) : (s.setCh c l).input = s.input := (rfl)
@[simp] theorem setCh_port (c : Lane) (l : Chan) : (s.setCh c l).port = s.port := (rfl)
@[simp] theorem setCh_pos (c : Lane) (l : Chan) : (s.setCh c l).pos = s.pos := (rfl)
@[simp] theorem setCh_log (c : Lane) (l : Chan) : (s.setCh c l).log = s.log := (rfl)

/-! ### `setArg` -/

@[simp] theorem setArg_life (k : ArgId) (v : W32) : (s.setArg k v).life = s.life := (rfl)
@[simp] theorem setArg_err (k : ArgId) (v : W32) : (s.setArg k v).err = s.err := (rfl)
@[simp] theorem setArg_fs (k : ArgId) (v : W32) : (s.setArg k v).fs = s.fs := (rfl)
@[simp] theorem setArg_maxBlk (k : ArgId) (v : W32) : (s.setArg k v).maxBlk = s.maxBlk := (rfl)
@[simp] theorem setArg_nRamp (k : ArgId) (v : W32) : (s.setArg k v).nRamp = s.nRamp := (rfl)
@[simp] theorem setArg_lastN (k : ArgId) (v : W32) : (s.setArg k v).lastN = s.lastN := (rfl)
@[simp] theorem setArg_cGen (k : ArgId) (v : W32) : (s.setArg k v).cGen = s.cGen := (rfl)
@[simp] theorem setArg_cSml (k : ArgId) (v : W32) : (s.setArg k v).cSml = s.cSml := (rfl)
@[simp] theorem setArg_cLrg (k : ArgId) (v : W32) : (s.setArg k v).cLrg = s.cLrg := (rfl)
@[simp] theorem setArg_a (k : ArgId) (v : W32) : (s.setArg k v).a = s.a.set k.val v k.isLt := (rfl)
@[simp] theorem setArg_param (k : ArgId) (v : W32) : (s.setArg k v).param = s.param := (rfl)
@[simp] theorem setArg_snap (k : ArgId) (v : W32) : (s.setArg k v).snap = s.snap := (rfl)
@[simp] theorem setArg_rph (k : ArgId) (v : W32) : (s.setArg k v).rph = s.rph := (rfl)
@[simp] theorem setArg_rmod (k : ArgId) (v : W32) : (s.setArg k v).rmod = s.rmod := (rfl)
@[simp] theorem setArg_rb (k : ArgId) (v : W32) : (s.setArg k v).rb = s.rb := (rfl)
@[simp] theorem setArg_dl (k : ArgId) (v : W32) : (s.setArg k v).dl = s.dl := (rfl)
@[simp] theorem setArg_bq (k : ArgId) (v : W32) : (s.setArg k v).bq = s.bq := (rfl)
@[simp] theorem setArg_ch (k : ArgId) (v : W32) : (s.setArg k v).ch = s.ch := (rfl)
@[simp] theorem setArg_cal (k : ArgId) (v : W32) : (s.setArg k v).cal = s.cal := (rfl)
@[simp] theorem setArg_input (k : ArgId) (v : W32) : (s.setArg k v).input = s.input := (rfl)
@[simp] theorem setArg_port (k : ArgId) (v : W32) : (s.setArg k v).port = s.port := (rfl)
@[simp] theorem setArg_pos (k : ArgId) (v : W32) : (s.setArg k v).pos = s.pos := (rfl)
@[simp] theorem setArg_log (k : ArgId) (v : W32) : (s.setArg k v).log = s.log := (rfl)

/-! ### `setParam` -/

@[simp] theorem setParam_life (p : ParamId) (v : W32) : (s.setParam p v).life = s.life := (rfl)
@[simp] theorem setParam_err (p : ParamId) (v : W32) : (s.setParam p v).err = s.err := (rfl)
@[simp] theorem setParam_fs (p : ParamId) (v : W32) : (s.setParam p v).fs = s.fs := (rfl)
@[simp] theorem setParam_maxBlk (p : ParamId) (v : W32) : (s.setParam p v).maxBlk = s.maxBlk := (rfl)
@[simp] theorem setParam_nRamp (p : ParamId) (v : W32) : (s.setParam p v).nRamp = s.nRamp := (rfl)
@[simp] theorem setParam_lastN (p : ParamId) (v : W32) : (s.setParam p v).lastN = s.lastN := (rfl)
@[simp] theorem setParam_cGen (p : ParamId) (v : W32) : (s.setParam p v).cGen = s.cGen := (rfl)
@[simp] theorem setParam_cSml (p : ParamId) (v : W32) : (s.setParam p v).cSml = s.cSml := (rfl)
@[simp] theorem setParam_cLrg (p : ParamId) (v : W32) : (s.setParam p v).cLrg = s.cLrg := (rfl)
@[simp] theorem setParam_a (p : ParamId) (v : W32) : (s.setParam p v).a = s.a := (rfl)
@[simp] theorem setParam_param (p : ParamId) (v : W32) : (s.setParam p v).param = s.param.set p.val v p.isLt := (rfl)
@[simp] theorem setParam_snap (p : ParamId) (v : W32) : (s.setParam p v).snap = s.snap := (rfl)
@[simp] theorem setParam_rph (p : ParamId) (v : W32) : (s.setParam p v).rph = s.rph := (rfl)
@[simp] theorem setParam_rmod (p : ParamId) (v : W32) : (s.setParam p v).rmod = s.rmod := (rfl)
@[simp] theorem setParam_rb (p : ParamId) (v : W32) : (s.setParam p v).rb = s.rb := (rfl)
@[simp] theorem setParam_dl (p : ParamId) (v : W32) : (s.setParam p v).dl = s.dl := (rfl)
@[simp] theorem setParam_bq (p : ParamId) (v : W32) : (s.setParam p v).bq = s.bq := (rfl)
@[simp] theorem setParam_ch (p : ParamId) (v : W32) : (s.setParam p v).ch = s.ch := (rfl)
@[simp] theorem setParam_cal (p : ParamId) (v : W32) : (s.setParam p v).cal = s.cal := (rfl)
@[simp] theorem setParam_input (p : ParamId) (v : W32) : (s.setParam p v).input = s.input := (rfl)
@[simp] theorem setParam_port (p : ParamId) (v : W32) : (s.setParam p v).port = s.port := (rfl)
@[simp] theorem setParam_pos (p : ParamId) (v : W32) : (s.setParam p v).pos = s.pos := (rfl)
@[simp] theorem setParam_log (p : ParamId) (v : W32) : (s.setParam p v).log = s.log := (rfl)

/-! ### `setRamp` -/

@[simp] theorem setRamp_life (c : Lane) (q : RampId) (x : Ramp) : (s.setRamp c q x).life = s.life := (rfl)
@[simp] theorem setRamp_err (c : Lane) (q : RampId) (x : Ramp) : (s.setRamp c q x).err = s.err := (rfl)
@[simp] theorem setRamp_fs (c : Lane) (q : RampId) (x : Ramp) : (s.setRamp c q x).fs = s.fs := (rfl)
@[simp] theorem setRamp_maxBlk (c : Lane) (q : RampId) (x : Ramp) : (s.setRamp c q x).maxBlk = s.maxBlk := (rfl)
@[simp] theorem setRamp_nRamp (c : Lane) (q : RampId) (x : Ramp) : (s.setRamp c q x).nRamp = s.nRamp := (rfl)
@[simp] theorem setRamp_lastN (c : Lane) (q : RampId) (x : Ramp) : (s.setRamp c q x).lastN = s.lastN := (rfl)
@[simp] theorem setRamp_cGen (c : Lane) (q : RampId) (x : Ramp) : (s.setRamp c q x).cGen = s.cGen := (rfl)
@[simp] theorem setRamp_cSml (c : Lane) (q : RampId) (x : Ramp) : (s.setRamp c q x).cSml = s.cSml := (rfl)
@[simp] theorem setRamp_cLrg (c : Lane) (q : RampId) (x : Ramp) : (s.setRamp c q x).cLrg = s.cLrg := (rfl)
@[simp] theorem setRamp_a (c : Lane) (q : RampId) (x : Ramp) : (s.setRamp c q x).a = s.a := (rfl)
@[simp] theorem setRamp_param (c : Lane) (q : RampId) (x : Ramp) : (s.setRamp c q x).param = s.param := (rfl)
@[simp] theorem setRamp_snap (c : Lane) (q : RampId) (x : Ramp) : (s.setRamp c q x).snap = s.snap := (rfl)
@[simp] theorem setRamp_rph (c : Lane) (q : RampId) (x : Ramp) : (s.setRamp c q x).rph = s.rph := (rfl)
@[simp] theorem setRamp_rmod (c : Lane) (q : RampId) (x : Ramp) : (s.setRamp c q x).rmod = s.rmod := (rfl)
@[simp] theorem setRamp_rb (c : Lane) (q : RampId) (x : Ramp) : (s.setRamp c q x).rb = s.rb := (rfl)
@[simp] theorem setRamp_dl (c : Lane) (q : RampId) (x : Ramp) : (s.setRamp c q x).dl = s.dl := (rfl)
@[simp] theorem setRamp_bq (c : Lane) (q : RampId) (x : Ramp) : (s.setRamp c q x).bq = s.bq := (rfl)
@[simp] theorem setRamp_ch (c : Lane) (q : RampId) (x : Ramp) : (s.setRamp c q x).ch = s.ch.set c.val { s.ch[c] with ramp := (s.ch[c]).ramp.set q.val x q.isLt } c.isLt := (rfl)
@[simp] theorem setRamp_cal (c : Lane) (q : RampId) (x : Ramp) : (s.setRamp c q x).cal = s.cal := (rfl)
@[simp] theorem setRamp_input (c : Lane) (q : RampId) (x : Ramp) : (s.setRamp c q x).input = s.input := (rfl)
@[simp] theorem setRamp_port (c : Lane) (q : RampId) (x : Ramp) : (s.setRamp c q x).port = s.port := (rfl)
@[simp] theorem setRamp_pos (c : Lane) (q : RampId) (x : Ramp) : (s.setRamp c q x).pos = s.pos := (rfl)
@[simp] theorem setRamp_log (c : Lane) (q : RampId) (x : Ramp) : (s.setRamp c q x).log = s.log := (rfl)

/-! ### `rbWrite` -/

@[simp] theorem rbWrite_life (r : RingId) (v : W32) : (s.rbWrite r v).life = s.life := (rfl)
@[simp] theorem rbWrite_err (r : RingId) (v : W32) : (s.rbWrite r v).err = s.err := (rfl)
@[simp] theorem rbWrite_fs (r : RingId) (v : W32) : (s.rbWrite r v).fs = s.fs := (rfl)
@[simp] theorem rbWrite_maxBlk (r : RingId) (v : W32) : (s.rbWrite r v).maxBlk = s.maxBlk := (rfl)
@[simp] theorem rbWrite_nRamp (r : RingId) (v : W32) : (s.rbWrite r v).nRamp = s.nRamp := (rfl)
@[simp] theorem rbWrite_lastN (r : RingId) (v : W32) : (s.rbWrite r v).lastN = s.lastN := (rfl)
@[simp] theorem rbWrite_cGen (r : RingId) (v : W32) : (s.rbWrite r v).cGen = s.cGen := (rfl)
@[simp] theorem rbWrite_cSml (r : RingId) (v : W32) : (s.rbWrite r v).cSml = s.cSml := (rfl)
@[simp] theorem rbWrite_cLrg (r : RingId) (v : W32) : (s.rbWrite r v).cLrg = s.cLrg := (rfl)
@[simp] theorem rbWrite_a (r : RingId) (v : W32) : (s.rbWrite r v).a = s.a := (rfl)
@[simp] theorem rbWrite_param (r : RingId) (v : W32) : (s.rbWrite r v).param = s.param := (rfl)
@[simp] theorem rbWrite_snap (r : RingId) (v : W32) : (s.rbWrite r v).snap = s.snap := (rfl)
@[simp] theorem rbWrite_rph (r : RingId) (v : W32) : (s.rbWrite r v).rph = s.rph := (rfl)
@[simp] theorem rbWrite_rmod (r : RingId) (v : W32) : (s.rbWrite r v).rmod = s.rmod := (rfl)
@[simp] theorem rbWrite_rb (r : RingId) (v : W32) : (s.rbWrite r v).rb = s.rb.set r.val ((s.rb[r]).write v) r.isLt := (rfl)
@[simp] theorem rbWrite_dl (r : RingId) (v : W32) : (s.rbWrite r v).dl = s.dl := (rfl)
@[simp] theorem rbWrite_bq (r : RingId) (v : W32) : (s.rbWrite r v).bq = s.bq := (rfl)
@[simp] theorem rbWrite_ch (r : RingId) (v : W32) : (s.rbWrite r v).ch = s.ch := (rfl)
@[simp] theorem rbWrite_cal (r : RingId) (v : W32) : (s.rbWrite r v).cal = s.cal := (rfl)
@[simp] theorem rbWrite_input (r : RingId) (v : W32) : (s.rbWrite r v).input = s.input := (rfl)
@[simp] theorem rbWrite_port (r : RingId) (v : W32) : (s.rbWrite r v).port = s.port := (rfl)
@[simp] theorem rbWrite_pos (r : RingId) (v : W32) : (s.rbWrite r v).pos = s.pos := (rfl)
@[simp] theorem rbWrite_log (r : RingId) (v : W32) : (s.rbWrite r v).log = s.log := (rfl)

/-! ### `dlWrite` -/

@[simp] theorem dlWrite_life (r : RingId) (x g t : F32) : (s.dlWrite r x g t).life = s.life := (rfl)
@[simp] theorem dlWrite_err (r : RingId) (x g t : F32) : (s.dlWrite r x g t).err = s.err := (rfl)
@[simp] theorem dlWrite_fs (r : RingId) (x g t : F32) : (s.dlWrite r x g t).fs = s.fs := (rfl)
@[simp] theorem dlWrite_maxBlk (r : RingId) (x g t : F32) : (s.dlWrite r x g t).maxBlk = s.maxBlk := (rfl)
@[simp] theorem dlWrite_nRamp (r : RingId) (x g t : F32) : (s.dlWrite r x g t).nRamp = s.nRamp := (rfl)
@[simp] theorem dlWrite_lastN (r : RingId) (x g t : F32) : (s.dlWrite r x g t).lastN = s.lastN := (rfl)
@[simp] theorem dlWrite_cGen (r : RingId) (x g t : F32) : (s.dlWrite r x g t).cGen = s.cGen := (rfl)
@[simp] theorem dlWrite_cSml (r : RingId) (x g t : F32) : (s.dlWrite r x g t).cSml = s.cSml := (rfl)
@[simp] theorem dlWrite_cLrg (r : RingId) (x g t : F32) : (s.dlWrite r x g t).cLrg = s.cLrg := (rfl)
@[simp] theorem dlWrite_a (r : RingId) (x g t : F32) : (s.dlWrite r x g t).a = s.a := (rfl)
@[simp] theorem dlWrite_param (r : RingId) (x g t : F32) : (s.dlWrite r x g t).param = s.param := (rfl)
@[simp] theorem dlWrite_snap (r : RingId) (x g t : F32) : (s.dlWrite r x g t).snap = s.snap := (rfl)
@[simp] theorem dlWrite_rph (r : RingId) (x g t : F32) : (s.dlWrite r x g t).rph = s.rph := (rfl)
@[simp] theorem dlWrite_rmod (r : RingId) (x g t : F32) : (s.dlWrite r x g t).rmod = s.rmod := (rfl)
@[simp] theorem dlWrite_rb (r : RingId) (x g t : F32) : (s.dlWrite r x g t).rb = s.rb.set r.val ((s.rb[r]).write (dlWord x g t)) r.isLt := (rfl)
@[simp] theorem dlWrite_dl (r : RingId) (x g t : F32) : (s.dlWrite r x g t).dl = s.dl := (rfl)
@[simp] theorem dlWrite_bq (r : RingId) (x g t : F32) : (s.dlWrite r x g t).bq = s.bq := (rfl)
@[simp] theorem dlWrite_ch (r : RingId) (x g t : F32) : (s.dlWrite r x g t).ch = s.ch := (rfl)
@[simp] theorem dlWrite_cal (r : RingId) (x g t : F32) : (s.dlWrite r x g t).cal = s.cal := (rfl)
@[simp] theorem dlWrite_input (r : RingId) (x g t : F32) : (s.dlWrite r x g t).input = s.input := (rfl)
@[simp] theorem dlWrite_port (r : RingId) (x g t : F32) : (s.dlWrite r x g t).port = s.port := (rfl)
@[simp] theorem dlWrite_pos (r : RingId) (x g t : F32) : (s.dlWrite r x g t).pos = s.pos := (rfl)
@[simp] theorem dlWrite_log (r : RingId) (x g t : F32) : (s.dlWrite r x g t).log = s.log := (rfl)

/-! ### `bqCoef` -/

@[simp] theorem bqCoef_life (b : StageId) (ty : BqType) (f q : F32) : (s.bqCoef b ty f q).life = s.life := (rfl)
@[simp] theorem bqCoef_err (b : StageId) (ty : BqType) (f q : F32) : (s.bqCoef b ty f q).err = s.err := (rfl)
@[simp] theorem bqCoef_fs (b : StageId) (ty : BqType) (f q : F32) : (s.bqCoef b ty f q).fs = s.fs := (rfl)
@[simp] theorem bqCoef_maxBlk (b : StageId) (ty : BqType) (f q : F32) : (s.bqCoef b ty f q).maxBlk = s.maxBlk := (rfl)
@[simp] theorem bqCoef_nRamp (b : StageId) (ty : BqType) (f q : F32) : (s.bqCoef b ty f q).nRamp = s.nRamp := (rfl)
@[simp] theorem bqCoef_lastN (b : StageId) (ty : BqType) (f q : F32) : (s.bqCoef b ty f q).lastN = s.lastN := (rfl)
@[simp] theorem bqCoef_cGen (b : StageId) (ty : BqType) (f q : F32) : (s.bqCoef b ty f q).cGen = s.cGen := (rfl)
@[simp] theorem bqCoef_cSml (b : StageId) (ty : BqType) (f q : F32) : (s.bqCoef b ty f q).cSml = s.cSml := (rfl)
@[simp] theorem bqCoef_cLrg (b : StageId) (ty : BqType) (f q : F32) : (s.bqCoef b ty f q).cLrg = s.cLrg := (rfl)
@[simp] theorem bqCoef_a (b : StageId) (ty : BqType) (f q : F32) : (s.bqCoef b ty f q).a = s.a := (rfl)
@[simp] theorem bqCoef_param (b : StageId) (ty : BqType) (f q : F32) : (s.bqCoef b ty f q).param = s.param := (rfl)
@[simp] theorem bqCoef_snap (b : StageId) (ty : BqType) (f q : F32) : (s.bqCoef b ty f q).snap = s.snap := (rfl)
@[simp] theorem bqCoef_rph (b : StageId) (ty : BqType) (f q : F32) : (s.bqCoef b ty f q).rph = s.rph := (rfl)
@[simp] theorem bqCoef_rmod (b : StageId) (ty : BqType) (f q : F32) : (s.bqCoef b ty f q).rmod = s.rmod := (rfl)
@[simp] theorem bqCoef_rb (b : StageId) (ty : BqType) (f q : F32) : (s.bqCoef b ty f q).rb = s.rb := (rfl)
@[simp] theorem bqCoef_dl (b : StageId) (ty : BqType) (f q : F32) : (s.bqCoef b ty f q).dl = s.dl := (rfl)
@[simp] theorem bqCoef_bq (b : StageId) (ty : BqType) (f q : F32) : (s.bqCoef b ty f q).bq = s.bq.set b.val ((s.bq[b]).tryLoad (bqDesign s.fs ty f q)) b.isLt := (rfl)
@[simp] theorem bqCoef_ch (b : StageId) (ty : BqType) (f q : F32) : (s.bqCoef b ty f q).ch = s.ch := (rfl)
@[simp] theorem bqCoef_cal (b : StageId) (ty : BqType) (f q : F32) : (s.bqCoef b ty f q).cal = s.cal := (rfl)
@[simp] theorem bqCoef_input (b : StageId) (ty : BqType) (f q : F32) : (s.bqCoef b ty f q).input = s.input := (rfl)
@[simp] theorem bqCoef_port (b : StageId) (ty : BqType) (f q : F32) : (s.bqCoef b ty f q).port = s.port := (rfl)
@[simp] theorem bqCoef_pos (b : StageId) (ty : BqType) (f q : F32) : (s.bqCoef b ty f q).pos = s.pos := (rfl)
@[simp] theorem bqCoef_log (b : StageId) (ty : BqType) (f q : F32) : (s.bqCoef b ty f q).log = s.log := (rfl)

/-! ### `respond` -/

@[simp] theorem respond_life (k : RspCode) (d : W32) : (s.respond k d).life = s.life := (rfl)
@[simp] theorem respond_err (k : RspCode) (d : W32) : (s.respond k d).err = s.err := (rfl)
@[simp] theorem respond_fs (k : RspCode) (d : W32) : (s.respond k d).fs = s.fs := (rfl)
@[simp] theorem respond_maxBlk (k : RspCode) (d : W32) : (s.respond k d).maxBlk = s.maxBlk := (rfl)
@[simp] theorem respond_nRamp (k : RspCode) (d : W32) : (s.respond k d).nRamp = s.nRamp := (rfl)
@[simp] theorem respond_lastN (k : RspCode) (d : W32) : (s.respond k d).lastN = s.lastN := (rfl)
@[simp] theorem respond_cGen (k : RspCode) (d : W32) : (s.respond k d).cGen = s.cGen := (rfl)
@[simp] theorem respond_cSml (k : RspCode) (d : W32) : (s.respond k d).cSml = s.cSml := (rfl)
@[simp] theorem respond_cLrg (k : RspCode) (d : W32) : (s.respond k d).cLrg = s.cLrg := (rfl)
@[simp] theorem respond_a (k : RspCode) (d : W32) : (s.respond k d).a = s.a := (rfl)
@[simp] theorem respond_param (k : RspCode) (d : W32) : (s.respond k d).param = s.param := (rfl)
@[simp] theorem respond_snap (k : RspCode) (d : W32) : (s.respond k d).snap = s.snap := (rfl)
@[simp] theorem respond_rph (k : RspCode) (d : W32) : (s.respond k d).rph = s.rph := (rfl)
@[simp] theorem respond_rmod (k : RspCode) (d : W32) : (s.respond k d).rmod = s.rmod := (rfl)
@[simp] theorem respond_rb (k : RspCode) (d : W32) : (s.respond k d).rb = s.rb := (rfl)
@[simp] theorem respond_dl (k : RspCode) (d : W32) : (s.respond k d).dl = s.dl := (rfl)
@[simp] theorem respond_bq (k : RspCode) (d : W32) : (s.respond k d).bq = s.bq := (rfl)
@[simp] theorem respond_ch (k : RspCode) (d : W32) : (s.respond k d).ch = s.ch := (rfl)
@[simp] theorem respond_cal (k : RspCode) (d : W32) : (s.respond k d).cal = s.cal := (rfl)
@[simp] theorem respond_input (k : RspCode) (d : W32) : (s.respond k d).input = s.input := (rfl)
@[simp] theorem respond_port (k : RspCode) (d : W32) : (s.respond k d).port = s.port := (rfl)
@[simp] theorem respond_pos (k : RspCode) (d : W32) : (s.respond k d).pos = s.pos := (rfl)
@[simp] theorem respond_log (k : RspCode) (d : W32) : (s.respond k d).log = ⟨s.port, k, d⟩ :: s.log := (rfl)

/-! ### `refuse` -/

@[simp] theorem refuse_life (e : ErrCode) : (s.refuse e).life = s.life := (rfl)
@[simp] theorem refuse_err (e : ErrCode) : (s.refuse e).err = s.err.set e := (rfl)
@[simp] theorem refuse_fs (e : ErrCode) : (s.refuse e).fs = s.fs := (rfl)
@[simp] theorem refuse_maxBlk (e : ErrCode) : (s.refuse e).maxBlk = s.maxBlk := (rfl)
@[simp] theorem refuse_nRamp (e : ErrCode) : (s.refuse e).nRamp = s.nRamp := (rfl)
@[simp] theorem refuse_lastN (e : ErrCode) : (s.refuse e).lastN = s.lastN := (rfl)
@[simp] theorem refuse_cGen (e : ErrCode) : (s.refuse e).cGen = s.cGen := (rfl)
@[simp] theorem refuse_cSml (e : ErrCode) : (s.refuse e).cSml = s.cSml := (rfl)
@[simp] theorem refuse_cLrg (e : ErrCode) : (s.refuse e).cLrg = s.cLrg := (rfl)
@[simp] theorem refuse_a (e : ErrCode) : (s.refuse e).a = s.a := (rfl)
@[simp] theorem refuse_param (e : ErrCode) : (s.refuse e).param = s.param := (rfl)
@[simp] theorem refuse_snap (e : ErrCode) : (s.refuse e).snap = s.snap := (rfl)
@[simp] theorem refuse_rph (e : ErrCode) : (s.refuse e).rph = s.rph := (rfl)
@[simp] theorem refuse_rmod (e : ErrCode) : (s.refuse e).rmod = s.rmod := (rfl)
@[simp] theorem refuse_rb (e : ErrCode) : (s.refuse e).rb = s.rb := (rfl)
@[simp] theorem refuse_dl (e : ErrCode) : (s.refuse e).dl = s.dl := (rfl)
@[simp] theorem refuse_bq (e : ErrCode) : (s.refuse e).bq = s.bq := (rfl)
@[simp] theorem refuse_ch (e : ErrCode) : (s.refuse e).ch = s.ch := (rfl)
@[simp] theorem refuse_cal (e : ErrCode) : (s.refuse e).cal = s.cal := (rfl)
@[simp] theorem refuse_input (e : ErrCode) : (s.refuse e).input = s.input := (rfl)
@[simp] theorem refuse_port (e : ErrCode) : (s.refuse e).port = s.port := (rfl)
@[simp] theorem refuse_pos (e : ErrCode) : (s.refuse e).pos = s.pos := (rfl)
@[simp] theorem refuse_log (e : ErrCode) : (s.refuse e).log = ⟨s.port, .err e, 0⟩ :: s.log := (rfl)

/-! ### `unprepare` -/

@[simp] theorem unprepare_life : (s.unprepare).life = .unprep := (rfl)
@[simp] theorem unprepare_err : (s.unprepare).err = s.err := (rfl)
@[simp] theorem unprepare_fs : (s.unprepare).fs = s.fs := (rfl)
@[simp] theorem unprepare_maxBlk : (s.unprepare).maxBlk = s.maxBlk := (rfl)
@[simp] theorem unprepare_nRamp : (s.unprepare).nRamp = s.nRamp := (rfl)
@[simp] theorem unprepare_lastN : (s.unprepare).lastN = s.lastN := (rfl)
@[simp] theorem unprepare_cGen : (s.unprepare).cGen = s.cGen := (rfl)
@[simp] theorem unprepare_cSml : (s.unprepare).cSml = s.cSml := (rfl)
@[simp] theorem unprepare_cLrg : (s.unprepare).cLrg = s.cLrg := (rfl)
@[simp] theorem unprepare_a : (s.unprepare).a = s.a := (rfl)
@[simp] theorem unprepare_param : (s.unprepare).param = s.param := (rfl)
@[simp] theorem unprepare_snap : (s.unprepare).snap = s.snap := (rfl)
@[simp] theorem unprepare_rph : (s.unprepare).rph = s.rph := (rfl)
@[simp] theorem unprepare_rmod : (s.unprepare).rmod = s.rmod := (rfl)
@[simp] theorem unprepare_rb : (s.unprepare).rb = Vector.ofFn fun r => (s.rb[r]).free := (rfl)
@[simp] theorem unprepare_dl : (s.unprepare).dl = s.dl := (rfl)
@[simp] theorem unprepare_bq : (s.unprepare).bq = s.bq := (rfl)
@[simp] theorem unprepare_ch : (s.unprepare).ch = s.ch := (rfl)
@[simp] theorem unprepare_cal : (s.unprepare).cal = s.cal := (rfl)
@[simp] theorem unprepare_input : (s.unprepare).input = s.input := (rfl)
@[simp] theorem unprepare_port : (s.unprepare).port = s.port := (rfl)
@[simp] theorem unprepare_pos : (s.unprepare).pos = s.pos := (rfl)
@[simp] theorem unprepare_log : (s.unprepare).log = s.log := (rfl)

/-! ### `accept` -/

@[simp] theorem accept_life (p : Port) (rest : List Event) : (s.accept p rest).life = s.life := (rfl)
@[simp] theorem accept_err (p : Port) (rest : List Event) : (s.accept p rest).err = s.err := (rfl)
@[simp] theorem accept_fs (p : Port) (rest : List Event) : (s.accept p rest).fs = s.fs := (rfl)
@[simp] theorem accept_maxBlk (p : Port) (rest : List Event) : (s.accept p rest).maxBlk = s.maxBlk := (rfl)
@[simp] theorem accept_nRamp (p : Port) (rest : List Event) : (s.accept p rest).nRamp = s.nRamp := (rfl)
@[simp] theorem accept_lastN (p : Port) (rest : List Event) : (s.accept p rest).lastN = s.lastN := (rfl)
@[simp] theorem accept_cGen (p : Port) (rest : List Event) : (s.accept p rest).cGen = s.cGen := (rfl)
@[simp] theorem accept_cSml (p : Port) (rest : List Event) : (s.accept p rest).cSml = s.cSml := (rfl)
@[simp] theorem accept_cLrg (p : Port) (rest : List Event) : (s.accept p rest).cLrg = s.cLrg := (rfl)
@[simp] theorem accept_a (p : Port) (rest : List Event) : (s.accept p rest).a = s.a := (rfl)
@[simp] theorem accept_param (p : Port) (rest : List Event) : (s.accept p rest).param = s.param := (rfl)
@[simp] theorem accept_snap (p : Port) (rest : List Event) : (s.accept p rest).snap = s.snap := (rfl)
@[simp] theorem accept_rph (p : Port) (rest : List Event) : (s.accept p rest).rph = s.rph := (rfl)
@[simp] theorem accept_rmod (p : Port) (rest : List Event) : (s.accept p rest).rmod = s.rmod := (rfl)
@[simp] theorem accept_rb (p : Port) (rest : List Event) : (s.accept p rest).rb = s.rb := (rfl)
@[simp] theorem accept_dl (p : Port) (rest : List Event) : (s.accept p rest).dl = s.dl := (rfl)
@[simp] theorem accept_bq (p : Port) (rest : List Event) : (s.accept p rest).bq = s.bq := (rfl)
@[simp] theorem accept_ch (p : Port) (rest : List Event) : (s.accept p rest).ch = s.ch := (rfl)
@[simp] theorem accept_cal (p : Port) (rest : List Event) : (s.accept p rest).cal = s.cal := (rfl)
@[simp] theorem accept_input (p : Port) (rest : List Event) : (s.accept p rest).input = rest := (rfl)
@[simp] theorem accept_port (p : Port) (rest : List Event) : (s.accept p rest).port = p := (rfl)
@[simp] theorem accept_pos (p : Port) (rest : List Event) : (s.accept p rest).pos = s.pos + 1 := (rfl)
@[simp] theorem accept_log (p : Port) (rest : List Event) : (s.accept p rest).log = s.log := (rfl)

/-! ### `reverbLfo` -/

@[simp] theorem reverbLfo_life (n : BitVec 16) : (s.reverbLfo n).life = s.life := (rfl)
@[simp] theorem reverbLfo_err (n : BitVec 16) : (s.reverbLfo n).err = s.err := (rfl)
@[simp] theorem reverbLfo_fs (n : BitVec 16) : (s.reverbLfo n).fs = s.fs := (rfl)
@[simp] theorem reverbLfo_maxBlk (n : BitVec 16) : (s.reverbLfo n).maxBlk = s.maxBlk := (rfl)
@[simp] theorem reverbLfo_nRamp (n : BitVec 16) : (s.reverbLfo n).nRamp = s.nRamp := (rfl)
@[simp] theorem reverbLfo_lastN (n : BitVec 16) : (s.reverbLfo n).lastN = s.lastN := (rfl)
@[simp] theorem reverbLfo_cGen (n : BitVec 16) : (s.reverbLfo n).cGen = s.cGen := (rfl)
@[simp] theorem reverbLfo_cSml (n : BitVec 16) : (s.reverbLfo n).cSml = s.cSml := (rfl)
@[simp] theorem reverbLfo_cLrg (n : BitVec 16) : (s.reverbLfo n).cLrg = s.cLrg := (rfl)
@[simp] theorem reverbLfo_a (n : BitVec 16) : (s.reverbLfo n).a = s.a := (rfl)
@[simp] theorem reverbLfo_param (n : BitVec 16) : (s.reverbLfo n).param = s.param := (rfl)
@[simp] theorem reverbLfo_snap (n : BitVec 16) : (s.reverbLfo n).snap = s.snap := (rfl)
@[simp] theorem reverbLfo_rph (n : BitVec 16) : (s.reverbLfo n).rph = lfoNext s.fs s.rph Config.rvLfoHz n.toNat := (rfl)
@[simp] theorem reverbLfo_rmod (n : BitVec 16) : (s.reverbLfo n).rmod = lfoOut s.rph Config.rvLfoDepthMs := (rfl)
@[simp] theorem reverbLfo_rb (n : BitVec 16) : (s.reverbLfo n).rb = s.rb := (rfl)
@[simp] theorem reverbLfo_dl (n : BitVec 16) : (s.reverbLfo n).dl = s.dl := (rfl)
@[simp] theorem reverbLfo_bq (n : BitVec 16) : (s.reverbLfo n).bq = s.bq := (rfl)
@[simp] theorem reverbLfo_ch (n : BitVec 16) : (s.reverbLfo n).ch = s.ch := (rfl)
@[simp] theorem reverbLfo_cal (n : BitVec 16) : (s.reverbLfo n).cal = s.cal := (rfl)
@[simp] theorem reverbLfo_input (n : BitVec 16) : (s.reverbLfo n).input = s.input := (rfl)
@[simp] theorem reverbLfo_port (n : BitVec 16) : (s.reverbLfo n).port = s.port := (rfl)
@[simp] theorem reverbLfo_pos (n : BitVec 16) : (s.reverbLfo n).pos = s.pos := (rfl)
@[simp] theorem reverbLfo_log (n : BitVec 16) : (s.reverbLfo n).log = s.log := (rfl)

end Sys2Proof.Machine.State

namespace Sys2Proof.Machine

/-- Reading one element of a vector after a write through a `Fin` index. -/
theorem getElem_set_fin {α : Type} {n : Nat} (v : Vector α n) (i j : Fin n) (x : α) :
    (v.set i.val x i.isLt)[j] = if i = j then x else v[j] := by
  simp [Vector.getElem_set, Fin.ext_iff]

/-- Reading the element just written. -/
@[simp] theorem getElem_set_fin_self {α : Type} {n : Nat} (v : Vector α n) (i : Fin n) (x : α) :
    (v.set i.val x i.isLt)[i] = x := by
  simp

/-- Reading another element than the one written. -/
theorem getElem_set_fin_ne {α : Type} {n : Nat} (v : Vector α n) {i j : Fin n} (h : i ≠ j) (x : α) :
    (v.set i.val x i.isLt)[j] = v[j] := by
  rw [getElem_set_fin, if_neg h]

/-- A ring after `setRing`. -/
theorem setRing_get (s : State) (r r' : RingId) (g : Ring) :
    (s.setRing r g).rb[r'] = if r = r' then g else s.rb[r'] := getElem_set_fin ..

/-- A delay time after `setDl`. -/
theorem setDl_get (s : State) (r r' : RingId) (v : F32) :
    (s.setDl r v).dl[r'] = if r = r' then v else s.dl[r'] := getElem_set_fin ..

/-- A stage after `setBq`. -/
theorem setBq_get (s : State) (b b' : StageId) (g : Biquad) :
    (s.setBq b g).bq[b'] = if b = b' then g else s.bq[b'] := getElem_set_fin ..

/-- A lane after `setCh`. -/
theorem setCh_get (s : State) (c c' : Lane) (l : Chan) :
    (s.setCh c l).ch[c'] = if c = c' then l else s.ch[c'] := getElem_set_fin ..

end Sys2Proof.Machine
end

