-- ==== Sys2Proof/Laws/Ops.lean ====
section
/-! SUPPORT. What each shared operation can do, said once: the answer and the refusal, the phase registers, one filter
step, one delay-line write, one tap, and the registers of the other units that each leaves alone. -/

namespace Sys2Proof.Machine

/-! ## Answers -/

/-- An answer is the state with one `OK` response more. -/
theorem answer_eq_next {s t : State} {d : W32} : answer s d = .next t ↔ t = s.respond .ok d := by
  simp [answer, eq_comm]

/-- A refusal is the state with the sticky bit set and one error response more (R252). -/
theorem raise_eq_next {e : ErrCode} {s t : State} : raise e s = .next t ↔ t = s.refuse e := by
  simp [raise, eq_comm]

@[simp] theorem respond_log (s : State) (c : RspCode) (d : W32) :
    (s.respond c d).log = ⟨s.port, c, d⟩ :: s.log := (rfl)
@[simp] theorem refuse_log (s : State) (e : ErrCode) :
    (s.refuse e).log = ⟨s.port, .err e, 0⟩ :: s.log := (rfl)
@[simp] theorem refuse_err (s : State) (e : ErrCode) : (s.refuse e).err = s.err.set e := (rfl)

/-! ## Numbering -/

theorem mainRing_val (c : Lane) : (mainRing c).val = 11 * c.val := (rfl)
theorem tapRing_val (c : Lane) (i : TapId) : (tapRing c i).val = 11 * c.val + 1 + i.val := (rfl)
theorem lpfStage_val (c : Lane) : (lpfStage c).val = 63 * c.val := (rfl)
theorem hpfStage_val (c : Lane) : (hpfStage c).val = 63 * c.val + 1 := (rfl)
theorem glpfStage_val (c : Lane) : (glpfStage c).val = 63 * c.val + 2 := (rfl)
theorem apStage_val (c : Lane) (i : TapId) (k : Fin 5) : (apStage c i k).val = 63 * c.val + 3 + 6 * i.val + k.val := (rfl)
theorem tlpStage_val (c : Lane) (i : TapId) : (tlpStage c i).val = 63 * c.val + 3 + 6 * i.val + 5 := (rfl)

/-! ## Phase registers -/

theorem setPhase_phase (s : State) (id id' : LfoId) (v : F32) :
    (s.setPhase id v).phase id' = if id = id' then v else s.phase id' := by
  cases id <;> cases id' <;>
    simp only [State.setPhase, State.phase, State.setCh, Fin.val_zero, Fin.val_one, Vector.getElem_set_self,
      if_true, reduceCtorEq, if_false] <;>
    rw [Vector.getElem_set_ne] <;> decide

@[simp] theorem setPhase_phase_self (s : State) (id : LfoId) (v : F32) : (s.setPhase id v).phase id = v := by
  rw [setPhase_phase, if_pos rfl]

/-! ## One filter step (R197) -/

@[simp] theorem bqStep_snd (s : State) (b : StageId) (x : F32) : (s.bqStep b x).2 = (s.bq[b]).out x := by
  rw [State.bqStep]

theorem bqStep_fst (s : State) (b : StageId) (x : F32) : (s.bqStep b x).1 = s.setBq b ((s.bq[b]).push x) := (rfl)

/-- The stages after one filter step: the stage stepped, and no other, has moved. -/
theorem bqStep_bq (s : State) (b b' : StageId) (x : F32) :
    (s.bqStep b x).1.bq[b'] = if b = b' then (s.bq[b]).push x else s.bq[b'] := setBq_get ..

/-- Every field but the stages is left alone by a filter step. -/
theorem bqStep_frame (s : State) (b : StageId) (x : F32) :
    (s.bqStep b x).1 = { s with bq := (s.bqStep b x).1.bq } := (rfl)

/-! ## One delay-line read and write (R155, R143, R157) -/

/-- A read just after the delay time is set. -/
theorem dlRead_setDl (s : State) (r : RingId) (v : F32) :
    (s.setDl r v).dlRead r = (s.rb[r]).readMs s.fs v := by
  rw [State.dlRead, setDl_get, if_pos rfl, State.setDl_rb, State.setDl_fs]

/-- The rings after a delay-line write: the ring written, and no other, has moved. -/
theorem dlWrite_rb (s : State) (r r' : RingId) (x g t : F32) :
    (s.dlWrite r x g t).rb[r'] = if r = r' then (s.rb[r]).write (dlWord x g t) else s.rb[r'] := setRing_get ..

end Sys2Proof.Machine
end

