-- ==== Sys2Proof/Laws/Reverb.lean ====
section
/-! SUPPORT. What a chain of filter stages, one reverb tap and a run of taps do, said once: the output, the registers
moved, and everything left alone. -/

namespace Sys2Proof.Machine

/-! ## A chain of filter stages -/

/-- One sample through a list of stages: the state after it and the output. -/
def State.chain (s : State) (bs : List StageId) (v : F32) : State × F32 :=
  bs.foldl (fun sv b => sv.1.bqStep b sv.2) (s, v)

theorem chain_nil (s : State) (v : F32) : s.chain [] v = (s, v) := (rfl)

theorem chain_cons (s : State) (b : StageId) (bs : List StageId) (v : F32) :
    s.chain (b :: bs) v = (s.setBq b ((s.bq[b]).push v)).chain bs ((s.bq[b]).out v) := by
  simp only [State.chain, List.foldl_cons, State.bqStep]

/-- A chain moves stages only. -/
theorem chain_frame (bs : List StageId) : ∀ (s : State) (v : F32), (s.chain bs v).1 = { s with bq := (s.chain bs v).1.bq } := by
  induction bs with
  | nil => intro s v; rfl
  | cons b bs ih => intro s v; rw [chain_cons, ih]; rfl

/-- A stage outside the chain is left alone. -/
theorem chain_bq_of_notMem {b' : StageId} (bs : List StageId) :
    ∀ (s : State) (v : F32), b' ∉ bs → (s.chain bs v).1.bq[b'] = s.bq[b'] := by
  induction bs with
  | nil => intro s v _; rfl
  | cons b bs ih =>
    intro s v h
    have hb : b ≠ b' := by rintro rfl; exact h List.mem_cons_self
    rw [chain_cons, ih _ _ (fun m => h (List.mem_cons_of_mem _ m)), setBq_get, if_neg hb]

/-- The signal after the stages of a list, read from the state before. -/
def State.signal (s : State) (bs : List StageId) (v : F32) : F32 := bs.foldl (fun v b => (s.bq[b]).out v) v

theorem signal_nil (s : State) (v : F32) : s.signal [] v = v := (rfl)

theorem signal_cons (s : State) (b : StageId) (bs : List StageId) (v : F32) :
    s.signal (b :: bs) v = s.signal bs ((s.bq[b]).out v) := by
  simp only [State.signal, List.foldl_cons]

/-- Moving a stage outside the list does not change the signal through it. -/
theorem signal_setBq {b : StageId} (g : Biquad) (bs : List StageId) :
    ∀ (s : State) (v : F32), b ∉ bs → (s.setBq b g).signal bs v = s.signal bs v := by
  induction bs with
  | nil => intro s v _; rw [signal_nil, signal_nil]
  | cons b' bs ih =>
    intro s v h
    have hb : b ≠ b' := by rintro rfl; exact h List.mem_cons_self
    rw [signal_cons, signal_cons, ih _ _ (fun m => h (List.mem_cons_of_mem _ m)), setBq_get, if_neg hb]

/-- The output of a chain of distinct stages: each works on the history it had before. -/
theorem chain_snd (bs : List StageId) : ∀ (s : State) (v : F32), bs.Nodup → (s.chain bs v).2 = s.signal bs v := by
  induction bs with
  | nil => intro s v _; rfl
  | cons b bs ih =>
    intro s v h
    have hb := (List.nodup_cons.mp h).1
    rw [chain_cons, ih _ _ (List.nodup_cons.mp h).2, signal_setBq _ _ _ _ hb, signal_cons]

/-- A stage of the chain is stepped once, on the signal through the stages before it. -/
theorem chain_bq_of_split {b : StageId} (pre post : List StageId) :
    ∀ (s : State) (v : F32), (pre ++ b :: post).Nodup →
      (s.chain (pre ++ b :: post) v).1.bq[b] = (s.bq[b]).push (s.signal pre v) := by
  induction pre with
  | nil =>
    intro s v h
    rw [List.nil_append, chain_cons, chain_bq_of_notMem _ _ _ (List.nodup_cons.mp h).1, setBq_get, if_pos rfl,
      signal_nil]
  | cons a pre ih =>
    intro s v h
    have h' := List.nodup_cons.mp h
    have ha : a ∉ pre := fun m => h'.1 (List.mem_append_left _ m)
    have hab : a ≠ b := fun e => h'.1 (e ▸ List.mem_append_right _ List.mem_cons_self)
    rw [List.cons_append, chain_cons, ih _ _ h'.2, signal_setBq _ _ _ _ ha, setBq_get, if_neg hab,
      signal_cons]

theorem chain_bq_of_eq {b : StageId} {bs pre post : List StageId} (h : bs = pre ++ b :: post) (hn : bs.Nodup)
    (s : State) (v : F32) : (s.chain bs v).1.bq[b] = (s.bq[b]).push (s.signal pre v) := by
  subst h
  exact chain_bq_of_split pre post s v hn

/-! ## One tap -/

/-- The six stages of a tap in the order the signal passes them (R203). -/
def tapStages (c : Lane) (i : TapId) : List StageId := aps.map (apStage c i) ++ [tlpStage c i]

theorem mem_tapStages {c : Lane} {i : TapId} {b : StageId} :
    b ∈ tapStages c i ↔ 63 * c.val + 3 + 6 * i.val ≤ b.val ∧ b.val ≤ 63 * c.val + 8 + 6 * i.val := by
  simp only [tapStages, aps, List.map_cons, List.map_nil, List.cons_append, List.nil_append, List.mem_cons,
    List.not_mem_nil, or_false, Fin.ext_iff, apStage_val, tlpStage_val]
  simp only [Fin.val_zero, Fin.val_one, Fin.val_two, show (3 : Fin 5).val = 3 from rfl, show (4 : Fin 5).val = 4 from rfl]
  omega

theorem nodup_tapStages (c : Lane) (i : TapId) : (tapStages c i).Nodup := by
  simp only [tapStages, aps, List.map_cons, List.map_nil, List.cons_append, List.nil_append, List.nodup_cons,
    List.mem_cons, List.not_mem_nil, or_false, Fin.ext_iff, apStage_val, tlpStage_val, not_or, not_false_eq_true,
    List.nodup_nil, and_true]
  simp only [Fin.val_zero, Fin.val_one, Fin.val_two, show (3 : Fin 5).val = 3 from rfl, show (4 : Fin 5).val = 4 from rfl]
  omega

theorem tapFilter_eq_chain (s : State) (c : Lane) (i : TapId) (v : F32) :
    s.tapFilter c i v = s.chain (tapStages c i) v := by
  simp only [State.tapFilter, State.chain, tapStages, List.foldl_append, List.foldl_map, List.foldl_cons, List.foldl_nil]

/-- The signal depends on the stages alone. -/
theorem signal_congr {s s' : State} (h : s'.bq = s.bq) (bs : List StageId) (v : F32) :
    s'.signal bs v = s.signal bs v := by
  simp only [State.signal, h]

theorem tapGlide_eq (s : State) (c : Lane) (i : TapId) :
    s.tapGlide c i = s.setDl (tapRing c i) (s.tapTime c i) := by
  simp only [State.tapGlide, State.tapTime, State.tapTarget]

/-- The delayed sample of a tap, read after its delay time has moved. -/
def State.tapRead (s : State) (c : Lane) (i : TapId) : F32 :=
  (s.rb[tapRing c i]).readMs s.fs (s.tapTime c i)

theorem tapSignal_eq (s : State) (c : Lane) (i : TapId) (k : Nat) :
    s.tapSignal c i k = s.signal ((aps.take k).map (apStage c i)) (s.tapRead c i) := by
  simp only [State.tapSignal, State.signal, List.foldl_map, State.tapRead]

theorem tapOut_eq (s : State) (c : Lane) (i : TapId) : s.tapOut c i = s.signal (tapStages c i) (s.tapRead c i) := by
  simp only [State.tapOut, tapSignal_eq, tapStages, State.signal, List.foldl_append, List.foldl_cons, List.foldl_nil,
    show aps.take 5 = aps from rfl]

theorem tapStep_eq (s : State) (c : Lane) (i : TapId) (u : F32) :
    s.tapStep c i u =
      let st := (s.setDl (tapRing c i) (s.tapTime c i)).chain (tapStages c i) (s.tapRead c i)
      (st.1.dlWrite (tapRing c i) u (Config.decay i) st.2, st.2) := by
  simp only [State.tapStep, tapGlide_eq, tapFilter_eq_chain, State.tapRead, dlRead_setDl]

/-- The output of a tap. -/
theorem tapStep_snd (s : State) (c : Lane) (i : TapId) (u : F32) : (s.tapStep c i u).2 = s.tapOut c i := by
  rw [tapStep_eq, tapOut_eq]
  dsimp only
  rw [chain_snd _ _ _ (nodup_tapStages c i), signal_congr (State.setDl_bq ..)]

/-- A tap moves rings, delay times and stages only. -/
theorem tapStep_frame (s : State) (c : Lane) (i : TapId) (u : F32) :
    (s.tapStep c i u).1 =
      { s with rb := (s.tapStep c i u).1.rb, dl := (s.tapStep c i u).1.dl, bq := (s.tapStep c i u).1.bq } := by
  rw [tapStep_eq]
  dsimp only
  rw [State.dlWrite, State.rbWrite, State.setRing, chain_frame, State.setDl]

/-- The delay times after a tap step. -/
theorem tapStep_dl (s : State) (c : Lane) (i : TapId) (u : F32) (r : RingId) :
    (s.tapStep c i u).1.dl[r] = if tapRing c i = r then s.tapTime c i else s.dl[r] := by
  rw [tapStep_eq]
  dsimp only
  rw [State.dlWrite_dl, chain_frame]
  exact setDl_get ..

/-- The rings after a tap step. -/
theorem tapStep_rb (s : State) (c : Lane) (i : TapId) (u : F32) (r : RingId) :
    (s.tapStep c i u).1.rb[r] =
      if tapRing c i = r then (s.rb[tapRing c i]).write (dlWord u (Config.decay i) (s.tapOut c i)) else s.rb[r] := by
  have h := tapStep_snd s c i u
  rw [tapStep_eq] at h ⊢
  dsimp only at h ⊢
  rw [dlWrite_rb, h, chain_frame, State.setDl_rb]

/-- The stages after a tap step. -/
theorem tapStep_bq (s : State) (c : Lane) (i : TapId) (u : F32) :
    (s.tapStep c i u).1.bq = ((s.setDl (tapRing c i) (s.tapTime c i)).chain (tapStages c i) (s.tapRead c i)).1.bq := by
  rw [tapStep_eq]
  dsimp only
  rw [State.dlWrite_bq]

theorem tapStep_bq_of_notMem (s : State) (c : Lane) (i : TapId) (u : F32) {b : StageId} (h : b ∉ tapStages c i) :
    (s.tapStep c i u).1.bq[b] = s.bq[b] := by
  simp only [tapStep_bq]
  rw [chain_bq_of_notMem _ _ _ h, State.setDl_bq]

theorem tapStep_bq_tlp (s : State) (c : Lane) (i : TapId) (u : F32) :
    (s.tapStep c i u).1.bq[tlpStage c i] = (s.bq[tlpStage c i]).push (s.tapSignal c i 5) := by
  simp only [tapStep_bq]
  rw [chain_bq_of_eq (show tapStages c i = aps.map (apStage c i) ++ tlpStage c i :: [] from rfl) (nodup_tapStages c i),
    signal_congr (State.setDl_bq ..), State.setDl_bq, tapSignal_eq, show aps.take 5 = aps from rfl]

theorem tapStep_bq_ap (s : State) (c : Lane) (i : TapId) (u : F32) (k : Fin 5) :
    (s.tapStep c i u).1.bq[apStage c i k] = (s.bq[apStage c i k]).push (s.tapSignal c i k.val) := by
  have hsplit : tapStages c i =
      (aps.take k.val).map (apStage c i) ++ apStage c i k :: ((aps.drop (k.val + 1)).map (apStage c i) ++ [tlpStage c i]) := by
    fin_cases k <;> rfl
  simp only [tapStep_bq]
  rw [chain_bq_of_eq hsplit (nodup_tapStages c i), signal_congr (State.setDl_bq ..), State.setDl_bq, tapSignal_eq]

/-! ## A run of taps -/

/-- The taps of a list in order: the state after them and the running sum. -/
def State.tapsRun (s : State) (c : Lane) (u : F32) (is : List TapId) (acc : F32) : State × F32 :=
  is.foldl (fun sa i =>
    let st := sa.1.tapStep c i u
    (st.1, F32.add sa.2 (F32.mul (st.1.ch[c]).rlS st.2))) (s, acc)

theorem rvSum_eq_tapsRun (s : State) (c : Lane) (u : F32) : s.rvSum c u = s.tapsRun c u taps Config.f0 := (rfl)

theorem tapsRun_cons (s : State) (c : Lane) (u : F32) (i : TapId) (is : List TapId) (acc : F32) :
    s.tapsRun c u (i :: is) acc =
      (s.tapStep c i u).1.tapsRun c u is (F32.add acc (F32.mul ((s.tapStep c i u).1.ch[c]).rlS (s.tapStep c i u).2)) := by
  simp only [State.tapsRun, List.foldl_cons]

/-- A run of taps moves rings, delay times and stages only. -/
theorem tapsRun_frame (c : Lane) (u : F32) (is : List TapId) : ∀ (s : State) (acc : F32),
    (s.tapsRun c u is acc).1 = { s with rb := (s.tapsRun c u is acc).1.rb, dl := (s.tapsRun c u is acc).1.dl,
                                        bq := (s.tapsRun c u is acc).1.bq } := by
  induction is with
  | nil => intro s acc; rfl
  | cons i is ih => intro s acc; rw [tapsRun_cons, ih, tapStep_frame]

theorem tapRing_inj {c : Lane} {i j : TapId} : tapRing c i = tapRing c j ↔ i = j := by
  simp only [Fin.ext_iff, tapRing_val]; omega

theorem tapStages_disjoint {c : Lane} {i j : TapId} (h : i ≠ j) {b : StageId} (hb : b ∈ tapStages c j) :
    b ∉ tapStages c i := by
  have hv : i.val ≠ j.val := fun e => h (Fin.ext e)
  rw [mem_tapStages] at hb ⊢
  omega

theorem apStage_mem (c : Lane) (i : TapId) (k : Fin 5) : apStage c i k ∈ tapStages c i := by
  rw [mem_tapStages, apStage_val]; omega

theorem tlpStage_mem (c : Lane) (i : TapId) : tlpStage c i ∈ tapStages c i := by
  rw [mem_tapStages, tlpStage_val]; omega

/-- The signal through stages that two states have alike. -/
theorem signal_congr_mem {s s' : State} : ∀ (bs : List StageId) (v : F32), (∀ b ∈ bs, s'.bq[b] = s.bq[b]) →
    s'.signal bs v = s.signal bs v
  | [], v, _ => by rw [signal_nil, signal_nil]
  | b :: bs, v, h => by
    rw [signal_cons, signal_cons, h b List.mem_cons_self,
      signal_congr_mem bs _ (fun b' m => h b' (List.mem_cons_of_mem _ m))]

/-- What a tap reads: its own line, ring and stages, and four global registers. -/
structure SameTap (c : Lane) (i : TapId) (s s' : State) : Prop where
  dl : s'.dl[tapRing c i] = s.dl[tapRing c i]
  rb : s'.rb[tapRing c i] = s.rb[tapRing c i]
  bq : ∀ b ∈ tapStages c i, s'.bq[b] = s.bq[b]
  cal : s'.cal = s.cal
  rmod : s'.rmod = s.rmod
  cSml : s'.cSml = s.cSml
  fs : s'.fs = s.fs

/-- A tap does the same in two states that agree on what it reads. -/
theorem SameTap.tap {c : Lane} {i : TapId} {s s' : State} (h : SameTap c i s s') :
    s'.tapTime c i = s.tapTime c i ∧ (∀ k, s'.tapSignal c i k = s.tapSignal c i k) ∧ s'.tapOut c i = s.tapOut c i := by
  have ht : s'.tapTime c i = s.tapTime c i := by simp only [State.tapTime, h.cal, h.rmod, h.cSml, h.dl]
  have hr : s'.tapRead c i = s.tapRead c i := by
    rw [State.tapRead, State.tapRead, ht, h.fs, h.rb]
  refine ⟨ht, fun k => ?_, ?_⟩
  · rw [tapSignal_eq, tapSignal_eq, hr, signal_congr_mem]
    intro b hb
    obtain ⟨k', _, rfl⟩ := List.mem_map.mp hb
    exact h.bq _ (apStage_mem c i k')
  · rw [tapOut_eq, tapOut_eq, hr, signal_congr_mem _ _ h.bq]

/-- A tap reads nothing another tap writes. -/
theorem sameTap_tapStep (s : State) (c : Lane) {i j : TapId} (u : F32) (h : i ≠ j) :
    SameTap c j s (s.tapStep c i u).1 := by
  have hr : tapRing c i ≠ tapRing c j := fun e => h (tapRing_inj.mp e)
  have hf := tapStep_frame s c i u
  exact {
    dl := by rw [tapStep_dl, if_neg hr]
    rb := by rw [tapStep_rb, if_neg hr]
    bq := fun b hb => tapStep_bq_of_notMem _ _ _ _ (tapStages_disjoint h hb)
    cal := by rw [hf]
    rmod := by rw [hf]
    cSml := by rw [hf]
    fs := by rw [hf] }

/-- The running sum of a list of distinct taps, read from the state before. -/
theorem tapsRun_snd (c : Lane) (u : F32) (is : List TapId) : ∀ (s : State) (acc : F32), is.Nodup →
    (s.tapsRun c u is acc).2 =
      is.foldl (fun acc i => F32.add acc (F32.mul (s.ch[c]).rlS (s.tapOut c i))) acc := by
  induction is with
  | nil => intro s acc _; rfl
  | cons i is ih =>
    intro s acc h
    have h' := List.nodup_cons.mp h
    have hch : (s.tapStep c i u).1.ch = s.ch := by rw [tapStep_frame]
    rw [tapsRun_cons, ih _ _ h'.2, List.foldl_cons, tapStep_snd, hch]
    refine List.foldl_ext _ _ _ (fun acc j hj => ?_)
    have hij : i ≠ j := by rintro rfl; exact h'.1 hj
    rw [(sameTap_tapStep s c u hij).tap.2.2]

/-- What one tap's registers are after a run that leaves the tap out. -/
theorem tapsRun_of_notMem (c : Lane) (u : F32) {is : List TapId} : ∀ (s : State) (acc : F32),
    (∀ r : RingId, (∀ i ∈ is, tapRing c i ≠ r) →
      (s.tapsRun c u is acc).1.rb[r] = s.rb[r] ∧ (s.tapsRun c u is acc).1.dl[r] = s.dl[r]) ∧
    ∀ b : StageId, (∀ i ∈ is, b ∉ tapStages c i) → (s.tapsRun c u is acc).1.bq[b] = s.bq[b] := by
  induction is with
  | nil => intro s acc; exact ⟨fun r _ => ⟨rfl, rfl⟩, fun b _ => rfl⟩
  | cons i is ih =>
    intro s acc
    rw [tapsRun_cons]
    obtain ⟨h1, h2⟩ := ih (s.tapStep c i u).1 (F32.add acc (F32.mul ((s.tapStep c i u).1.ch[c]).rlS (s.tapStep c i u).2))
    constructor
    · intro r hr
      have hi := hr i List.mem_cons_self
      obtain ⟨a, b⟩ := h1 r (fun j m => hr j (List.mem_cons_of_mem _ m))
      rw [a, b, tapStep_rb, tapStep_dl, if_neg hi, if_neg hi]
      exact ⟨rfl, rfl⟩
    · intro b hb
      rw [h2 b (fun j m => hb j (List.mem_cons_of_mem _ m)), tapStep_bq_of_notMem _ _ _ _ (hb i List.mem_cons_self)]

/-- What one tap's registers are after a run of distinct taps that holds it: what `tap_step` alone makes of them. -/
theorem tapsRun_of_mem (c : Lane) (u : F32) {j : TapId} {is : List TapId} : ∀ (s : State) (acc : F32), is.Nodup → j ∈ is →
    (s.tapsRun c u is acc).1.dl[tapRing c j] = s.tapTime c j ∧
    (s.tapsRun c u is acc).1.rb[tapRing c j] =
      (s.rb[tapRing c j]).write (dlWord u (Config.decay j) (s.tapOut c j)) ∧
    (s.tapsRun c u is acc).1.bq[tlpStage c j] = (s.bq[tlpStage c j]).push (s.tapSignal c j 5) ∧
    ∀ k : Fin 5, (s.tapsRun c u is acc).1.bq[apStage c j k] = (s.bq[apStage c j k]).push (s.tapSignal c j k.val) := by
  induction is with
  | nil => intro s acc _ h; cases h
  | cons i is ih =>
    intro s acc hn hj
    have hn' := List.nodup_cons.mp hn
    rw [tapsRun_cons]
    by_cases hij : i = j
    · subst hij
      have hout := tapsRun_of_notMem c u (is := is) (s.tapStep c i u).1
        (F32.add acc (F32.mul ((s.tapStep c i u).1.ch[c]).rlS (s.tapStep c i u).2))
      have hne : ∀ j ∈ is, tapRing c j ≠ tapRing c i := fun j m e => hn'.1 (tapRing_inj.mp e ▸ m)
      have hst : ∀ b ∈ tapStages c i, ∀ j ∈ is, b ∉ tapStages c j := fun b hb j m =>
        tapStages_disjoint (by rintro rfl; exact hn'.1 m) hb
      obtain ⟨h1, h2⟩ := hout.1 _ hne
      refine ⟨?_, ?_, ?_, fun k => ?_⟩
      · rw [h2, tapStep_dl, if_pos rfl]
      · rw [h1, tapStep_rb, if_pos rfl]
      · rw [hout.2 _ (hst _ (tlpStage_mem c i)), tapStep_bq_tlp]
      · rw [hout.2 _ (hst _ (apStage_mem c i k)), tapStep_bq_ap]
    · have hjs : j ∈ is := by
        rcases List.mem_cons.mp hj with e | m
        · exact absurd e.symm hij
        · exact m
      obtain ⟨h1, h2, h3, h4⟩ := ih (s.tapStep c i u).1
        (F32.add acc (F32.mul ((s.tapStep c i u).1.ch[c]).rlS (s.tapStep c i u).2)) hn'.2 hjs
      have hr : tapRing c i ≠ tapRing c j := fun e => hij (tapRing_inj.mp e)
      obtain ⟨ht, hs, ho⟩ := (sameTap_tapStep s c u hij).tap
      refine ⟨?_, ?_, ?_, fun k => ?_⟩
      · rw [h1, ht]
      · rw [h2, ho, tapStep_rb, if_neg hr]
      · rw [h3, hs, tapStep_bq_of_notMem _ _ _ _ (tapStages_disjoint hij (tlpStage_mem c j))]
      · rw [h4, hs, tapStep_bq_of_notMem _ _ _ _ (tapStages_disjoint hij (apStage_mem c j k))]

theorem nodup_taps : taps.Nodup := by decide

theorem mem_taps (i : TapId) : i ∈ taps := by fin_cases i <;> decide

end Sys2Proof.Machine
end

