-- ==== Sys2Proof/Laws/Pipeline.lean ====
section
/-! SUPPORT. What one `SAMPLE` does, said once: the lane's registers, its delay times, its rings, its stages, the output,
and the frame (R114). -/

namespace Sys2Proof.Machine

/-! ## The front of the pipeline (R115 to R117) -/

/-- The state when the main line is read: input meter, smoothed values, chorus phase and delay time moved. -/
def State.sampleFront (s : State) (c : Lane) (x : F32) : State := ((s.peakIn c x).smoothLane c).delayGlide c

/-- The front moves delay times and lane registers only. -/
theorem sampleFront_frame (s : State) (c : Lane) (x : F32) :
    s.sampleFront c x = { s with dl := (s.sampleFront c x).dl, ch := (s.sampleFront c x).ch } := (rfl)

theorem sampleFront_dl_other (s : State) (c : Lane) (x : F32) {r : RingId} (h : mainRing c ≠ r) :
    (s.sampleFront c x).dl[r] = s.dl[r] := by
  simp only [State.sampleFront, State.delayGlide, State.smoothLane, State.peakIn]
  rw [setDl_get, if_neg h]
  rfl

theorem sampleFront_ch_other (s : State) (c : Lane) (x : F32) {c' : Lane} (h : c ≠ c') :
    (s.sampleFront c x).ch[c'] = s.ch[c'] := by
  simp only [State.sampleFront, State.delayGlide, State.smoothLane, State.peakIn, State.setDl_ch]
  rw [setCh_get, if_neg h, setCh_get, if_neg h, setCh_get, if_neg h]

/-- The lane's registers when the main line is read. -/
theorem sampleFront_ch (s : State) (c : Lane) (x : F32) :
    (s.sampleFront c x).ch[c] =
      let l := s.ch[c]
      { l with
        fbS := onepole l.fbS (l.ramp[1]).cur s.cSml
        dwS := onepole l.dwS (l.ramp[2]).cur (if l.zero then s.cLrg else s.cGen)
        rlS := onepole l.rlS (l.ramp[3]).cur s.cSml
        lpmS := onepole l.lpmS (l.ramp[4]).cur s.cGen
        hpmS := onepole l.hpmS (l.ramp[5]).cur s.cGen
        chmS := onepole l.chmS (l.ramp[6]).cur s.cGen
        rvmS := onepole l.rvmS (l.ramp[7]).cur s.cGen
        cph := lfoNext s.fs l.cph s.snap[6] 1
        pkIn := peak l.pkIn x } := by
  simp only [State.sampleFront, State.delayGlide, State.smoothLane, State.peakIn, State.setDl_ch, State.setCh_ch,
    State.setCh_cGen, State.setCh_cSml, State.setCh_cLrg, State.setCh_fs, State.setCh_snap, getElem_set_fin_self]

/-- The main line's delay time when it is read. -/
theorem sampleFront_dl (s : State) (c : Lane) (x : F32) :
    (s.sampleFront c x).dl[mainRing c] =
      onepole s.dl[mainRing c]
        (delayTarget { s.ch[c] with chmS := onepole (s.ch[c]).chmS ((s.ch[c]).ramp[6]).cur s.cGen }
          (lfoOut (s.ch[c]).cph s.cal.chorusDepth))
        (if (s.ch[c]).zero then s.cLrg else s.cSml) := by
  simp only [State.sampleFront, State.delayGlide, State.smoothLane, State.peakIn, State.setDl_dl, State.setCh_ch,
    State.setCh_dl, State.setCh_cGen, State.setCh_cSml, State.setCh_cLrg, State.setCh_cal, getElem_set_fin_self,
    delayTarget]

/-! ## The tone filters (R118) -/

theorem lpfStage_ne_hpfStage (c c' : Lane) : lpfStage c ≠ hpfStage c' := by
  simp only [ne_eq, Fin.ext_iff, lpfStage_val, hpfStage_val]; omega

theorem lpfStage_ne_glpfStage (c c' : Lane) : lpfStage c ≠ glpfStage c' := by
  simp only [ne_eq, Fin.ext_iff, lpfStage_val, glpfStage_val]; omega

theorem hpfStage_ne_glpfStage (c c' : Lane) : hpfStage c ≠ glpfStage c' := by
  simp only [ne_eq, Fin.ext_iff, hpfStage_val, glpfStage_val]; omega

/-- The signal into the user high-pass. -/
def State.toneW1 (s : State) (c : Lane) (w : F32) : F32 := mix w ((s.bq[lpfStage c]).out w) (s.ch[c]).lpmS

/-- The signal into the general low-pass. -/
def State.toneW2 (s : State) (c : Lane) (w : F32) : F32 :=
  mix (s.toneW1 c w) ((s.bq[hpfStage c]).out (s.toneW1 c w)) (s.ch[c]).hpmS

theorem tone_eq (s : State) (c : Lane) (w : F32) :
    s.tone c w =
      ((((s.setBq (lpfStage c) ((s.bq[lpfStage c]).push w)).setBq (hpfStage c)
        ((s.bq[hpfStage c]).push (s.toneW1 c w))).setBq (glpfStage c) ((s.bq[glpfStage c]).push (s.toneW2 c w))),
       (s.bq[glpfStage c]).out (s.toneW2 c w)) := by
  simp only [State.tone, State.bqStep, setBq_get, if_neg (lpfStage_ne_hpfStage c c), if_neg (lpfStage_ne_glpfStage c c),
    if_neg (hpfStage_ne_glpfStage c c), State.toneW1, State.toneW2]

theorem tone_snd (s : State) (c : Lane) (w : F32) : (s.tone c w).2 = (s.bq[glpfStage c]).out (s.toneW2 c w) := by
  rw [tone_eq]

/-- The tone filters move stages only. -/
theorem tone_frame (s : State) (c : Lane) (w : F32) : (s.tone c w).1 = { s with bq := (s.tone c w).1.bq } := by
  rw [tone_eq]; rfl

theorem tone_bq (s : State) (c : Lane) (w : F32) (b : StageId) :
    (s.tone c w).1.bq[b] =
      if glpfStage c = b then (s.bq[glpfStage c]).push (s.toneW2 c w)
      else if hpfStage c = b then (s.bq[hpfStage c]).push (s.toneW1 c w)
      else if lpfStage c = b then (s.bq[lpfStage c]).push w
      else s.bq[b] := by
  rw [tone_eq]
  dsimp only
  rw [setBq_get, setBq_get, setBq_get]

/-! ## The whole sample (R114) -/

/-- The main line's read. -/
def State.sampleW (s : State) (c : Lane) (x : F32) : F32 := (s.sampleFront c x).dlRead (mainRing c)

theorem sampleW_eq (s : State) (c : Lane) (x : F32) :
    s.sampleW c x = (s.rb[mainRing c]).readMs s.fs (s.sampleFront c x).dl[mainRing c] := by
  rw [State.sampleW, State.dlRead, sampleFront_frame]

/-- The delayed sample after the tone filters. -/
def State.sampleW3 (s : State) (c : Lane) (x : F32) : F32 := ((s.sampleFront c x).tone c (s.sampleW c x)).2

/-- The state before the taps: the main line is written. -/
def State.sampleMid (s : State) (c : Lane) (x : F32) : State :=
  ((s.sampleFront c x).tone c (s.sampleW c x)).1.dlWrite (mainRing c) x ((s.sampleFront c x).ch[c]).fbS (s.sampleW3 c x)

/-- The lane's sample after the dry/wet mix. -/
def State.sampleY (s : State) (c : Lane) (x : F32) : F32 :=
  mix x (s.sampleW3 c x) ((s.sampleFront c x).ch[c]).dwS

theorem sampleMid_frame (s : State) (c : Lane) (x : F32) :
    s.sampleMid c x = { s.sampleFront c x with rb := (s.sampleMid c x).rb, bq := (s.sampleMid c x).bq } := by
  rw [State.sampleMid, State.dlWrite, State.rbWrite, State.setRing, tone_frame]

theorem sampleMid_rb (s : State) (c : Lane) (x : F32) (r : RingId) :
    (s.sampleMid c x).rb[r] =
      if mainRing c = r then
        (s.rb[mainRing c]).write (dlWord x ((s.sampleFront c x).ch[c]).fbS (s.sampleW3 c x))
      else s.rb[r] := by
  rw [State.sampleMid, dlWrite_rb, tone_frame, sampleFront_frame]

theorem sampleMid_bq (s : State) (c : Lane) (x : F32) :
    (s.sampleMid c x).bq = ((s.sampleFront c x).tone c (s.sampleW c x)).1.bq := by
  rw [State.sampleMid, State.dlWrite_bq]

theorem sampleStep_eq (s : State) (c : Lane) (x : F32) :
    s.sampleStep c x =
      let r := (s.sampleMid c x).rvSum c (s.sampleY c x)
      let out := mixadd (s.sampleY c x) r.2 ((s.sampleFront c x).ch[c]).rvmS
      (r.1.peakOut c out, out) := by
  have h1 : (((s.sampleFront c x).tone c (s.sampleW c x)).1.ch) = (s.sampleFront c x).ch := by rw [tone_frame]
  have h2 : (s.sampleMid c x).ch = (s.sampleFront c x).ch := by rw [sampleMid_frame]
  have h3 : ((s.sampleMid c x).rvSum c (s.sampleY c x)).1.ch = (s.sampleFront c x).ch := by
    rw [rvSum_eq_tapsRun, tapsRun_frame, h2]
  have hm : ((s.sampleFront c x).tone c (s.sampleW c x)).1.dlWrite (mainRing c) x
      (((s.sampleFront c x).tone c (s.sampleW c x)).1.ch[c]).fbS ((s.sampleFront c x).tone c (s.sampleW c x)).2
      = s.sampleMid c x := by simp only [h1]; rfl
  have hy : mix x ((s.sampleFront c x).tone c (s.sampleW c x)).2 ((s.sampleMid c x).ch[c]).dwS = s.sampleY c x := by
    simp only [h2]; rfl
  have : s.sampleStep c x =
      let t := (s.sampleFront c x).tone c (s.sampleW c x)
      let s2 := t.1.dlWrite (mainRing c) x (t.1.ch[c]).fbS t.2
      let y := mix x t.2 (s2.ch[c]).dwS
      let r := s2.rvSum c y
      let out := mixadd y r.2 (r.1.ch[c]).rvmS
      (r.1.peakOut c out, out) := (rfl)
  rw [this]
  simp only [hm, hy, h3]

theorem mainRing_ne_tapRing (c c' : Lane) (i : TapId) : mainRing c ≠ tapRing c' i := by
  simp only [ne_eq, Fin.ext_iff, mainRing_val, tapRing_val]; omega

/-- A stage of a tap is none of the tone filters. -/
theorem tapStages_tone {c : Lane} {i : TapId} {b : StageId} (h : b ∈ tapStages c i) :
    glpfStage c ≠ b ∧ hpfStage c ≠ b ∧ lpfStage c ≠ b := by
  rw [mem_tapStages] at h
  simp only [ne_eq, Fin.ext_iff, lpfStage_val, hpfStage_val, glpfStage_val]
  omega

/-- The part of `SAMPLE` before the taps touches nothing a tap reads. -/
theorem sameTap_sampleMid (s : State) (c : Lane) (x : F32) (i : TapId) : SameTap c i s (s.sampleMid c x) := by
  have hf := sampleMid_frame s c x
  have hf' := sampleFront_frame s c x
  exact {
    dl := by rw [hf]; exact sampleFront_dl_other s c x (mainRing_ne_tapRing c c i)
    rb := by rw [sampleMid_rb, if_neg (mainRing_ne_tapRing c c i)]
    bq := fun b hb => by
      obtain ⟨h1, h2, h3⟩ := tapStages_tone hb
      simp only [sampleMid_bq]
      rw [tone_bq, if_neg h1, if_neg h2, if_neg h3, hf']
    cal := by rw [hf, hf']
    rmod := by rw [hf, hf']
    cSml := by rw [hf, hf']
    fs := by rw [hf, hf'] }

/-- The reverb sum of a sample, read from the state before it. -/
def State.sampleR (s : State) (c : Lane) (x : F32) : F32 :=
  taps.foldl (fun acc i => F32.add acc (F32.mul ((s.sampleFront c x).ch[c]).rlS (s.tapOut c i))) Config.f0

/-- The output of a sample, read from the state before it. -/
def State.sampleOut (s : State) (c : Lane) (x : F32) : F32 :=
  mixadd (s.sampleY c x) (s.sampleR c x) ((s.sampleFront c x).ch[c]).rvmS

theorem sampleR_eq (s : State) (c : Lane) (x : F32) :
    ((s.sampleMid c x).rvSum c (s.sampleY c x)).2 = s.sampleR c x := by
  have h : (s.sampleMid c x).ch = (s.sampleFront c x).ch := by rw [sampleMid_frame]
  rw [rvSum_eq_tapsRun, tapsRun_snd _ _ _ _ _ nodup_taps, h, State.sampleR]
  refine List.foldl_ext _ _ _ (fun acc i _ => ?_)
  rw [(sameTap_sampleMid s c x i).tap.2.2]

/-- The output of `SAMPLE`. -/
theorem sampleStep_snd (s : State) (c : Lane) (x : F32) : (s.sampleStep c x).2 = s.sampleOut c x := by
  rw [sampleStep_eq]
  dsimp only
  rw [sampleR_eq, State.sampleOut]

/-- The state after `SAMPLE`. -/
theorem sampleStep_fst (s : State) (c : Lane) (x : F32) :
    (s.sampleStep c x).1 = ((s.sampleMid c x).tapsRun c (s.sampleY c x) taps Config.f0).1.peakOut c (s.sampleOut c x) := by
  rw [sampleStep_eq]
  dsimp only
  rw [sampleR_eq, State.sampleOut, rvSum_eq_tapsRun]

/-- `SAMPLE` moves rings, delay times, stages and lane registers only. -/
theorem sampleStep_frame (s : State) (c : Lane) (x : F32) :
    (s.sampleStep c x).1 =
      { s with rb := (s.sampleStep c x).1.rb, dl := (s.sampleStep c x).1.dl, bq := (s.sampleStep c x).1.bq,
               ch := (s.sampleStep c x).1.ch } := by
  rw [sampleStep_fst, State.peakOut, State.setCh, tapsRun_frame, sampleMid_frame, sampleFront_frame]

/-- The lanes after `SAMPLE`. -/
theorem sampleStep_ch (s : State) (c : Lane) (x : F32) (c' : Lane) :
    (s.sampleStep c x).1.ch[c'] =
      if c = c' then
        { (s.sampleFront c x).ch[c] with pkOut := peak ((s.sampleFront c x).ch[c]).pkOut (s.sampleOut c x) }
      else s.ch[c'] := by
  have h : ((s.sampleMid c x).tapsRun c (s.sampleY c x) taps Config.f0).1.ch = (s.sampleFront c x).ch := by
    rw [tapsRun_frame, sampleMid_frame]
  rw [sampleStep_fst, State.peakOut, setCh_get]
  simp only [h]
  split
  · rfl
  · rename_i hc; rw [sampleFront_ch_other s c x hc]

/-- Rings, delay times and stages after `SAMPLE` are those after its run of taps. -/
theorem sampleStep_rb_dl_bq (s : State) (c : Lane) (x : F32) :
    (s.sampleStep c x).1.rb = ((s.sampleMid c x).tapsRun c (s.sampleY c x) taps Config.f0).1.rb ∧
    (s.sampleStep c x).1.dl = ((s.sampleMid c x).tapsRun c (s.sampleY c x) taps Config.f0).1.dl ∧
    (s.sampleStep c x).1.bq = ((s.sampleMid c x).tapsRun c (s.sampleY c x) taps Config.f0).1.bq := by
  rw [sampleStep_fst]
  generalize (s.sampleMid c x).tapsRun c (s.sampleY c x) taps Config.f0 = r
  exact ⟨State.setCh_rb .., State.setCh_dl .., State.setCh_bq ..⟩

/-- The registers of one tap after `SAMPLE`. -/
theorem sampleStep_tap (s : State) (c : Lane) (x : F32) (i : TapId) :
    (s.sampleStep c x).1.dl[tapRing c i] = s.tapTime c i ∧
    (s.sampleStep c x).1.rb[tapRing c i] =
      (s.rb[tapRing c i]).write (dlWord (s.sampleY c x) (Config.decay i) (s.tapOut c i)) ∧
    (s.sampleStep c x).1.bq[tlpStage c i] = (s.bq[tlpStage c i]).push (s.tapSignal c i 5) ∧
    ∀ k : Fin 5, (s.sampleStep c x).1.bq[apStage c i k] = (s.bq[apStage c i k]).push (s.tapSignal c i k.val) := by
  obtain ⟨e1, e2, e3⟩ := sampleStep_rb_dl_bq s c x
  have hs := sameTap_sampleMid s c x i
  obtain ⟨h1, h2, h3, h4⟩ := tapsRun_of_mem c (s.sampleY c x) (s.sampleMid c x) Config.f0 nodup_taps (mem_taps i)
  obtain ⟨t1, t2, t3⟩ := hs.tap
  simp only [e1, e2, e3]
  refine ⟨?_, ?_, ?_, fun k => ?_⟩
  · rw [h1, t1]
  · rw [h2, t3, hs.rb]
  · rw [h3, t2, hs.bq _ (tlpStage_mem c i)]
  · rw [h4, t2, hs.bq _ (apStage_mem c i k)]

/-- The rings, delay times and stages of no tap of the lane after `SAMPLE`. -/
theorem sampleStep_rest (s : State) (c : Lane) (x : F32) :
    (∀ r : RingId, (∀ i : TapId, tapRing c i ≠ r) →
      (s.sampleStep c x).1.rb[r] = (s.sampleMid c x).rb[r] ∧ (s.sampleStep c x).1.dl[r] = (s.sampleFront c x).dl[r]) ∧
    ∀ b : StageId, (∀ i : TapId, b ∉ tapStages c i) → (s.sampleStep c x).1.bq[b] = (s.sampleMid c x).bq[b] := by
  obtain ⟨e1, e2, e3⟩ := sampleStep_rb_dl_bq s c x
  obtain ⟨h1, h2⟩ := tapsRun_of_notMem c (s.sampleY c x) (is := taps) (s.sampleMid c x) Config.f0
  have hd : (s.sampleMid c x).dl = (s.sampleFront c x).dl := by rw [sampleMid_frame]
  constructor
  · intro r hr
    obtain ⟨a, b⟩ := h1 r (fun i _ => hr i)
    simp only [e1, e2]
    rw [a, b]
    simp only [hd, and_self]
  · intro b hb
    simp only [e3]
    exact h2 b (fun i _ => hb i)

end Sys2Proof.Machine
end

