-- ==== Sys2Proof/Laws/Block.lean ====
section
/-! SUPPORT. What one lane's block update does, said once (R110, R111, R113): the lane's registers, its delay times, its
two user filters, and everything left alone. -/

namespace Sys2Proof.Machine

/-! ## Ramps (R110) -/

/-- The lane registers after the ramps have moved. -/
def State.rampedLane (s : State) (c : Lane) (n : BitVec 16) (first : Bool) : Chan :=
  { s.ch[c] with
    dparam := s.laneDelay c
    zero := s.laneDelay c == 0
    ramp := Vector.ofFn fun q =>
      ((s.ch[c]).ramp[q]).atBlock first s.nRamp (rampTargets s.snap (s.laneDelay c))[q] n.toNat }

theorem blockRamps_eq (s : State) (c : Lane) (n : BitVec 16) (first : Bool) :
    s.blockRamps c n first = s.setCh c (s.rampedLane c n first) := (rfl)

theorem rampedLane_ramp (s : State) (c : Lane) (n : BitVec 16) (first : Bool) (q : RampId) :
    (s.rampedLane c n first).ramp[q] =
      ((s.ch[c]).ramp[q]).atBlock first s.nRamp (rampTargets s.snap (s.laneDelay c))[q] n.toNat := by
  simp [State.rampedLane]

/-- The ten ramp targets one by one (R110). -/
theorem rampTargets_get (p : Vector W32 13) (d : W32) :
    (rampTargets p d)[(0 : RampId)] = F32.ofNat d.toNat ∧ (rampTargets p d)[(1 : RampId)] = p[2] ∧
    (rampTargets p d)[(2 : RampId)] = (if d = 0 then Config.f0 else p[3]) ∧ (rampTargets p d)[(3 : RampId)] = p[12] ∧
    (rampTargets p d)[(4 : RampId)] = gate p[7] ∧ (rampTargets p d)[(5 : RampId)] = gate p[9] ∧
    (rampTargets p d)[(6 : RampId)] = gate p[5] ∧ (rampTargets p d)[(7 : RampId)] = gate p[11] ∧
    (rampTargets p d)[(8 : RampId)] = p[8] ∧ (rampTargets p d)[(9 : RampId)] = p[10] := by
  unfold rampTargets
  refine ⟨?_, ?_, ?_, ?_, ?_, ?_, ?_, ?_, ?_, ?_⟩ <;> rfl

/-! ## Priming (R113) -/

/-- The lane registers after priming. -/
def Chan.primed (l : Chan) : Chan :=
  { l with
    fbS := (l.ramp[1]).cur, dwS := (l.ramp[2]).cur, rlS := (l.ramp[3]).cur,
    lpmS := (l.ramp[4]).cur, hpmS := (l.ramp[5]).cur, chmS := (l.ramp[6]).cur, rvmS := (l.ramp[7]).cur }

/-- Setting delay times one after another moves delay times only. -/
theorem primeTaps_frame (c : Lane) (is : List TapId) : ∀ s : State,
    is.foldl (fun t i => t.setDl (tapRing c i) (t.tapPrime c i)) s =
      { s with dl := (is.foldl (fun t i => t.setDl (tapRing c i) (t.tapPrime c i)) s).dl } := by
  induction is with
  | nil => intro s; rfl
  | cons i is ih => intro s; rw [List.foldl_cons, ih, State.setDl]

theorem primeTaps_dl_tap (c : Lane) (j : TapId) (is : List TapId) : ∀ s : State,
    (is.foldl (fun t i => t.setDl (tapRing c i) (t.tapPrime c i)) s).dl[tapRing c j] =
      if j ∈ is then s.tapPrime c j else s.dl[tapRing c j] := by
  induction is with
  | nil => intro s; rw [if_neg (List.not_mem_nil)]; rfl
  | cons i is ih =>
    intro s
    have hp : (s.setDl (tapRing c i) (s.tapPrime c i)).tapPrime c j = s.tapPrime c j := rfl
    rw [List.foldl_cons, ih, setDl_get, hp]
    by_cases hi : i = j
    · subst hi
      rw [if_pos rfl, if_pos List.mem_cons_self]
      split <;> rfl
    · rw [if_neg (fun e => hi (tapRing_inj.mp e))]
      simp only [List.mem_cons, Ne.symm hi, false_or]

theorem primeTaps_dl_other (c : Lane) {r : RingId} (h : ∀ i, tapRing c i ≠ r) (is : List TapId) : ∀ s : State,
    (is.foldl (fun t i => t.setDl (tapRing c i) (t.tapPrime c i)) s).dl[r] = s.dl[r] := by
  induction is with
  | nil => intro s; rfl
  | cons i is ih => intro s; rw [List.foldl_cons, ih, setDl_get, if_neg (h i)]

/-- The state before the taps are primed: the lane and its main line. -/
theorem primeLane_eq (s : State) (c : Lane) :
    s.primeLane c =
      taps.foldl (fun t i => t.setDl (tapRing c i) (t.tapPrime c i))
        ((s.setDl (mainRing c) ((s.ch[c]).ramp[0]).cur).setCh c (s.ch[c]).primed) := (rfl)

/-- Priming moves delay times and lane registers only. -/
theorem primeLane_frame (s : State) (c : Lane) :
    s.primeLane c = { s with dl := (s.primeLane c).dl, ch := s.ch.set c.val (s.ch[c]).primed c.isLt } := by
  rw [primeLane_eq, primeTaps_frame, State.setCh, State.setDl]

theorem primeLane_dl_main (s : State) (c : Lane) : (s.primeLane c).dl[mainRing c] = ((s.ch[c]).ramp[0]).cur := by
  rw [primeLane_eq, primeTaps_dl_other c (fun i => (mainRing_ne_tapRing c c i).symm), State.setCh_dl, setDl_get, if_pos rfl]

theorem primeLane_dl_tap (s : State) (c : Lane) (i : TapId) : (s.primeLane c).dl[tapRing c i] = s.tapPrime c i := by
  rw [primeLane_eq, primeTaps_dl_tap, if_pos (mem_taps i)]
  rfl

theorem primeLane_dl_other (s : State) (c : Lane) {r : RingId} (h : r.val / 11 ≠ c.val) :
    (s.primeLane c).dl[r] = s.dl[r] := by
  rw [primeLane_eq, primeTaps_dl_other, State.setCh_dl, setDl_get, if_neg]
  · rintro rfl; exact h (by rw [mainRing_val]; omega)
  · rintro i rfl; exact h (by rw [tapRing_val]; omega)

/-! ## User filters (R111) -/

/-- The rebuilt or kept coefficients of a user filter, and its last applied cutoff. -/
theorem lpfUpdate_eq (s : State) (c : Lane) (first : Bool) :
    s.lpfUpdate c first =
      if first || F32.fne ((s.ch[c]).ramp[8]).cur (s.ch[c]).lpfApp then
        (s.bqCoef (lpfStage c) .lp ((s.ch[c]).ramp[8]).cur Config.qButter).setCh c
          { s.ch[c] with lpfApp := ((s.ch[c]).ramp[8]).cur }
      else s := by
  simp only [State.lpfUpdate, State.bqCoef_ch]

theorem hpfUpdate_eq (s : State) (c : Lane) (first : Bool) :
    s.hpfUpdate c first =
      if first || F32.fne ((s.ch[c]).ramp[9]).cur (s.ch[c]).hpfApp then
        (s.bqCoef (hpfStage c) .hp ((s.ch[c]).ramp[9]).cur Config.qButter).setCh c
          { s.ch[c] with hpfApp := ((s.ch[c]).ramp[9]).cur }
      else s := by
  simp only [State.hpfUpdate, State.bqCoef_ch]

theorem lpfUpdate_frame (s : State) (c : Lane) (first : Bool) :
    s.lpfUpdate c first = { s with bq := (s.lpfUpdate c first).bq, ch := (s.lpfUpdate c first).ch } := by
  rw [lpfUpdate_eq]; split <;> rfl

theorem hpfUpdate_frame (s : State) (c : Lane) (first : Bool) :
    s.hpfUpdate c first = { s with bq := (s.hpfUpdate c first).bq, ch := (s.hpfUpdate c first).ch } := by
  rw [hpfUpdate_eq]; split <;> rfl

theorem lpfUpdate_ch (s : State) (c c' : Lane) (first : Bool) :
    (s.lpfUpdate c first).ch[c'] =
      if c = c' ∧ (first || F32.fne ((s.ch[c]).ramp[8]).cur (s.ch[c]).lpfApp) = true then
        { s.ch[c] with lpfApp := ((s.ch[c]).ramp[8]).cur }
      else s.ch[c'] := by
  by_cases h : (first || F32.fne ((s.ch[c]).ramp[8]).cur (s.ch[c]).lpfApp) = true
  · rw [lpfUpdate_eq, if_pos h, setCh_get, State.bqCoef_ch]
    by_cases hc : c = c'
    · rw [if_pos hc, if_pos ⟨hc, h⟩]
    · rw [if_neg hc, if_neg (fun x => hc x.1)]
  · rw [lpfUpdate_eq, if_neg h, if_neg (fun x => h x.2)]

theorem hpfUpdate_ch (s : State) (c c' : Lane) (first : Bool) :
    (s.hpfUpdate c first).ch[c'] =
      if c = c' ∧ (first || F32.fne ((s.ch[c]).ramp[9]).cur (s.ch[c]).hpfApp) = true then
        { s.ch[c] with hpfApp := ((s.ch[c]).ramp[9]).cur }
      else s.ch[c'] := by
  by_cases h : (first || F32.fne ((s.ch[c]).ramp[9]).cur (s.ch[c]).hpfApp) = true
  · rw [hpfUpdate_eq, if_pos h, setCh_get, State.bqCoef_ch]
    by_cases hc : c = c'
    · rw [if_pos hc, if_pos ⟨hc, h⟩]
    · rw [if_neg hc, if_neg (fun x => hc x.1)]
  · rw [hpfUpdate_eq, if_neg h, if_neg (fun x => h x.2)]

theorem bqCoef_bq (s : State) (b b' : StageId) (ty : BqType) (f q : F32) :
    (s.bqCoef b ty f q).bq[b'] = if b = b' then (s.bq[b]).tryLoad (bqDesign s.fs ty f q) else s.bq[b'] := setBq_get ..

theorem lpfUpdate_bq (s : State) (c : Lane) (first : Bool) (b : StageId) :
    (s.lpfUpdate c first).bq[b] =
      if lpfStage c = b ∧ (first || F32.fne ((s.ch[c]).ramp[8]).cur (s.ch[c]).lpfApp) = true then
        (s.bq[lpfStage c]).tryLoad (bqDesign s.fs .lp ((s.ch[c]).ramp[8]).cur Config.qButter)
      else s.bq[b] := by
  by_cases h : (first || F32.fne ((s.ch[c]).ramp[8]).cur (s.ch[c]).lpfApp) = true
  · rw [lpfUpdate_eq, if_pos h]
    simp only [State.setCh_bq]
    rw [bqCoef_bq]
    by_cases hb : lpfStage c = b
    · rw [if_pos hb, if_pos ⟨hb, h⟩]
    · rw [if_neg hb, if_neg (fun x => hb x.1)]
  · rw [lpfUpdate_eq, if_neg h, if_neg (fun x => h x.2)]

theorem hpfUpdate_bq (s : State) (c : Lane) (first : Bool) (b : StageId) :
    (s.hpfUpdate c first).bq[b] =
      if hpfStage c = b ∧ (first || F32.fne ((s.ch[c]).ramp[9]).cur (s.ch[c]).hpfApp) = true then
        (s.bq[hpfStage c]).tryLoad (bqDesign s.fs .hp ((s.ch[c]).ramp[9]).cur Config.qButter)
      else s.bq[b] := by
  by_cases h : (first || F32.fne ((s.ch[c]).ramp[9]).cur (s.ch[c]).hpfApp) = true
  · rw [hpfUpdate_eq, if_pos h]
    simp only [State.setCh_bq]
    rw [bqCoef_bq]
    by_cases hb : hpfStage c = b
    · rw [if_pos hb, if_pos ⟨hb, h⟩]
    · rw [if_neg hb, if_neg (fun x => hb x.1)]
  · rw [hpfUpdate_eq, if_neg h, if_neg (fun x => h x.2)]

/-! ## One lane, and the whole block -/

/-- The state after a lane's ramps and, on the first block, its priming. -/
def State.laneSet (s : State) (c : Lane) (n : BitVec 16) (first : Bool) : State :=
  if first then (s.blockRamps c n first).primeLane c else s.blockRamps c n first

theorem blockLane_eq (s : State) (c : Lane) (n : BitVec 16) (first : Bool) :
    s.blockLane c n first = (((s.laneSet c n first).lpfUpdate c first).hpfUpdate c first).clearPeaks c := (rfl)

theorem laneSet_frame (s : State) (c : Lane) (n : BitVec 16) (first : Bool) :
    s.laneSet c n first = { s with dl := (s.laneSet c n first).dl, ch := (s.laneSet c n first).ch } := by
  unfold State.laneSet
  split
  · rw [primeLane_frame, blockRamps_eq, State.setCh]
  · rw [blockRamps_eq, State.setCh]

/-- A lane's block update moves delay times, stages and lane registers only. -/
theorem blockLane_frame (s : State) (c : Lane) (n : BitVec 16) (first : Bool) :
    s.blockLane c n first =
      { s with dl := (s.blockLane c n first).dl, bq := (s.blockLane c n first).bq,
               ch := (s.blockLane c n first).ch } := by
  rw [blockLane_eq, State.clearPeaks, State.setCh, hpfUpdate_frame, lpfUpdate_frame, laneSet_frame]

/-- The lane registers before the user filters are looked at. -/
def State.laneSetReg (s : State) (c : Lane) (n : BitVec 16) (first : Bool) : Chan :=
  if first then (s.rampedLane c n first).primed else s.rampedLane c n first

theorem laneSet_ch (s : State) (c c' : Lane) (n : BitVec 16) (first : Bool) :
    (s.laneSet c n first).ch[c'] = if c = c' then s.laneSetReg c n first else s.ch[c'] := by
  unfold State.laneSet State.laneSetReg
  cases first
  · exact setCh_get ..
  · simp only [if_true]
    rw [primeLane_frame, blockRamps_eq]
    dsimp only
    rw [getElem_set_fin, setCh_get, if_pos rfl]
    split
    · rfl
    · rename_i h; rw [setCh_get, if_neg h]

/-- The lane registers after a block (R110, R111). -/
def State.blockReg (s : State) (c : Lane) (n : BitVec 16) (first : Bool) : Chan :=
  let l := s.laneSetReg c n first
  { l with
    lpfApp := if first || F32.fne (l.ramp[8]).cur l.lpfApp then (l.ramp[8]).cur else l.lpfApp
    hpfApp := if first || F32.fne (l.ramp[9]).cur l.hpfApp then (l.ramp[9]).cur else l.hpfApp
    pkIn := 0, pkOut := 0 }

theorem clearPeaks_ch (s : State) (c c' : Lane) :
    (s.clearPeaks c).ch[c'] = if c = c' then { s.ch[c] with pkIn := 0, pkOut := 0 } else s.ch[c'] := setCh_get ..

theorem blockLane_ch (s : State) (c c' : Lane) (n : BitVec 16) (first : Bool) :
    (s.blockLane c n first).ch[c'] = if c = c' then s.blockReg c n first else s.ch[c'] := by
  rw [blockLane_eq, clearPeaks_ch]
  by_cases hc : c = c'
  · subst hc
    rw [if_pos rfl, if_pos rfl, hpfUpdate_ch, lpfUpdate_ch, laneSet_ch, if_pos rfl, State.blockReg]
    by_cases h8 : (first || F32.fne ((s.laneSetReg c n first).ramp[8]).cur (s.laneSetReg c n first).lpfApp) = true
    · simp only [h8, and_self, if_true]
      by_cases h9 : (first || F32.fne ((s.laneSetReg c n first).ramp[9]).cur (s.laneSetReg c n first).hpfApp) = true
      · simp only [h9, and_self, if_true]
      · rw [if_neg (fun x => h9 x.2), if_neg h9]
    · simp only [h8, and_false, if_false, Bool.false_eq_true]
      by_cases h9 : (first || F32.fne ((s.laneSetReg c n first).ramp[9]).cur (s.laneSetReg c n first).hpfApp) = true
      · simp only [h9, and_self, if_true]
      · rw [if_neg (fun x => h9 x.2), if_neg h9]
  · rw [if_neg hc, if_neg hc, hpfUpdate_ch, if_neg (fun x => hc x.1), lpfUpdate_ch, if_neg (fun x => hc x.1), laneSet_ch,
      if_neg hc]

/-- The delay times after a lane's block update. -/
theorem blockLane_dl (s : State) (c : Lane) (n : BitVec 16) (first : Bool) :
    (s.blockLane c n first).dl = (s.laneSet c n first).dl := by
  rw [blockLane_eq, State.clearPeaks, State.setCh_dl, hpfUpdate_frame, lpfUpdate_frame]

theorem laneSet_dl_false (s : State) (c : Lane) (n : BitVec 16) : (s.laneSet c n false).dl = s.dl := (rfl)

theorem laneSet_dl_main (s : State) (c : Lane) (n : BitVec 16) :
    (s.laneSet c n true).dl[mainRing c] = ((s.rampedLane c n true).ramp[0]).cur := by
  have : s.laneSet c n true = (s.blockRamps c n true).primeLane c := (rfl)
  rw [this, primeLane_dl_main, blockRamps_eq, setCh_get, if_pos rfl]

theorem laneSet_dl_tap (s : State) (c : Lane) (n : BitVec 16) (i : TapId) :
    (s.laneSet c n true).dl[tapRing c i] = s.tapPrime c i := by
  have : s.laneSet c n true = (s.blockRamps c n true).primeLane c := (rfl)
  rw [this, primeLane_dl_tap]
  rfl

theorem laneSet_dl_other (s : State) (c : Lane) (n : BitVec 16) (first : Bool) {r : RingId} (h : r.val / 11 ≠ c.val) :
    (s.laneSet c n first).dl[r] = s.dl[r] := by
  cases first
  · rw [laneSet_dl_false]
  · have : s.laneSet c n true = (s.blockRamps c n true).primeLane c := (rfl)
    rw [this, primeLane_dl_other _ _ h, blockRamps_eq, State.setCh_dl]

/-- The stages after a lane's block update: a user filter is rebuilt or kept (R111), every other stage is kept. -/
theorem blockLane_bq (s : State) (c : Lane) (n : BitVec 16) (first : Bool) (b : StageId) :
    (s.blockLane c n first).bq[b] =
      let l := s.laneSetReg c n first
      if hpfStage c = b ∧ (first || F32.fne (l.ramp[9]).cur l.hpfApp) = true then
        (s.bq[hpfStage c]).tryLoad (bqDesign s.fs .hp (l.ramp[9]).cur Config.qButter)
      else if lpfStage c = b ∧ (first || F32.fne (l.ramp[8]).cur l.lpfApp) = true then
        (s.bq[lpfStage c]).tryLoad (bqDesign s.fs .lp (l.ramp[8]).cur Config.qButter)
      else s.bq[b] := by
  have hbq : (s.laneSet c n first).bq = s.bq := by rw [laneSet_frame]
  have hfs : (s.laneSet c n first).fs = s.fs := by rw [laneSet_frame]
  have hch := laneSet_ch s c c n first
  rw [if_pos rfl] at hch
  have hlf : ((s.laneSet c n first).lpfUpdate c first).fs = s.fs := by rw [lpfUpdate_frame, hfs]
  have h9 : (((s.laneSet c n first).lpfUpdate c first).ch[c]).ramp = (s.laneSetReg c n first).ramp ∧
      (((s.laneSet c n first).lpfUpdate c first).ch[c]).hpfApp = (s.laneSetReg c n first).hpfApp := by
    rw [lpfUpdate_ch, hch]
    split <;> exact ⟨rfl, rfl⟩
  rw [blockLane_eq, State.clearPeaks]
  simp only [State.setCh_bq]
  rw [hpfUpdate_bq, lpfUpdate_bq, lpfUpdate_bq, h9.1, h9.2, hlf, hch]
  simp only [hbq, hfs]
  rw [if_neg (c := lpfStage c = hpfStage c ∧ _) (fun x => lpfStage_ne_hpfStage c c x.1)]

/-- The state when the lanes are updated: the snapshot taken, the reverb LFO stepped (R108, R109, R112). -/
def State.blockStart (s : State) (n : BitVec 16) : State := { s with snap := snapshotOf s.param }.reverbLfo n

theorem blockAll_eq (s : State) (n : BitVec 16) :
    s.blockAll n =
      { ((s.blockStart n).blockLane 0 n (s.life == .prep)).blockLane 1 n (s.life == .prep) with lastN := n, life := .run } :=
  (rfl)

theorem blockStart_frame (s : State) (n : BitVec 16) :
    s.blockStart n =
      { s with snap := snapshotOf s.param, rmod := lfoOut s.rph Config.rvLfoDepthMs,
               rph := lfoNext s.fs s.rph Config.rvLfoHz n.toNat } := (rfl)

/-- What a block moves: `SNAP`, `RMOD`, `RPH`, delay times, stages, lanes, `LASTN` and `LIFE`. -/
theorem blockAll_frame (s : State) (n : BitVec 16) :
    s.blockAll n =
      { s with snap := snapshotOf s.param, rmod := lfoOut s.rph Config.rvLfoDepthMs,
               rph := lfoNext s.fs s.rph Config.rvLfoHz n.toNat, dl := (s.blockAll n).dl, bq := (s.blockAll n).bq,
               ch := (s.blockAll n).ch, lastN := n, life := .run } := by
  rw [blockAll_eq, blockLane_frame, blockLane_frame, blockStart_frame]

/-- What a lane's block update reads, alike in two states. -/
structure SameBlock (c : Lane) (s s' : State) : Prop where
  snap : s'.snap = s.snap
  nRamp : s'.nRamp = s.nRamp
  ch : s'.ch[c] = s.ch[c]

theorem SameBlock.laneSetReg {c : Lane} {s s' : State} (h : SameBlock c s s') (n : BitVec 16) (first : Bool) :
    s'.laneSetReg c n first = s.laneSetReg c n first := by
  have hd : s'.laneDelay c = s.laneDelay c := by simp only [State.laneDelay, h.snap]
  have : s'.rampedLane c n first = s.rampedLane c n first := by
    simp only [State.rampedLane, h.ch, h.nRamp, h.snap, hd]
  simp only [State.laneSetReg, this]

theorem SameBlock.blockReg {c : Lane} {s s' : State} (h : SameBlock c s s') (n : BitVec 16) (first : Bool) :
    s'.blockReg c n first = s.blockReg c n first := by
  simp only [State.blockReg, h.laneSetReg]

theorem sameBlock_blockLane (s : State) {c c' : Lane} (h : c' ≠ c) (n : BitVec 16) (first : Bool) :
    SameBlock c s (s.blockLane c' n first) := by
  refine ⟨by rw [blockLane_frame], by rw [blockLane_frame], ?_⟩
  rw [blockLane_ch, if_neg h]

/-- The lanes after a block, read from the state before it. -/
theorem blockAll_ch (s : State) (n : BitVec 16) (c : Lane) :
    (s.blockAll n).ch[c] = (s.blockStart n).blockReg c n (s.life == .prep) := by
  have e : (s.blockAll n).ch = (((s.blockStart n).blockLane 0 n (s.life == .prep)).blockLane 1 n (s.life == .prep)).ch := by
    rw [blockAll_eq]
  simp only [e]
  rw [blockLane_ch, blockLane_ch]
  rcases Fin.exists_fin_two.mp ⟨c, rfl⟩ with h | h
  · subst h
    rw [if_neg (by decide), if_pos rfl]
  · subst h
    rw [if_pos rfl, (sameBlock_blockLane (c := 1) _ (by decide) n _).blockReg]

theorem lane_cases (c : Lane) : c = 0 ∨ c = 1 := by fin_cases c <;> decide

/-- The delay times after a block that is not the first: kept. -/
theorem blockAll_dl_run (s : State) (n : BitVec 16) (h : s.life ≠ .prep) : (s.blockAll n).dl = s.dl := by
  have hf : (s.life == .prep) = false := by simpa using h
  rw [blockAll_eq]
  dsimp only
  rw [blockLane_dl, hf, laneSet_dl_false, blockLane_dl, laneSet_dl_false, blockStart_frame]

/-- The delay times of a lane after the first block (R113). -/
theorem blockAll_dl_prep (s : State) (n : BitVec 16) (h : s.life = .prep) (c : Lane) :
    (s.blockAll n).dl[mainRing c] = (((s.blockStart n).rampedLane c n true).ramp[0]).cur ∧
    ∀ i : TapId, (s.blockAll n).dl[tapRing c i] = (s.blockStart n).tapPrime c i := by
  have hf : (s.life == .prep) = true := by rw [h]; rfl
  have e : (s.blockAll n).dl = (((s.blockStart n).blockLane 0 n true).laneSet 1 n true).dl := by
    rw [blockAll_eq, hf]
    dsimp only
    rw [blockLane_dl]
  have e0 : ((s.blockStart n).blockLane 0 n true).dl = ((s.blockStart n).laneSet 0 n true).dl := blockLane_dl ..
  have m0 : (mainRing 0).val / 11 ≠ (1 : Lane).val := by decide
  have t0 : ∀ i, (tapRing 0 i).val / 11 ≠ (1 : Lane).val := by decide
  simp only [e]
  rcases lane_cases c with hc | hc
  · subst hc
    refine ⟨?_, fun i => ?_⟩
    · rw [laneSet_dl_other _ _ _ _ m0]
      simp only [e0]
      rw [laneSet_dl_main]
    · rw [laneSet_dl_other _ _ _ _ (t0 i)]
      simp only [e0]
      rw [laneSet_dl_tap]
  · subst hc
    have hs := sameBlock_blockLane (s.blockStart n) (c := 1) (c' := 0) (by decide) n true
    have hl : ((s.blockStart n).blockLane 0 n true).rampedLane 1 n true = (s.blockStart n).rampedLane 1 n true := by
      have hd : ((s.blockStart n).blockLane 0 n true).laneDelay 1 = (s.blockStart n).laneDelay 1 := by
        simp only [State.laneDelay, hs.snap]
      simp only [State.rampedLane, hs.ch, hs.nRamp, hs.snap, hd]
    refine ⟨?_, fun i => ?_⟩
    · rw [laneSet_dl_main, hl]
    · rw [laneSet_dl_tap]
      have hcal : ((s.blockStart n).blockLane 0 n true).cal = (s.blockStart n).cal := by rw [blockLane_frame]
      have hm : ((s.blockStart n).blockLane 0 n true).rmod = (s.blockStart n).rmod := by rw [blockLane_frame]
      simp only [State.tapPrime, hcal, hm]

/-- The stages of a lane after a block (R111). -/
theorem blockAll_bq (s : State) (n : BitVec 16) (b : StageId) (c : Lane) (hb : b.val / 63 = c.val) :
    (s.blockAll n).bq[b] =
      let l := (s.blockStart n).laneSetReg c n (s.life == .prep)
      if hpfStage c = b ∧ (s.life == .prep || F32.fne (l.ramp[9]).cur l.hpfApp) = true then
        (s.bq[hpfStage c]).tryLoad (bqDesign s.fs .hp (l.ramp[9]).cur Config.qButter)
      else if lpfStage c = b ∧ (s.life == .prep || F32.fne (l.ramp[8]).cur l.lpfApp) = true then
        (s.bq[lpfStage c]).tryLoad (bqDesign s.fs .lp (l.ramp[8]).cur Config.qButter)
      else s.bq[b] := by
  have e : (s.blockAll n).bq = (((s.blockStart n).blockLane 0 n (s.life == .prep)).blockLane 1 n (s.life == .prep)).bq := by
    rw [blockAll_eq]
  have hfs : ((s.blockStart n).blockLane 0 n (s.life == .prep)).fs = s.fs := by rw [blockLane_frame, blockStart_frame]
  simp only [e]
  rcases lane_cases c with hc | hc
  · subst hc
    have h1 : hpfStage 1 ≠ b := by rintro rfl; exact absurd hb (by decide)
    have h2 : lpfStage 1 ≠ b := by rintro rfl; exact absurd hb (by decide)
    rw [blockLane_bq]
    dsimp only
    rw [if_neg (fun x => h1 x.1), if_neg (fun x => h2 x.1), blockLane_bq, blockStart_frame]
  · subst hc
    have hs := sameBlock_blockLane (s.blockStart n) (c := 1) (c' := 0) (by decide) n (s.life == .prep)
    have hk : ∀ b' : StageId, b'.val / 63 = 1 → ((s.blockStart n).blockLane 0 n (s.life == .prep)).bq[b'] = s.bq[b'] := by
      intro b' hb'
      have h1 : hpfStage 0 ≠ b' := by rintro rfl; exact absurd hb' (by decide)
      have h2 : lpfStage 0 ≠ b' := by rintro rfl; exact absurd hb' (by decide)
      rw [blockLane_bq]
      dsimp only
      rw [if_neg (fun x => h1 x.1), if_neg (fun x => h2 x.1), blockStart_frame]
    rw [blockLane_bq, hs.laneSetReg, hfs, hk b hb, hk (hpfStage 1) (by decide), hk (lpfStage 1) (by decide)]

end Sys2Proof.Machine
end

