-- ==== Sys2Proof/Laws/Calibration.lean ====
section
/-! SUPPORT. The constraints of R6, from the check that every calibration of a run carries. -/

namespace Sys2Proof

/-- The check of a calibration says that the constraints of R6 hold. -/
theorem Calibration.ok_of_valid {k : Calibration} (h : k.valid = true) : k.Ok := by
  simp only [Calibration.valid, Bool.and_eq_true, decide_eq_true_eq] at h
  obtain ⟨⟨⟨hq, hd⟩, ht⟩, i, hi⟩ := h
  exact ⟨hq, hd, ht, fun he => hi (by rw [he])⟩

end Sys2Proof
end

