-- ==== Sys2Proof/Laws/Decode.lean ====
section
/-! SUPPORT. The fields of a composed command word, and a word recomposed from its fields. -/

namespace Sys2Proof

/-- A command word as a number: its four fields in place (R70). -/
theorem toNat_mkWord (o s : BitVec 8) (i : BitVec 16) (m : W32) :
    (mkWord o s i m).toNat = o.toNat * 2 ^ 56 + s.toNat * 2 ^ 48 + i.toNat * 2 ^ 32 + m.toNat := by
  have h1 := s.isLt
  have h2 := i.isLt
  have h3 := m.isLt
  unfold mkWord
  rw [BitVec.toNat_append, BitVec.toNat_append, BitVec.toNat_append, ← Nat.shiftLeft_add_eq_or_of_lt h1,
    ← Nat.shiftLeft_add_eq_or_of_lt h2, ← Nat.shiftLeft_add_eq_or_of_lt h3]
  simp only [Nat.shiftLeft_eq]
  omega

@[simp] theorem opcOf_mkWord (o s : BitVec 8) (i : BitVec 16) (m : W32) : opcOf (mkWord o s i m) = o := by
  apply BitVec.eq_of_toNat_eq
  rw [opcOf, BitVec.extractLsb'_toNat, toNat_mkWord, Nat.shiftRight_eq_div_pow]
  omega

@[simp] theorem selOf_mkWord (o s : BitVec 8) (i : BitVec 16) (m : W32) : selOf (mkWord o s i m) = s := by
  apply BitVec.eq_of_toNat_eq
  rw [selOf, BitVec.extractLsb'_toNat, toNat_mkWord, Nat.shiftRight_eq_div_pow]
  omega

@[simp] theorem idxOf_mkWord (o s : BitVec 8) (i : BitVec 16) (m : W32) : idxOf (mkWord o s i m) = i := by
  apply BitVec.eq_of_toNat_eq
  rw [idxOf, BitVec.extractLsb'_toNat, toNat_mkWord, Nat.shiftRight_eq_div_pow]
  omega

@[simp] theorem immOf_mkWord (o s : BitVec 8) (i : BitVec 16) (m : W32) : immOf (mkWord o s i m) = m := by
  apply BitVec.eq_of_toNat_eq
  rw [immOf, BitVec.extractLsb'_toNat, toNat_mkWord, Nat.shiftRight_eq_div_pow]
  omega

/-- A word is its four fields. -/
theorem mkWord_fields (w : W64) : mkWord (opcOf w) (selOf w) (idxOf w) (immOf w) = w := by
  have h := w.isLt
  apply BitVec.eq_of_toNat_eq
  rw [toNat_mkWord]
  simp only [opcOf, selOf, idxOf, immOf, BitVec.extractLsb'_toNat, Nat.shiftRight_eq_div_pow]
  omega

@[simp] theorem toNat_sel8 {n : Nat} (v : Fin n) (h : n ≤ 256) : (sel8 v).toNat = v.val := by
  have := v.isLt
  simp [sel8, BitVec.toNat_ofNat]; omega

@[simp] theorem toNat_idx16 {n : Nat} (v : Fin n) (h : n ≤ 65536) : (idx16 v).toNat = v.val := by
  have := v.isLt
  simp [idx16, BitVec.toNat_ofNat]; omega

@[simp] theorem toFin?_val {n : Nat} (v : Fin n) : toFin? n v.val = some v := by simp [toFin?]

/-- What a selector that is in range is. -/
theorem toFin?_eq_some {n k : Nat} {v : Fin n} (h : toFin? n k = some v) : k = v.val := by
  unfold toFin? at h
  split at h
  · cases h; rfl
  · cases h

@[simp] theorem lfoId?_code (l : LfoId) : lfoId? l.code.toNat = some l := by cases l <;> rfl
@[simp] theorem paramSpace?_code (p : ParamSpace) : paramSpace? p.code.toNat = some p := by cases p <;> rfl
@[simp] theorem bqType?_code (t : BqType) : bqType? t.code.toNat = some t := by cases t <;> rfl
@[simp] theorem bqField?_code (f : BqField) : bqField? f.code.toNat = some f := by cases f <;> rfl

/-- What `checked` accepts. -/
theorem checked_eq_ok {b : Bool} {o : Option Instr} {i : Instr} (h : checked b o = .ok i) : b = true ∧ o = some i := by
  unfold checked at h
  split at h
  · cases o with
    | none => cases h
    | some j => cases h; exact ⟨‹_›, rfl⟩
  · cases h

end Sys2Proof
end

