-- ==== Sys2Proof/Laws/Exec.lean ====
section
/-! SUPPORT. What any command can do, said once: it is turned away with an error by its checks, or it answers, with the
effect given here. Every statement over all commands starts from `exec_eq`. -/

namespace Sys2Proof.Machine

/-- The error a command is turned away with, if any: the checks in the order of R80, the allocation tests of R67
included. -/
def verdict : Instr → State → Option ErrCode
  | .prepare m fs, _ => if prepareOk m fs then none else some .config
  | .block n, s => if s.prepared then (if n.toNat ≤ s.maxBlk.toNat then none else some .range) else some .state
  | .sample c x, s =>
    if s.life == .run && s.laneAllocated c then (if F32.isFinite x then none else some .range) else some .state
  | .rdstat idx, s => if (s.statusItem idx).isSome then none else some .illegal
  | .rbCreate _ len, s =>
    if s.prepared then some .state
    else if 1 ≤ len.toNat ∧ len.toNat ≤ Config.capMax then none else some .range
  | .rbWrite r _, s | .rbReadi r _, s | .dlWrite r, s => if s.allocated r then none else some .state
  | .rbReadf r d, s => if s.allocated r then (if F32.isFinite d then none else some .range) else some .state
  | .dlSettime _ ms, _ => if F32.isFinite ms then none else some .range
  | .dlRead r, s => if s.prepared && s.allocated r then none else some .state
  | .smCoeff tau, s => if s.prepared then (if positiveFinite tau then none else some .range) else some .state
  | .rampSet _ _ t, s => if s.prepared then (if F32.isFinite t then none else some .range) else some .state
  | .rampAdv _ _ _, s => if s.prepared then none else some .state
  | .bqCoef _ _, s => if s.prepared then (if positiveFinite s.a[1] then none else some .range) else some .state
  | .bqStep _ x, _ => if F32.isFinite x then none else some .range
  | .lfoStep _ _, s =>
    if s.prepared then (if rateOk s.a[0] && F32.isFinite s.a[1] then none else some .range) else some .state
  | .tapStep c i u, s =>
    if s.prepared && s.allocated (tapRing c i) then (if F32.isFinite u then none else some .range) else some .state
  | .rvStep c u, s =>
    if s.prepared && s.tapsAllocated c then (if F32.isFinite u then none else some .range) else some .state
  | .nop, _ | .release, _ | .wrparam _ _, _ | .rdparam _ _, _ | .ldarg _ _, _ | .rdarg _, _ | .rbInterp _ _, _
  | .smOnepole, _ | .rampRd _ _, _ | .bqReset _, _ | .bqRd _ _, _ | .lfoRd _, _ | .mix, _ | .mixadd, _ => none

/-- What a command does when its checks pass: the state before its response, and the data it answers. -/
def effect : Instr → State → State × W32
  | .nop, s => (s, 0)
  | .prepare m fs, s => (s.prepareInit m fs, 0)
  | .release, s => (s.unprepare, 0)
  | .block n, s => (s.blockAll n, 0)
  | .sample c x, s => s.sampleStep c x
  | .wrparam p v, s => (s.setParam p v, 0)
  | .rdparam .staging p, s => (s, s.param[p])
  | .rdparam .snapshot p, s => (s, s.snap[p])
  | .rdstat idx, s => (s, (s.statusItem idx).getD 0)
  | .ldarg k v, s => (s.setArg k v, 0)
  | .rdarg k, s => (s, s.a[k])
  | .rbCreate r len, s => (s.setRing r ((s.rb[r]).create len.toNat), ((s.rb[r]).create len.toNat).cap)
  | .rbWrite r v, s => (s.rbWrite r v, 0)
  | .rbReadi r d, s => (s, (s.rb[r]).read d.toNat)
  | .rbReadf r d, s => (s, (s.rb[r]).readf d)
  | .rbInterp r on, s => (s.setRing r { s.rb[r] with interp := on }, 0)
  | .dlSettime r ms, s => (s.setDl r ms, 0)
  | .dlRead r, s => (s, s.dlRead r)
  | .dlWrite r, s => (s.dlWrite r s.a[0] s.a[1] s.a[2], dlWord s.a[0] s.a[1] s.a[2])
  | .smOnepole, s => (s, onepole s.a[0] s.a[1] s.a[2])
  | .smCoeff tau, s => (s, smCoeff s.fs tau)
  | .rampSet c q t, s => (s.setRamp c q (((s.ch[c]).ramp[q]).setTarget s.nRamp t), 0)
  | .rampAdv c q n, s =>
    (s.setRamp c q (((s.ch[c]).ramp[q]).advance n.toNat), (((s.ch[c]).ramp[q]).advance n.toNat).cur)
  | .rampRd c q, s => (s, ((s.ch[c]).ramp[q]).cur)
  | .bqCoef b ty, s => (s.bqCoef b ty s.a[0] s.a[1], flag (bqDesign s.fs ty s.a[0] s.a[1]).finite)
  | .bqStep b x, s => s.bqStep b x
  | .bqReset b, s => (s.setBq b (s.bq[b]).clear, 0)
  | .bqRd b f, s => (s, (s.bq[b]).field f)
  | .lfoStep id n, s => (s.setPhase id (lfoNext s.fs (s.phase id) s.a[0] n.toNat), lfoOut (s.phase id) s.a[1])
  | .lfoRd id, s => (s, s.phase id)
  | .mix, s => (s, mix s.a[0] s.a[1] s.a[2])
  | .mixadd, s => (s, mixadd s.a[0] s.a[1] s.a[2])
  | .tapStep c i u, s => s.tapStep c i u
  | .rvStep c u, s => s.rvSum c u

/-- The state a refusal starts from: a refused `PREPARE` has unprepared the hardware (R103). -/
def refusalBase : Instr → State → State
  | .prepare _ _, s => s.unprepare
  | .nop, s | .release, s | .block _, s | .sample _ _, s | .wrparam _ _, s | .rdparam _ _, s | .rdstat _, s
  | .ldarg _ _, s | .rdarg _, s | .rbCreate _ _, s | .rbWrite _ _, s | .rbReadi _ _, s | .rbReadf _ _, s
  | .rbInterp _ _, s | .dlSettime _ _, s | .dlRead _, s | .dlWrite _, s | .smOnepole, s | .smCoeff _, s
  | .rampSet _ _ _, s | .rampAdv _ _ _, s | .rampRd _ _, s | .bqCoef _ _, s | .bqStep _ _, s | .bqReset _, s
  | .bqRd _ _, s | .lfoStep _ _, s | .lfoRd _, s | .mix, s | .mixadd, s | .tapStep _ _ _, s | .rvStep _ _, s => s

/-- The state after a command. -/
def after (i : Instr) (s : State) : State :=
  match verdict i s with
  | none => (effect i s).1.respond .ok (effect i s).2
  | some e => (refusalBase i s).refuse e

/-- Every command answers a next state: its effect, or its refusal. -/
theorem exec_eq (i : Instr) (s : State) : exec i s = .next (after i s) := by
  cases i with
  | nop => rfl
  | prepare m fs => simp only [exec, execPrepare, after, verdict, effect, refusalBase, answer, raise]; split <;> rfl
  | release => rfl
  | block n => simp only [exec, execBlock, after, verdict, effect, refusalBase, answer, raise]; split_ifs <;> rfl
  | sample c x => simp only [exec, execSample, after, verdict, effect, refusalBase, answer, raise]; split_ifs <;> rfl
  | wrparam p v => rfl
  | rdparam sp p => cases sp <;> rfl
  | rdstat idx =>
    simp only [exec, execRdstat, after, verdict, effect, refusalBase, answer, raise]
    cases s.statusItem idx <;> rfl
  | ldarg k v => rfl
  | rdarg k => rfl
  | rbCreate r len => simp only [exec, execRbCreate, after, verdict, effect, refusalBase, answer, raise]; split_ifs <;> rfl
  | rbWrite r v => simp only [exec, execRbWrite, after, verdict, effect, refusalBase, answer, raise]; split_ifs <;> rfl
  | rbReadi r d => simp only [exec, execRbReadi, after, verdict, effect, refusalBase, answer, raise]; split_ifs <;> rfl
  | rbReadf r d => simp only [exec, execRbReadf, after, verdict, effect, refusalBase, answer, raise]; split_ifs <;> rfl
  | rbInterp r on => rfl
  | dlSettime r ms => simp only [exec, execDlSettime, after, verdict, effect, refusalBase, answer, raise]; split_ifs <;> rfl
  | dlRead r => simp only [exec, execDlRead, after, verdict, effect, refusalBase, answer, raise]; split_ifs <;> rfl
  | dlWrite r => simp only [exec, execDlWrite, after, verdict, effect, refusalBase, answer, raise]; split_ifs <;> rfl
  | smOnepole => rfl
  | smCoeff tau => simp only [exec, execSmCoeff, after, verdict, effect, refusalBase, answer, raise]; split_ifs <;> rfl
  | rampSet c q g => simp only [exec, execRampSet, after, verdict, effect, refusalBase, answer, raise]; split_ifs <;> rfl
  | rampAdv c q n => simp only [exec, execRampAdv, after, verdict, effect, refusalBase, answer, raise]; split_ifs <;> rfl
  | rampRd c q => rfl
  | bqCoef b ty => simp only [exec, execBqCoef, after, verdict, effect, refusalBase, answer, raise]; split_ifs <;> rfl
  | bqStep b x => simp only [exec, execBqStep, after, verdict, effect, refusalBase, answer, raise]; split_ifs <;> rfl
  | bqReset b => rfl
  | bqRd b f => rfl
  | lfoStep id n => simp only [exec, execLfoStep, after, verdict, effect, refusalBase, answer, raise]; split_ifs <;> rfl
  | lfoRd id => rfl
  | mix => rfl
  | mixadd => rfl
  | tapStep c i u => simp only [exec, execTapStep, after, verdict, effect, refusalBase, answer, raise]; split_ifs <;> rfl
  | rvStep c u => simp only [exec, execRvStep, after, verdict, effect, refusalBase, answer, raise]; split_ifs <;> rfl

/-- What a command leads to: its effect answered, or its refusal. -/
theorem exec_next {i : Instr} {s t : State} (h : exec i s = .next t) :
    (verdict i s = none ∧ t = (effect i s).1.respond .ok (effect i s).2) ∨
    ∃ e, verdict i s = some e ∧ t = (refusalBase i s).refuse e := by
  rw [exec_eq] at h
  cases h
  unfold after
  cases hv : verdict i s with
  | none => exact .inl ⟨rfl, rfl⟩
  | some e => exact .inr ⟨e, rfl, rfl⟩

end Sys2Proof.Machine
end

