-- ==== Sys2Proof/Laws/Float.lean ====
section
/-! SUPPORT. The small laws of the F32 representation: packing and unpacking, the classes, and the class of a produced
NaN whatever its free bits are. -/

namespace Sys2Proof.F32

theorem mag_lt (v : F32) : v.mag < 2 ^ 31 := Nat.mod_lt _ (by decide)

@[simp] theorem mag_pack (s : Bool) {m : Nat} (h : m < 2 ^ 31) : (pack s m).mag = m := by
  unfold mag pack
  cases s <;> simp [BitVec.toNat_ofNat] <;> omega

@[simp] theorem sign_pack (s : Bool) {m : Nat} (h : m < 2 ^ 31) : (pack s m).sign = s := by
  unfold sign pack
  cases s
  · simp only [BitVec.toNat_ofNat, Bool.false_eq_true, if_false]
    rw [Nat.mod_eq_of_lt (by omega)]
    exact Nat.testBit_lt_two_pow h
  · simp only [BitVec.toNat_ofNat, if_true]
    rw [Nat.mod_eq_of_lt (by omega), Nat.testBit_two_pow_add_eq, Nat.testBit_lt_two_pow h]
    rfl

/-- A value is its sign and its magnitude pattern. -/
theorem pack_sign_mag (v : F32) : pack v.sign v.mag = v := by
  have hv := v.isLt
  apply BitVec.eq_of_toNat_eq
  unfold pack sign mag
  rw [BitVec.toNat_ofNat, Nat.testBit_eq_decide_div_mod_eq]
  by_cases h : v.toNat / 2 ^ 31 % 2 = 1
  · rw [if_pos (by simpa using h)]; omega
  · rw [if_neg (by simpa using h)]; omega

/-- Two values with one sign and one magnitude pattern are equal. -/
theorem ext_sign_mag {v w : F32} (hs : v.sign = w.sign) (hm : v.mag = w.mag) : v = w := by
  rw [← pack_sign_mag v, ← pack_sign_mag w, hs, hm]

theorem nan_mag_lt (op : Config.Op) (a b : F32) :
    infMag + max 1 ((Config.nanBits op a b).toNat % 2 ^ 23) < 2 ^ 31 := by
  have : (Config.nanBits op a b).toNat % 2 ^ 23 < 2 ^ 23 := Nat.mod_lt _ (by decide)
  unfold infMag; omega

/-- What an operation produces as a NaN is a NaN (U1). -/
@[simp] theorem isNaN_nan (op : Config.Op) (a b : F32) : (nan op a b).isNaN = true := by
  have h := nan_mag_lt op a b
  simp only [isNaN, nan, mag_pack _ h, decide_eq_true_eq]
  omega

/-- A NaN is not finite. -/
@[simp] theorem isFinite_nan (op : Config.Op) (a b : F32) : (nan op a b).isFinite = false := by
  have h := nan_mag_lt op a b
  simp only [isFinite, nan, mag_pack _ h, decide_eq_false_iff_not]
  omega

/-- A finite value is no NaN. -/
theorem not_isNaN_of_isFinite {v : F32} (h : v.isFinite = true) : v.isNaN = false := by
  simp only [isFinite, isNaN, decide_eq_true_eq, decide_eq_false_iff_not] at *; omega

/-- A finite value is no infinity. -/
theorem not_isInf_of_isFinite {v : F32} (h : v.isFinite = true) : v.isInf = false := by
  simp only [isFinite, isInf, decide_eq_true_eq, beq_eq_false_iff_ne] at *; omega

/-- The rounding of a result never passes the pattern of an infinity. -/
theorem roundMag_le (n d : Nat) : roundMag n d ≤ infMag := Nat.min_le_left _ _

@[simp] theorem sign_neg (v : F32) : (neg v).sign = !v.sign := by
  unfold sign neg
  rw [BitVec.testBit_toNat, BitVec.testBit_toNat, BitVec.getLsbD_xor]
  cases v.getLsbD 31 <;> rfl

@[simp] theorem mag_neg (v : F32) : (neg v).mag = v.mag := by
  unfold mag neg
  apply Nat.eq_of_testBit_eq
  intro i
  rw [Nat.testBit_mod_two_pow, Nat.testBit_mod_two_pow, BitVec.testBit_toNat, BitVec.testBit_toNat,
    BitVec.getLsbD_xor]
  by_cases h : i < 31
  · have : (0x80000000#32).getLsbD i = false := by
      interval_cases i <;> rfl
    simp [this]
  · simp [h]

@[simp] theorem neg_neg (v : F32) : neg (neg v) = v := ext_sign_mag (by simp) (by simp)

@[simp] theorem units_neg (v : F32) : (neg v).units = v.units := by simp [units]

/-- The sign of the F32 nearest to `i` units: `zs` for a zero, else that of `i`. -/
theorem sign_ofUnits (zs : Bool) (i : Int) : (ofUnits zs i).sign = if i = 0 then zs else decide (i < 0) := by
  have h := roundMag_le i.natAbs 1
  have h2 : infMag < 2 ^ 31 := by decide
  unfold ofUnits
  split
  · exact sign_pack _ (by decide)
  · exact sign_pack _ (by omega)

/-- Outside the domain of R211 the wrapped phase is the free value. -/
theorem wrap_outside {p : F32} (h : (p.isFinite && ge p Config.f0) = false) : wrap p = Config.freeWrap p := by
  simp [wrap, h]

/-- Where the operand is not below the lower bound the clamp is the lesser of it and the upper bound. -/
theorem clamp_of_ge {v lo hi : F32} (h : ge v lo = true) : clamp v lo hi = if gt v hi then hi else v := by
  simp [clamp, h]

/-- Where the operand is below the lower bound or a NaN the clamp is the lower bound. -/
theorem clamp_of_not_ge {v lo hi : F32} (h : ge v lo = false) : clamp v lo hi = lo := by
  simp [clamp, h]

end Sys2Proof.F32
end

