-- ==== Sys2Proof/Laws/Lanes.lean ====
section
/-! SUPPORT. What a `SAMPLE` of a lane reads is its own: two states alike in that give the same output and stay alike
in it (R54, R114). -/

namespace Sys2Proof.Machine

/-- Two states alike in all that lane `c` reads. -/
structure SameLane (c : Lane) (s s' : State) : Prop where
  fs : s'.fs = s.fs
  cGen : s'.cGen = s.cGen
  cSml : s'.cSml = s.cSml
  cLrg : s'.cLrg = s.cLrg
  snap : s'.snap = s.snap
  rmod : s'.rmod = s.rmod
  cal : s'.cal = s.cal
  ch : s'.ch[c] = s.ch[c]
  dl : ∀ r : RingId, r.val / 11 = c.val → s'.dl[r] = s.dl[r]
  rb : ∀ r : RingId, r.val / 11 = c.val → s'.rb[r] = s.rb[r]
  bq : ∀ b : StageId, b.val / 63 = c.val → s'.bq[b] = s.bq[b]

theorem main_div (c : Lane) : (mainRing c).val / 11 = c.val := by rw [mainRing_val]; omega
theorem tap_div (c : Lane) (i : TapId) : (tapRing c i).val / 11 = c.val := by rw [tapRing_val]; omega
theorem lpf_div (c : Lane) : (lpfStage c).val / 63 = c.val := by rw [lpfStage_val]; omega
theorem hpf_div (c : Lane) : (hpfStage c).val / 63 = c.val := by rw [hpfStage_val]; omega
theorem glpf_div (c : Lane) : (glpfStage c).val / 63 = c.val := by rw [glpfStage_val]; omega
theorem taps_div (c : Lane) (i : TapId) {b : StageId} (h : b ∈ tapStages c i) : b.val / 63 = c.val := by
  rw [mem_tapStages] at h; omega

theorem SameLane.tap {c} {s s'} (h : SameLane c s s') (i : TapId) : SameTap c i s s' where
  dl := h.dl _ (tap_div c i)
  rb := h.rb _ (tap_div c i)
  bq := fun b hb => h.bq b (taps_div c i hb)
  cal := h.cal
  rmod := h.rmod
  cSml := h.cSml
  fs := h.fs

theorem SameLane.front {c} {s s'} (h : SameLane c s s') (x : F32) :
   (s'.sampleFront c x).ch[c] = (s.sampleFront c x).ch[c] ∧ (s'.sampleFront c x).dl[mainRing c] = (s.sampleFront c x).dl[mainRing c] := by
  constructor
  · rw [sampleFront_ch, sampleFront_ch]; simp only [h.ch, h.fs, h.cGen, h.cSml, h.cLrg, h.snap]
  · rw [sampleFront_dl, sampleFront_dl]; simp only [h.ch, h.cGen, h.cSml, h.cLrg, h.dl _ (main_div c), h.cal]

theorem SameLane.w {c} {s s'} (h : SameLane c s s') (x : F32) : s'.sampleW c x = s.sampleW c x := by
  rw [sampleW_eq, sampleW_eq, h.rb _ (main_div c), h.fs, (h.front x).2]

theorem front_bq (s : State) (c x) : (s.sampleFront c x).bq = s.bq := by rw [sampleFront_frame]

theorem SameLane.tone {c} {s s'} (h : SameLane c s s') (x w: F32) :
   (s'.sampleFront c x).toneW1 c w = (s.sampleFront c x).toneW1 c w ∧ (s'.sampleFront c x).toneW2 c w = (s.sampleFront c x).toneW2 c w := by
  have h1 : (s'.sampleFront c x).toneW1 c w = (s.sampleFront c x).toneW1 c w := by
    simp only [State.toneW1, front_bq, (h.front x).1, h.bq _ (lpf_div c)]
  refine ⟨h1, ?_⟩
  simp only [State.toneW2, h1, front_bq, (h.front x).1, h.bq _ (hpf_div c)]

theorem SameLane.w3 {c} {s s'} (h : SameLane c s s') (x : F32) : s'.sampleW3 c x = s.sampleW3 c x := by
  rw [State.sampleW3, State.sampleW3, tone_snd, tone_snd]
  simp only [front_bq, h.w, (h.tone x _).2, h.bq _ (glpf_div c)]

theorem SameLane.y {c} {s s'} (h : SameLane c s s') (x : F32) : s'.sampleY c x = s.sampleY c x := by
  simp only [State.sampleY, h.w3, (h.front x).1]

theorem SameLane.out {c} {s s'} (h : SameLane c s s') (x : F32) : s'.sampleOut c x = s.sampleOut c x := by
  have hr : s'.sampleR c x = s.sampleR c x := by
    rw [State.sampleR, State.sampleR]
    refine List.foldl_ext _ _ _ (fun acc i _ => ?_)
    rw [(h.tap i).tap.2.2, (h.front x).1]
  simp only [State.sampleOut, hr, h.y, (h.front x).1]

theorem ring_cases (c : Lane) (r : RingId) (h : r.val / 11 = c.val) : r = mainRing c ∨ ∃ i : TapId, r = tapRing c i := by
  by_cases h0 : r.val = 11 * c.val
  · left; exact Fin.ext h0
  · right; exact ⟨⟨r.val - 11 * c.val - 1, by omega⟩, Fin.ext (by simp only [tapRing_val]; omega)⟩

theorem stage_cases (c : Lane) (b : StageId) (h : b.val / 63 = c.val) :
   b = lpfStage c ∨ b = hpfStage c ∨ b = glpfStage c ∨ ∃ i : TapId, (b = tlpStage c i ∨ ∃ k, b = apStage c i k) := by
  simp only [Fin.ext_iff, lpfStage_val, hpfStage_val, glpfStage_val]
  by_cases h3 : b.val < 63 * c.val + 3
  · omega
  · right; right; right
    have hi : (b.val - 63 * c.val - 3) / 6 < 10 := by omega
    refine ⟨⟨(b.val - 63 * c.val - 3) / 6, hi⟩, ?_⟩
    by_cases h5 : (b.val - 63 * c.val - 3) % 6 = 5
    · left; rw [tlpStage_val]; simp only; omega
    · right; refine ⟨⟨(b.val - 63 * c.val - 3) % 6, by omega⟩, ?_⟩; rw [apStage_val]; simp only; omega

theorem tone_notMem (c : Lane) (i : TapId) : lpfStage c ∉ tapStages c i ∧ hpfStage c ∉ tapStages c i ∧ glpfStage c ∉ tapStages c i := by
  simp only [mem_tapStages, lpfStage_val, hpfStage_val, glpfStage_val]; omega

theorem SameLane.step {c} {s s'} (h : SameLane c s s') (x : F32) :
   (s'.sampleStep c x).2 = (s.sampleStep c x).2 ∧ SameLane c (s.sampleStep c x).1 (s'.sampleStep c x).1 := by
  refine ⟨by rw [sampleStep_snd, sampleStep_snd, h.out], ?_⟩
  have hf := sampleStep_frame s c x
  have hf' := sampleStep_frame s' c x
  have hm : ∀ i, tapRing c i ≠ mainRing c := fun i => (mainRing_ne_tapRing c c i).symm
  have hr := sampleStep_rest s c x
  have hr' := sampleStep_rest s' c x
  exact {
    fs := by rw [hf, hf', h.fs]
    cGen := by rw [hf, hf', h.cGen]
    cSml := by rw [hf, hf', h.cSml]
    cLrg := by rw [hf, hf', h.cLrg]
    snap := by rw [hf, hf', h.snap]
    rmod := by rw [hf, hf', h.rmod]
    cal := by rw [hf, hf', h.cal]
    ch := by rw [sampleStep_ch, sampleStep_ch, if_pos rfl, if_pos rfl, (h.front x).1, h.out]
    dl := by
      intro r hrr
      rcases ring_cases c r hrr with rfl | ⟨i, rfl⟩
      · rw [(hr.1 _ hm).2, (hr'.1 _ hm).2, (h.front x).2]
      · rw [(sampleStep_tap s c x i).1, (sampleStep_tap s' c x i).1, (h.tap i).tap.1]
    rb := by
      intro r hrr
      rcases ring_cases c r hrr with rfl | ⟨i, rfl⟩
      · rw [(hr.1 _ hm).1, (hr'.1 _ hm).1, sampleMid_rb, sampleMid_rb, if_pos rfl, if_pos rfl, h.rb _ (main_div c), h.w3, (h.front x).1]
      · rw [(sampleStep_tap s c x i).2.1, (sampleStep_tap s' c x i).2.1, (h.tap i).tap.2.2, h.rb _ (tap_div c i), h.y]
    bq := by
      intro b hb
      rcases stage_cases c b hb with rfl | rfl | rfl | ⟨i, rfl | ⟨k, rfl⟩⟩
      · rw [hr.2 _ (fun i => (tone_notMem c i).1), hr'.2 _ (fun i => (tone_notMem c i).1)]
        simp only [sampleMid_bq]; rw [tone_bq, tone_bq]; simp only [front_bq, h.w, (h.tone x _).1, (h.tone x _).2, h.bq _ (lpf_div c), h.bq _ (hpf_div c), h.bq _ (glpf_div c)]
      · rw [hr.2 _ (fun i => (tone_notMem c i).2.1), hr'.2 _ (fun i => (tone_notMem c i).2.1)]
        simp only [sampleMid_bq]; rw [tone_bq, tone_bq]; simp only [front_bq, h.w, (h.tone x _).1, (h.tone x _).2, h.bq _ (lpf_div c), h.bq _ (hpf_div c), h.bq _ (glpf_div c)]
      · rw [hr.2 _ (fun i => (tone_notMem c i).2.2), hr'.2 _ (fun i => (tone_notMem c i).2.2)]
        simp only [sampleMid_bq]; rw [tone_bq, tone_bq]; simp only [front_bq, h.w, (h.tone x _).1, (h.tone x _).2, h.bq _ (lpf_div c), h.bq _ (hpf_div c), h.bq _ (glpf_div c)]
      · rw [(sampleStep_tap s c x i).2.2.1, (sampleStep_tap s' c x i).2.2.1, (h.tap i).tap.2.1, h.bq _ hb]
      · rw [(sampleStep_tap s c x i).2.2.2, (sampleStep_tap s' c x i).2.2.2, (h.tap i).tap.2.1, h.bq _ hb] }

/-- Rings of the other lane are no ring of this one. -/
theorem ring_other (c : Lane) (r : RingId) (h : r.val / 11 ≠ c.val) : mainRing c ≠ r ∧ ∀ i : TapId, tapRing c i ≠ r := by
  constructor
  · rintro rfl; exact h (by simp only [mainRing_val]; omega)
  · rintro i rfl; exact h (by simp only [tapRing_val]; omega)

theorem stage_other (c : Lane) (b : StageId) (h : b.val / 63 ≠ c.val) :
   glpfStage c ≠ b ∧ hpfStage c ≠ b ∧ lpfStage c ≠ b ∧ ∀ i, b ∉ tapStages c i := by
  refine ⟨?_, ?_, ?_, ?_⟩
  · rintro rfl; exact h (by simp only [glpfStage_val]; omega)
  · rintro rfl; exact h (by simp only [hpfStage_val]; omega)
  · rintro rfl; exact h (by simp only [lpfStage_val]; omega)
  · intro i hm; rw [mem_tapStages] at hm; exact h (by omega)

theorem rings_other (s : State) (c : Lane) (x : F32) (r : RingId) (h : r.val / 11 ≠ c.val) :
    (s.sampleStep c x).1.rb[r] = s.rb[r] ∧ (s.sampleStep c x).1.dl[r] = s.dl[r] := by
  obtain ⟨h1, h2⟩ := ring_other c r h
  obtain ⟨a, b⟩ := (sampleStep_rest s c x).1 r h2
  rw [a, b, sampleMid_rb, if_neg h1, sampleFront_dl_other _ _ _ h1]; exact ⟨rfl, rfl⟩

/-- `SAMPLE` touches only its lane. -/
theorem onlyLane_sampleStep (s : State) (c : Lane) (x : F32) : OnlyLane c s (s.sampleStep c x).1 where
  globals := sampleStep_frame s c x
  rings r h := (rings_other s c x r h).1
  lines r h := (rings_other s c x r h).2
  stages b h := by
    obtain ⟨h1, h2, h3, h4⟩ := stage_other c b h
    rw [(sampleStep_rest s c x).2 b h4]
    simp only [sampleMid_bq]; rw [tone_bq, if_neg h1, if_neg h2, if_neg h3]
    simp only [front_bq]
  chan c' h := by rw [sampleStep_ch, if_neg h.symm]

/-- A step of one lane leaves the other as it was, in all that it reads. -/
theorem OnlyLane.same {c c' : Lane} {s t : State} (h : OnlyLane c s t) (hc : c' ≠ c) : SameLane c' s t where
  fs := by rw [h.globals]
  cGen := by rw [h.globals]
  cSml := by rw [h.globals]
  cLrg := by rw [h.globals]
  snap := by rw [h.globals]
  rmod := by rw [h.globals]
  cal := by rw [h.globals]
  ch := h.chan c' hc
  dl r hr := h.lines r (by rw [hr]; exact fun e => hc (Fin.ext e))
  rb r hr := h.rings r (by rw [hr]; exact fun e => hc (Fin.ext e))
  bq b hb := h.stages b (by rw [hb]; exact fun e => hc (Fin.ext e))

theorem sameLane_respond (c : Lane) (s : State) (k d) : SameLane c s (s.respond k d) := ⟨rfl,rfl,rfl,rfl,rfl,rfl,rfl,rfl,fun _ _ => rfl,fun _ _ => rfl,fun _ _ => rfl⟩

theorem SameLane.trans {c} {a b d : State} (h : SameLane c a b) (k : SameLane c b d) : SameLane c a d :=
 ⟨k.fs.trans h.fs, k.cGen.trans h.cGen, k.cSml.trans h.cSml, k.cLrg.trans h.cLrg, k.snap.trans h.snap, k.rmod.trans h.rmod, k.cal.trans h.cal, k.ch.trans h.ch, fun r hr => (k.dl r hr).trans (h.dl r hr), fun r hr => (k.rb r hr).trans (h.rb r hr), fun r hr => (k.bq r hr).trans (h.bq r hr)⟩


end Sys2Proof.Machine
end

