-- ==== Sys2Proof/Laws/Memory.lean ====
section
/-! SUPPORT. The laws of ring memory: a read after a write (R53), the canonical form is kept, and a canonical memory is
determined by what it reads. -/

namespace Sys2Proof.Machine

@[simp] theorem memRead_nil (i : Nat) : memRead [] i = unlisted := rfl

/-- A word below the least listed index is unlisted. -/
theorem memRead_of_lt {lo i : Nat} : ∀ {m : List Cell}, memWfFrom lo m = true → i < lo → memRead m i = unlisted
  | [], _, _ => rfl
  | (j, v) :: rest, h, hi => by
    simp only [memWfFrom, Bool.and_eq_true, decide_eq_true_eq] at h
    rw [memRead, if_neg (by omega)]
    exact memRead_of_lt h.2 (by omega)

/-- A canonical form from `lo` on is one from every smaller index on. -/
theorem memWfFrom_mono {lo lo' : Nat} (h : lo' ≤ lo) :
    ∀ {m : List Cell}, memWfFrom lo m = true → memWfFrom lo' m = true
  | [], _ => rfl
  | (j, v) :: rest, hm => by
    simp only [memWfFrom, Bool.and_eq_true, decide_eq_true_eq] at hm ⊢
    exact ⟨⟨by omega, hm.1.2⟩, hm.2⟩

theorem memWfFrom_insert {v : W32} (hv : v ≠ unlisted) {i : Nat} :
    ∀ {lo : Nat} {m : List Cell}, lo ≤ i → memWfFrom lo m = true → memWfFrom lo (memInsert m i v) = true
  | lo, [], hl, _ => by simp [memInsert, memWfFrom, hl, hv]
  | lo, (j, w) :: rest, hl, h => by
    simp only [memWfFrom, Bool.and_eq_true, decide_eq_true_eq] at h
    unfold memInsert
    split
    · simp [memWfFrom, hl, hv, h.1.2, h.2]; omega
    · split
      · subst_vars; simp [memWfFrom, hl, hv, h.2]
      · simp only [memWfFrom, Bool.and_eq_true, decide_eq_true_eq]
        exact ⟨h.1, memWfFrom_insert hv (by omega) h.2⟩

theorem memWfFrom_erase {i : Nat} :
    ∀ {lo : Nat} {m : List Cell}, memWfFrom lo m = true → memWfFrom lo (memErase m i) = true
  | _, [], _ => rfl
  | lo, (j, w) :: rest, h => by
    simp only [memWfFrom, Bool.and_eq_true, decide_eq_true_eq] at h
    unfold memErase
    split
    · exact memWfFrom_mono (by omega) h.2
    · simp only [memWfFrom, Bool.and_eq_true, decide_eq_true_eq]
      exact ⟨h.1, memWfFrom_erase h.2⟩

/-- Every write keeps the canonical form. -/
theorem memWf_write {m : List Cell} (h : memWf m = true) (i : Nat) (v : W32) : memWf (memWrite m i v) = true := by
  unfold memWrite
  split
  · exact memWfFrom_erase h
  · exact memWfFrom_insert ‹_› (Nat.zero_le _) h

theorem memBelow_insert {n i : Nat} (hi : i < n) {v : W32} :
    ∀ {m : List Cell}, memBelow m n = true → memBelow (memInsert m i v) n = true
  | [], _ => by simp [memInsert, memBelow, hi]
  | (j, w) :: rest, h => by
    simp only [memBelow, List.all_cons, Bool.and_eq_true, decide_eq_true_eq] at h
    unfold memInsert
    split
    · simp [memBelow, hi, h.1] ; simpa [memBelow] using h.2
    · split
      · simp [memBelow, hi]; simpa [memBelow] using h.2
      · simp only [memBelow, List.all_cons, Bool.and_eq_true, decide_eq_true_eq]
        exact ⟨h.1, memBelow_insert hi h.2⟩

theorem memBelow_erase {n i : Nat} : ∀ {m : List Cell}, memBelow m n = true → memBelow (memErase m i) n = true
  | [], _ => rfl
  | (j, w) :: rest, h => by
    simp only [memBelow, List.all_cons, Bool.and_eq_true, decide_eq_true_eq] at h
    unfold memErase
    split
    · exact h.2
    · simp only [memBelow, List.all_cons, Bool.and_eq_true, decide_eq_true_eq]
      exact ⟨h.1, memBelow_erase h.2⟩

/-- A write inside the ring lists no index outside it. -/
theorem memBelow_write {m : List Cell} {n i : Nat} (h : memBelow m n = true) (hi : i < n) (v : W32) :
    memBelow (memWrite m i v) n = true := by
  unfold memWrite
  split
  · exact memBelow_erase h
  · exact memBelow_insert hi h

theorem memRead_insert {v : W32} {i k : Nat} :
    ∀ {lo : Nat} {m : List Cell}, memWfFrom lo m = true →
      memRead (memInsert m i v) k = if k = i then v else memRead m k
  | _, [], _ => by simp [memInsert, memRead]
  | lo, (j, w) :: rest, h => by
    simp only [memWfFrom, Bool.and_eq_true, decide_eq_true_eq] at h
    unfold memInsert
    split
    · rfl
    · split
      · rename_i hij
        simp only [memRead, hij]
        by_cases hk : k = j <;> simp [hk]
      · simp only [memRead]
        rw [memRead_insert h.2]
        by_cases hk : k = j
        · have : k ≠ i := by omega
          rw [if_pos hk, if_pos hk, if_neg this]
        · rw [if_neg hk, if_neg hk]

theorem memRead_erase {i k : Nat} :
    ∀ {lo : Nat} {m : List Cell}, memWfFrom lo m = true →
      memRead (memErase m i) k = if k = i then unlisted else memRead m k
  | _, [], _ => by simp [memErase, memRead]
  | lo, (j, w) :: rest, h => by
    simp only [memWfFrom, Bool.and_eq_true, decide_eq_true_eq] at h
    unfold memErase
    split
    · rename_i hij
      by_cases hk : k = i
      · rw [if_pos hk]; exact memRead_of_lt h.2 (by omega)
      · rw [if_neg hk, memRead, if_neg (by omega)]
    · simp only [memRead]
      rw [memRead_erase h.2]
      by_cases hk : k = j
      · have : k ≠ i := by omega
        rw [if_pos hk, if_pos hk, if_neg this]
      · rw [if_neg hk, if_neg hk]

/-- A read after a write (R53): the word written at its index, the old word elsewhere. -/
theorem memRead_write {m : List Cell} (h : memWf m = true) (i k : Nat) (v : W32) :
    memRead (memWrite m i v) k = if k = i then v else memRead m k := by
  unfold memWrite
  split
  · rename_i hv; rw [memRead_erase h, hv]
  · exact memRead_insert h

end Sys2Proof.Machine
end

