-- ==== Sys2Proof/Laws/PerInstr.lean ====
section
/-! SUPPORT. Statements made for every command, one lemma a constructor. -/

namespace Sys2Proof

/-- The opcode of a command (R73). -/
def Laws.OpcodeField.opcode : Instr → BitVec 8
  | .nop => 0x00
  | .prepare _ _ => 0x01
  | .release => 0x02
  | .block _ => 0x03
  | .sample _ _ => 0x04
  | .wrparam _ _ => 0x05
  | .rdparam _ _ => 0x06
  | .rdstat _ => 0x07
  | .ldarg _ _ => 0x08
  | .rdarg _ => 0x09
  | .rbCreate _ _ => 0x10
  | .rbWrite _ _ => 0x11
  | .rbReadi _ _ => 0x12
  | .rbReadf _ _ => 0x13
  | .rbInterp _ _ => 0x14
  | .dlSettime _ _ => 0x18
  | .dlRead _ => 0x19
  | .dlWrite _ => 0x1A
  | .smOnepole => 0x20
  | .smCoeff _ => 0x21
  | .rampSet _ _ _ => 0x22
  | .rampAdv _ _ _ => 0x23
  | .rampRd _ _ => 0x24
  | .bqCoef _ _ => 0x28
  | .bqStep _ _ => 0x29
  | .bqReset _ => 0x2A
  | .bqRd _ _ => 0x2B
  | .lfoStep _ _ => 0x30
  | .lfoRd _ => 0x31
  | .mix => 0x38
  | .mixadd => 0x39
  | .tapStep _ _ _ => 0x40
  | .rvStep _ _ => 0x41

/-- The encoding of a command carries its opcode in bits 63:56 (R70, R73). -/
def Laws.OpcodeField.Statement (i : Instr) : Prop := opcOf (encode i) = Laws.OpcodeField.opcode i

theorem Laws.OpcodeField.nop :
    Laws.OpcodeField.Statement .nop := opcOf_mkWord ..
theorem Laws.OpcodeField.prepare (maxBlk : BitVec 16) (fs : W32) :
    Laws.OpcodeField.Statement (.prepare maxBlk fs) := opcOf_mkWord ..
theorem Laws.OpcodeField.release :
    Laws.OpcodeField.Statement .release := opcOf_mkWord ..
theorem Laws.OpcodeField.block (n : BitVec 16) :
    Laws.OpcodeField.Statement (.block n) := opcOf_mkWord ..
theorem Laws.OpcodeField.sample (c : Lane) (x : F32) :
    Laws.OpcodeField.Statement (.sample c x) := opcOf_mkWord ..
theorem Laws.OpcodeField.wrparam (p : ParamId) (v : W32) :
    Laws.OpcodeField.Statement (.wrparam p v) := opcOf_mkWord ..
theorem Laws.OpcodeField.rdparam (space : ParamSpace) (p : ParamId) :
    Laws.OpcodeField.Statement (.rdparam space p) := opcOf_mkWord ..
theorem Laws.OpcodeField.rdstat (idx : BitVec 16) :
    Laws.OpcodeField.Statement (.rdstat idx) := opcOf_mkWord ..
theorem Laws.OpcodeField.ldarg (k : ArgId) (v : W32) :
    Laws.OpcodeField.Statement (.ldarg k v) := opcOf_mkWord ..
theorem Laws.OpcodeField.rdarg (k : ArgId) :
    Laws.OpcodeField.Statement (.rdarg k) := opcOf_mkWord ..
theorem Laws.OpcodeField.rbCreate (r : RingId) (len : W32) :
    Laws.OpcodeField.Statement (.rbCreate r len) := opcOf_mkWord ..
theorem Laws.OpcodeField.rbWrite (r : RingId) (v : W32) :
    Laws.OpcodeField.Statement (.rbWrite r v) := opcOf_mkWord ..
theorem Laws.OpcodeField.rbReadi (r : RingId) (d : W32) :
    Laws.OpcodeField.Statement (.rbReadi r d) := opcOf_mkWord ..
theorem Laws.OpcodeField.rbReadf (r : RingId) (d : F32) :
    Laws.OpcodeField.Statement (.rbReadf r d) := opcOf_mkWord ..
theorem Laws.OpcodeField.rbInterp (r : RingId) (on : Bool) :
    Laws.OpcodeField.Statement (.rbInterp r on) := opcOf_mkWord ..
theorem Laws.OpcodeField.dlSettime (r : RingId) (ms : F32) :
    Laws.OpcodeField.Statement (.dlSettime r ms) := opcOf_mkWord ..
theorem Laws.OpcodeField.dlRead (r : RingId) :
    Laws.OpcodeField.Statement (.dlRead r) := opcOf_mkWord ..
theorem Laws.OpcodeField.dlWrite (r : RingId) :
    Laws.OpcodeField.Statement (.dlWrite r) := opcOf_mkWord ..
theorem Laws.OpcodeField.smOnepole :
    Laws.OpcodeField.Statement .smOnepole := opcOf_mkWord ..
theorem Laws.OpcodeField.smCoeff (tau : F32) :
    Laws.OpcodeField.Statement (.smCoeff tau) := opcOf_mkWord ..
theorem Laws.OpcodeField.rampSet (c : Lane) (q : RampId) (t : F32) :
    Laws.OpcodeField.Statement (.rampSet c q t) := opcOf_mkWord ..
theorem Laws.OpcodeField.rampAdv (c : Lane) (q : RampId) (n : W32) :
    Laws.OpcodeField.Statement (.rampAdv c q n) := opcOf_mkWord ..
theorem Laws.OpcodeField.rampRd (c : Lane) (q : RampId) :
    Laws.OpcodeField.Statement (.rampRd c q) := opcOf_mkWord ..
theorem Laws.OpcodeField.bqCoef (b : StageId) (ty : BqType) :
    Laws.OpcodeField.Statement (.bqCoef b ty) := opcOf_mkWord ..
theorem Laws.OpcodeField.bqStep (b : StageId) (x : F32) :
    Laws.OpcodeField.Statement (.bqStep b x) := opcOf_mkWord ..
theorem Laws.OpcodeField.bqReset (b : StageId) :
    Laws.OpcodeField.Statement (.bqReset b) := opcOf_mkWord ..
theorem Laws.OpcodeField.bqRd (b : StageId) (field : BqField) :
    Laws.OpcodeField.Statement (.bqRd b field) := opcOf_mkWord ..
theorem Laws.OpcodeField.lfoStep (id : LfoId) (n : BitVec 16) :
    Laws.OpcodeField.Statement (.lfoStep id n) := opcOf_mkWord ..
theorem Laws.OpcodeField.lfoRd (id : LfoId) :
    Laws.OpcodeField.Statement (.lfoRd id) := opcOf_mkWord ..
theorem Laws.OpcodeField.mix :
    Laws.OpcodeField.Statement .mix := opcOf_mkWord ..
theorem Laws.OpcodeField.mixadd :
    Laws.OpcodeField.Statement .mixadd := opcOf_mkWord ..
theorem Laws.OpcodeField.tapStep (c : Lane) (i : TapId) (u : F32) :
    Laws.OpcodeField.Statement (.tapStep c i u) := opcOf_mkWord ..
theorem Laws.OpcodeField.rvStep (c : Lane) (u : F32) :
    Laws.OpcodeField.Statement (.rvStep c u) := opcOf_mkWord ..

end Sys2Proof
end

