-- ==== Sys2Proof/Laws/Status.lean ====
section
/-! SUPPORT. The status map (R29): which indices it has. -/

namespace Sys2Proof.Machine

theorem within_isSome (base k n : Nat) : (within base k n).isSome = decide (base ≤ n ∧ n < base + k) := by
  unfold within toFin?
  split_ifs <;> simp <;> omega

theorem within_none {base k n : Nat} (h : within base k n = none) : ¬(base ≤ n ∧ n < base + k) := by
  have := within_isSome base k n
  rw [h] at this
  simpa using this.symm

theorem within_eq {base k n : Nat} {j : Fin k} (h : within base k n = some j) : base ≤ n ∧ j.val = n - base := by
  unfold within toFin? at h
  split_ifs at h
  simp only [Option.some.injEq] at h
  subst h
  exact ⟨by assumption, rfl⟩

/-- The offset of an item in its group. -/
theorem within_add {base k j : Nat} (h : j < k) : within base k (base + j) = some ⟨j, h⟩ := by
  unfold within toFin?
  simp [h]

/-- An index in none of a group's places. -/
theorem within_of_not {base k n : Nat} (h : ¬(base ≤ n ∧ n < base + k)) : within base k n = none := by
  have := within_isSome base k n
  rw [decide_eq_false h] at this
  simpa using this

/-- The indices of a lane block. -/
theorem statItem_isSome (l : Chan) (j : Nat) :
    (l.statItem j).isSome = decide (j < 12 ∨ (0x10 ≤ j ∧ j < 0x1A) ∨ (0x20 ≤ j ∧ j < 0x2A) ∨ (0x30 ≤ j ∧ j < 0x3A) ∨
      (0x40 ≤ j ∧ j < 0x4A)) := by
  unfold Chan.statItem
  split
  · rename_i k h
    have := within_eq h
    simp only [Option.isSome_some]
    rw [eq_comm, decide_eq_true_eq]
    omega
  rename_i _ h0
  have := within_none h0
  split
  · rename_i k h
    have := within_eq h
    simp only [Option.isSome_some]
    rw [eq_comm, decide_eq_true_eq]
    omega
  rename_i _ h1
  have := within_none h1
  split
  · rename_i k h
    have := within_eq h
    simp only [Option.isSome_some]
    rw [eq_comm, decide_eq_true_eq]
    omega
  rename_i _ h2
  have := within_none h2
  split
  · rename_i k h
    have := within_eq h
    simp only [Option.isSome_some]
    rw [eq_comm, decide_eq_true_eq]
    omega
  rename_i _ h3
  have := within_none h3
  rw [Option.isSome_map, within_isSome, decide_eq_decide]
  omega

/-- The map has an item exactly at the indices a well-formed `RDSTAT` names. -/
theorem statusItem_isSome (s : State) (idx : BitVec 16) : (s.statusItem idx).isSome = inStatusMap idx := by
  unfold State.statusItem
  have hi : inStatusMap idx = decide (∃ iv ∈ statusIntervals, iv.1 ≤ idx.toNat ∧ idx.toNat ≤ iv.2) := by
    simp [inStatusMap, List.any_eq]
  rw [hi]
  simp only [statusIntervals, List.mem_cons, List.not_mem_nil, or_false, exists_eq_or_imp, exists_eq_left]
  generalize idx.toNat = n
  split
  · rename_i k h
    have := within_eq h
    simp only [Option.isSome_some]
    rw [eq_comm, decide_eq_true_eq]
    omega
  rename_i _ h0
  have := within_none h0
  split
  · rename_i k h
    have := within_eq h
    simp only [Option.isSome_some]
    rw [eq_comm, decide_eq_true_eq]
    omega
  rename_i _ h1
  have := within_none h1
  split
  · rename_i k h
    have := within_eq h
    simp only [Option.isSome_some]
    rw [eq_comm, decide_eq_true_eq]
    omega
  rename_i _ h2
  have := within_none h2
  split
  · rename_i k h
    have := within_eq h
    simp only [Option.isSome_some]
    rw [eq_comm, decide_eq_true_eq]
    omega
  rename_i _ h3
  have := within_none h3
  split
  · rename_i k h
    have := within_eq h
    simp only [Option.isSome_some]
    rw [eq_comm, decide_eq_true_eq]
    omega
  rename_i _ h4
  have := within_none h4
  split
  · rename_i k h
    have := within_eq h
    simp only [Option.isSome_some]
    rw [eq_comm, decide_eq_true_eq]
    omega
  rename_i _ h5
  have := within_none h5
  split
  · rename_i k h
    have := within_eq h
    simp only [Option.isSome_some]
    rw [eq_comm, decide_eq_true_eq]
    omega
  rename_i _ h6
  have := within_none h6
  split
  · rename_i k h
    have := within_eq h
    rw [statItem_isSome, decide_eq_decide]
    omega
  rename_i _ h7
  have := within_none h7
  split
  · rename_i k h
    have := within_eq h
    rw [statItem_isSome, decide_eq_decide]
    omega
  rename_i _ h8
  have := within_none h8
  simp only [Option.isSome_none]
  rw [eq_comm, decide_eq_false_iff_not]
  omega

end Sys2Proof.Machine
end

