-- ==== Sys2Proof/Tests/Slice0.lean ====
section
/-! SUPPORT. Tests: the well-formedness check, words written out from the encoding tables, single commands against the
spec's own vectors, and for every statement with hypotheses a state and operands that meet them. -/

namespace Sys2Proof.Tests

open Sys2Proof Sys2Proof.Machine

-- One theorem after another: a kernel evaluation waits for the theorems before it, and each waiting one holds a stack.
set_option Elab.async false

/-! ## Well-formedness: the one check refuses a status index outside R29 -/

theorem test_wf_rdstat_past_globals : (Instr.rdstat 0x000A).wellFormed = false := by decide
theorem test_wf_rdstat_past_ramps : (Instr.rdstat 0x01CA).wellFormed = false := by decide
theorem test_wf_rdstat_last : (Instr.rdstat 0x01C9).wellFormed = true := by decide

/-! ## Decoding: the words of R85 and V30-1, one at least for every command -/

theorem test_decode_nop : decode 0x0000000000000000 = .ok .nop := by decide
theorem test_decode_prepare : decode 0x01000004000003E8 = .ok (.prepare 4 1000) := by decide
theorem test_decode_release : decode 0x0200000000000000 = .ok .release := by decide
theorem test_decode_block : decode 0x0300000400000000 = .ok (.block 4) := by decide
theorem test_decode_sample : decode 0x040100003F800000 = .ok (.sample 1 0x3F800000) := by decide
theorem test_decode_wrparam : decode 0x0500000C3F800000 = .ok (.wrparam 12 0x3F800000) := by decide
theorem test_decode_rdparam : decode 0x0601000100000000 = .ok (.rdparam .snapshot 1) := by decide
theorem test_decode_rdstat : decode 0x0700018A00000000 = .ok (.rdstat 0x018A) := by decide
theorem test_decode_ldarg : decode 0x080000023E800000 = .ok (.ldarg 2 0x3E800000) := by decide
theorem test_decode_rdarg : decode 0x0900000200000000 = .ok (.rdarg 2) := by decide
theorem test_decode_rbCreate : decode 0x1000000000000005 = .ok (.rbCreate 0 5) := by decide
theorem test_decode_rbWrite : decode 0x110000003F800000 = .ok (.rbWrite 0 0x3F800000) := by decide
theorem test_decode_rbReadi : decode 0x1200000000000003 = .ok (.rbReadi 0 3) := by decide
theorem test_decode_rbReadf : decode 0x1300000040200000 = .ok (.rbReadf 0 0x40200000) := by decide
theorem test_decode_rbInterp : decode 0x1400000000000001 = .ok (.rbInterp 0 true) := by decide
theorem test_decode_dlSettime : decode 0x1800000043FA0000 = .ok (.dlSettime 0 0x43FA0000) := by decide
theorem test_decode_dlRead : decode 0x1900000000000000 = .ok (.dlRead 0) := by decide
theorem test_decode_dlWrite : decode 0x1A00000000000000 = .ok (.dlWrite 0) := by decide
theorem test_decode_smOnepole : decode 0x2000000000000000 = .ok .smOnepole := by decide
theorem test_decode_smCoeff : decode 0x210000003C23D70A = .ok (.smCoeff 0x3C23D70A) := by decide
theorem test_decode_rampSet : decode 0x220000013F800000 = .ok (.rampSet 0 1 0x3F800000) := by decide
theorem test_decode_rampAdv : decode 0x2300000100000200 = .ok (.rampAdv 0 1 512) := by decide
theorem test_decode_rampRd : decode 0x2400000100000000 = .ok (.rampRd 0 1) := by decide
theorem test_decode_bqCoef : decode 0x2805000100000000 = .ok (.bqCoef 5 .hp) := by decide
theorem test_decode_bqStep : decode 0x290200003F800000 = .ok (.bqStep 2 0x3F800000) := by decide
theorem test_decode_bqReset : decode 0x2A02000000000000 = .ok (.bqReset 2) := by decide
theorem test_decode_bqRd : decode 0x2B02000300000000 = .ok (.bqRd 2 .a1) := by decide
theorem test_decode_lfoStep : decode 0x3000000100000000 = .ok (.lfoStep .chorusLeft 1) := by decide
theorem test_decode_lfoRd : decode 0x3100000000000000 = .ok (.lfoRd .chorusLeft) := by decide
theorem test_decode_mix : decode 0x3800000000000000 = .ok .mix := by decide
theorem test_decode_mixadd : decode 0x3900000000000000 = .ok .mixadd := by decide
theorem test_decode_tapStep : decode 0x4001000900000000 = .ok (.tapStep 1 9 0) := by decide
theorem test_decode_rvStep : decode 0x410000003F800000 = .ok (.rvStep 0 0x3F800000) := by decide

/-- The words of V30-2 that no port accepts. -/
theorem test_decode_refuses : [0x0000000000000001#64, 0x0A00000000000000#64, 0xFF00000000000000#64,
    0x4200000000000000#64, 0x0402000000000000#64, 0x0400000100000000#64, 0x0500000D00000000#64,
    0x0501000000000000#64, 0x0602000000000000#64, 0x0700000A00000000#64, 0x0700003600000000#64,
    0x0700010C00000000#64, 0x0700013A00000000#64, 0x0800000400000000#64, 0x1016000000000005#64,
    0x1400000000000002#64, 0x1900000000000001#64, 0x2000000000000001#64, 0x2200000A3F800000#64,
    0x287E000000000000#64, 0x2800000300000000#64, 0x2B00000900000000#64, 0x3003000100000000#64,
    0x4000000A00000000#64, 0x010102000000BB80#64].all (fun w => (decode w).toOption.isNone) = true := by decide +kernel

/-- V30-3: `NOP` is no command on the PAR port. -/
theorem test_decodePar_nop : decodePar 0 = .error .notOnPar := by decide

/-! ## One command on a small state, against the spec's vectors -/

/-- Code and data of the response a step's outcome carries. -/
def reply (o : Out) : Option (RspCode × W32) :=
  match o with
  | .next t => t.log.head?.map fun r => (r.code, r.data)
  | .fault _ => none
  | .refused _ => none

/-- The state a step's outcome carries. -/
def stateOf (o : Out) : State :=
  match o with
  | .next t => t
  | .fault _ => .reset
  | .refused _ => .reset

/-- The reset state with these argument registers. -/
def withArgs (a0 a1 a2 : W32) : State := { State.reset with a := #v[a0, a1, a2, 0] }

/-- The ring of R144: capacity 8, the words 1.0, 2.0, 3.0 written. -/
def ring8 : Ring := { cap := 8, widx := 3, interp := true, mem := [(0, 0x3F800000), (1, 0x40000000), (2, 0x40400000)] }

/-- The reset state with ring 0 as R144 has it. -/
def withRing : State := State.reset.setRing 0 ring8

/-- The reset state, but prepared at 48000 Hz and in RUN, every ring the size `PREPARE` gives it, the snapshot of the
reset parameters taken. -/
def running : State :=
  { State.reset with
    life := .run, fs := 48000, maxBlk := 512, nRamp := 2400, snap := snapshotOf paramReset
    rb := Vector.replicate 22 { cap := 131072, widx := 0, interp := true, mem := [] } }

/-- The same before its first block. -/
def prepped : State := { running with life := .prep, snap := Vector.replicate 13 0 }

/-- A state before a CMD word. -/
def offered (w : W64) : State := { State.reset with input := [.cmd w] }

theorem test_nop : reply (exec .nop State.reset) = some (.ok, 0) := by decide +kernel
theorem test_prepare_nramp : (stateOf (exec (.prepare 512 48000) State.reset)).nRamp = 2400 := by decide +kernel
theorem test_prepare_coeff : (stateOf (exec (.prepare 512 48000) State.reset)).cGen = 0x3B086400 := by decide +kernel
theorem test_prepare_refused : reply (exec (.prepare 0 48000) running) = some (.err .config, 0) := by decide +kernel
theorem test_release : ((stateOf (exec .release running)).rb[(21 : RingId)]).cap = 0 := by decide +kernel
theorem test_block_rph : (stateOf (exec (.block 512) prepped)).rph = 0x39AFB0CB := by decide +kernel
theorem test_block_range : reply (exec (.block 513) prepped) = some (.err .range, 0) := by decide +kernel
theorem test_sample_passes : reply (exec (.sample 0 0x3E99999A) running) = some (.ok, 0x3E99999A) := by decide +kernel
theorem test_sample_before_block : reply (exec (.sample 0 0x7FC00000) prepped) = some (.err .state, 0) := by decide +kernel
theorem test_wrparam : (stateOf (exec (.wrparam 3 0x3F800000) State.reset)).param[3] = 0x3F800000 := by decide +kernel
theorem test_rdparam : reply (exec (.rdparam .staging 6) State.reset) = some (.ok, 0x3DCCCCCD) := by decide +kernel
theorem test_rdparam_snapshot : reply (exec (.rdparam .snapshot 6) State.reset) = some (.ok, 0) := by decide +kernel
theorem test_rdstat_interp : reply (exec (.rdstat 0x0060) State.reset) = some (.ok, 1) := by decide +kernel
theorem test_rdstat_after_config :
    reply (exec (.rdstat 0) (stateOf (exec (.prepare 0 0) State.reset))) = some (.ok, 0x400) := by decide +kernel
theorem test_ldarg : (stateOf (exec (.ldarg 2 0x3E800000) State.reset)).a[2] = 0x3E800000 := by decide +kernel
theorem test_rdarg : reply (exec (.rdarg 2) (withArgs 0 0 0x3E800000)) = some (.ok, 0x3E800000) := by decide +kernel
theorem test_rbCreate : reply (exec (.rbCreate 3 100000) State.reset) = some (.ok, 131072) := by decide +kernel
theorem test_rbCreate_range : reply (exec (.rbCreate 0 524289) State.reset) = some (.err .range, 0) := by decide +kernel
theorem test_rbWrite : ((stateOf (exec (.rbWrite 0 0x40800000) withRing)).rb[(0 : RingId)]).widx = 4 := by decide +kernel
theorem test_rbReadi_wraps : reply (exec (.rbReadi 0 8) withRing) = some (.ok, 0x40400000) := by decide +kernel
theorem test_rbReadi_zeroFill : reply (exec (.rbReadi 0 3) withRing) = some (.ok, 0) := by decide +kernel
theorem test_rbReadf : reply (exec (.rbReadf 0 0x3F000000) withRing) = some (.ok, 0x40200000) ∧
    reply (exec (.rbReadf 0 0x3FE00000) withRing) = some (.ok, 0x3FA00000) := by decide +kernel
/-- R148 (c) at `d` = -0.0: newest word -0.0, the one before it +0.0, answer +0.0. -/
theorem test_rbReadf_negZero :
    reply (exec (.rbReadf 0 0x80000000) (State.reset.setRing 0 { ring8 with mem := [(2, 0x80000000)] })) = some (.ok, 0) := by
  decide +kernel
theorem test_rbInterp :
    reply (exec (.rbReadf 0 0x3F000000) (stateOf (exec (.rbInterp 0 false) withRing))) = some (.ok, 0x40400000) := by
  decide +kernel
theorem test_dlSettime : (stateOf (exec (.dlSettime 0 0x43FA0000) State.reset)).dl[(0 : RingId)] = 0x43FA0000 := by
  decide +kernel
/-- `d` = 0.24 at 0.005 ms and 48000 Hz (R155): 0.24 * 2.0 + 0.76 * 3.0 with each product rounded. -/
theorem test_dlRead : reply (exec (.dlRead 0) ((running.setRing 0 ring8).setDl 0 0x3BA3D70A)) = some (.ok, 0x4030A3D7) := by
  decide +kernel
theorem test_dlWrite : reply (exec (.dlWrite 0) { withArgs 0x3F800000 0x3F000000 0x3E800000 with rb := withRing.rb }) =
    some (.ok, 0x3F900000) := by decide +kernel
/-- R6: an all-pass Q of 0, a NaN depth, equal rows of tap times are no calibration. -/
theorem test_calibration_constraints :
    ({ Calibration.cal0 with apQ := Vector.replicate 5 Config.f0 } : Calibration).valid = false ∧
    ({ Calibration.cal0 with chorusDepth := 0x7FC00000 } : Calibration).valid = false ∧
    ({ Calibration.cal0 with tapMs := Vector.replicate 2 (Vector.replicate 10 Config.f1) } : Calibration).valid = false := by
  decide +kernel
theorem test_smOnepole : reply (exec .smOnepole (withArgs 0x3F800000 0 0x3E800000)) = some (.ok, 0x3F400000) := by
  decide +kernel
theorem test_smCoeff : reply (exec (.smCoeff 0x3C23D70A) running) = some (.ok, 0x3B086400) := by decide +kernel
theorem test_rampSet :
    ((((stateOf (exec (.rampSet 0 1 0x3F800000) running)).ch[(0 : Lane)]).ramp)[(1 : RampId)]).step = 0x39DA740E := by
  decide +kernel
theorem test_rampAdv :
    reply (exec (.rampAdv 0 1 512) (stateOf (exec (.rampSet 0 1 0x3F800000) running))) = some (.ok, 0x3E5A740E) := by
  decide +kernel
theorem test_rampRd : reply (exec (.rampRd 1 9) State.reset) = some (.ok, 0) := by decide +kernel
theorem test_bqCoef :
    ((stateOf (exec (.bqCoef 0 .lp) { running with a := #v[0x45DAC000, 0x3F3504F3, 0, 0] })).bq[(0 : StageId)]).a1 =
      0xBF47AC28 := by decide +kernel
theorem test_bqCoef_zeroQ : reply (exec (.bqCoef 0 .lp) running) = some (.err .range, 0) := by decide +kernel
theorem test_bqStep_identity : reply (exec (.bqStep 7 0x3E99999A) State.reset) = some (.ok, 0x3E99999A) := by
  decide +kernel
theorem test_bqReset :
    ((stateOf (exec (.bqReset 2) (State.reset.setBq 2 { Biquad.reset with x1 := Config.f1 }))).bq[(2 : StageId)]).x1 = 0 := by
  decide +kernel
theorem test_bqRd : reply (exec (.bqRd 17 .b0) State.reset) = some (.ok, 0x3F800000) := by decide +kernel
theorem test_lfoStep :
    (stateOf (exec (.lfoStep .chorusLeft 12000) { running with a := #v[0x3F800000, 0x40000000, 0, 0] })).phase .chorusLeft =
      0x3FC90FDB := by decide +kernel
theorem test_lfoStep_sine :
    reply (exec (.lfoStep .reverb 1) { running with a := #v[0x3F800000, 0x40000000, 0, 0], rph := 0x3FC90FDB }) =
      some (.ok, 0x40000000) := by decide +kernel
theorem test_lfoRd : reply (exec (.lfoRd .reverb) State.reset) = some (.ok, 0) := by decide +kernel
theorem test_mix : reply (exec .mix (withArgs 0x40000000 0x40800000 0x3FC00000)) = some (.ok, 0x40A00000) := by
  decide +kernel
theorem test_mixadd : reply (exec .mixadd (withArgs 0x3F000000 0x3E800000 0x3F000000)) = some (.ok, 0x3F200000) := by
  decide +kernel
theorem test_tapStep : reply (exec (.tapStep 0 0 0x3F800000) running) = some (.ok, 0) := by decide +kernel
theorem test_tapStep_write :
    ((stateOf (exec (.tapStep 0 0 0x3F800000) running)).rb[(1 : RingId)]).mem = [(0, 0x3F800000)] := by decide +kernel
theorem test_rvStep : reply (exec (.rvStep 0 0x3F800000) running) = some (.ok, 0) := by decide +kernel

/-! ## For every statement with hypotheses, a state and operands that meet them -/

/-- The boundary frequencies and lengths below: rings of one word and of 2^19 words. -/
def ringOf (cap : W32) : State := State.reset.setRing 0 { cap := cap, widx := 0, interp := true, mem := [] }

/-- `running` with argument registers. -/
def runningWith (a0 a1 : W32) : State := { running with a := #v[a0, a1, 0, 0] }

theorem witness_running_sized : running.sizedOk := by unfold State.sizedOk; decide +kernel
theorem witness_prepped_sized : prepped.sizedOk := by unfold State.sizedOk; decide +kernel
theorem witness_reset_sized : State.reset.sizedOk := by unfold State.sizedOk; decide +kernel

theorem witness_ringOk (g : Ring) (k : Fin 20) (hc : g.cap.toNat = 2 ^ k.val) (hw : g.widx.toNat < g.cap.toNat)
    (hm : memWf g.mem = true) (hb : memBelow g.mem g.cap.toNat = true) : g.Ok :=
  ⟨.inr ⟨k, hc⟩, fun _ => hw, hm, hb⟩

theorem witness_running_rings : running.ringsOk := by
  intro r
  have h : running.rb[r] = { cap := 131072, widx := 0, interp := true, mem := [] } := by simp [running]
  rw [h]
  exact witness_ringOk _ 17 (by decide) (by decide) (by decide) (by decide)

theorem witness_running_phases : running.phasesOk := by
  intro id
  cases id <;> exact ⟨by decide +kernel, by decide +kernel⟩

theorem witness_running_snap : running.snapOk := by
  intro _
  exact ⟨by decide +kernel, by decide +kernel, by unfold inRange; decide +kernel, by unfold inRange; decide +kernel,
    by decide +kernel, by decide +kernel, by unfold inRange; decide +kernel, by decide +kernel,
    by unfold inRange; decide +kernel, by decide +kernel, by unfold inRange; decide +kernel, by decide +kernel,
    by unfold inRange; decide +kernel⟩

/-- Any command answers a next state from any state. -/
theorem witness_exec (i : Instr) (s : State) : ∃ t, exec i s = .next t := ⟨_, exec_eq i s⟩

theorem witness_DecodeOfEncodeIsTheCommand : (Instr.rdstat 0x0000).wellFormed = true ∧
    (Instr.rdstat 0x01C9).wellFormed = true ∧ (Instr.sample 1 0xFFFFFFFF).wellFormed = true := by decide
theorem witness_DecodedWordIsItsEncoding : decode 0x070001C900000000 = .ok (.rdstat 0x01C9) := by decide
theorem witness_DecodedWordSelectsItsTableRow : decode 0x040100003F800000 = .ok (.sample 1 0x3F800000) ∧
    (0x040100003F800000#64 &&& (rowOf (.sample 0 0)).1 = (rowOf (.sample 0 0)).2) ∧
    ∀ j : Instr, 0x0000000000000001#64 &&& (rowOf j).1 ≠ (rowOf j).2 :=
  ⟨by decide, by decide, fun j => by cases j <;> simp only [rowOf] <;> decide⟩
theorem witness_ReservedOpcodeIsRefusedIllegal :
    (offered 0x0A00000000000000).input = [.cmd 0x0A00000000000000] ∧
    ∀ o ∈ [0x0A, 0x0F, 0x15, 0x17, 0x1B, 0x1F, 0x25, 0x27, 0x2C, 0x2F, 0x32, 0x37, 0x3A, 0x3F, 0x42, 0xFF],
      (0x0A ≤ o ∧ o ≤ 0x0F) ∨ (0x15 ≤ o ∧ o ≤ 0x17) ∨ (0x1B ≤ o ∧ o ≤ 0x1F) ∨ (0x25 ≤ o ∧ o ≤ 0x27) ∨
      (0x2C ≤ o ∧ o ≤ 0x2F) ∨ (0x32 ≤ o ∧ o ≤ 0x37) ∨ (0x3A ≤ o ∧ o ≤ 0x3F) ∨ (0x42 : Nat) ≤ o :=
  ⟨rfl, by decide⟩
theorem witness_IllegalWordIsRefused :
    (offered 0xFF00000000000000).input = [.cmd 0xFF00000000000000] ∧
    ∀ i : Instr, i.wellFormed = true → encode i ≠ 0xFF00000000000000 := by
  refine ⟨rfl, fun i _ h => ?_⟩
  have ho := congrArg opcOf h
  have : Laws.OpcodeField.opcode i = 0xFF := by
    rw [← show opcOf (encode i) = Laws.OpcodeField.opcode i by cases i <;> exact opcOf_mkWord ..]
    exact ho
  cases i <;> simp [Laws.OpcodeField.opcode] at this
theorem witness_ParPortAcceptsOnlyParameterCommands :
    decode 0x0500000C3F800000 = .ok (.wrparam 12 0x3F800000) ∧
    decode 0x0601000200000000 = .ok (.rdparam .snapshot 2) ∧
    (∀ p v, encode (.wrparam p v) ≠ 0) ∧ ∀ sp p, encode (.rdparam sp p) ≠ 0 := by
  refine ⟨by decide, by decide, fun p v h => ?_, fun sp p h => ?_⟩
  · have ho := congrArg opcOf h
    rw [Laws.OpcodeField.wrparam p v] at ho
    exact absurd (show (0x05 : BitVec 8) = opcOf 0 from ho) (by decide)
  · have ho := congrArg opcOf h
    rw [Laws.OpcodeField.rdparam sp p] at ho
    exact absurd (show (0x06 : BitVec 8) = opcOf 0 from ho) (by decide)
theorem witness_StepRunsTheDecodedCommand :
    (offered 0x0300000400000000).input = [.cmd 0x0300000400000000] ∧ decode 0x0300000400000000 = .ok (.block 4) := by
  decide
theorem witness_ResetEventRestoresResetState :
    ({ running with input := [.reset] } : State).input = [.reset] ∧ running.input = [] := ⟨rfl, rfl⟩
theorem witness_EveryCommandGetsOneResponse :
    (offered 0).input = [.cmd 0] ∧ ({ running with input := [.par 0] } : State).input = [.par 0] := ⟨rfl, rfl⟩
theorem witness_ResponseCodeIsFirstFailingCheck : State.reset.sizedOk ∧ prepped.sizedOk ∧ running.sizedOk :=
  ⟨witness_reset_sized, witness_prepped_sized, witness_running_sized⟩
theorem witness_RefusedCommandChangesOnlyItsStickyBit :
    exec (.sample 0 0) State.reset = .next (State.reset.refuse .state) ∧
    (State.reset.refuse .state).log = ⟨State.reset.port, .err .state, 0⟩ :: State.reset.log := ⟨rfl, rfl⟩
theorem witness_RefusedPrepareLeavesUnprepared : (0#32).toNat < 1 ∧ 262144 < (262145#32).toNat ∧ (0#16).toNat < 1 := by
  decide
theorem witness_StickyBitsAreOnlyEverSet :
    (∀ rest, (offered 1).input ≠ .reset :: rest) ∧ ∃ t, step (offered 1) = .next t :=
  ⟨fun rest h => by simp [offered] at h, _, rfl⟩
theorem witness_ControlRegistersHaveTheirStatedWriters :
    (∃ t, exec .nop State.reset = .next t) ∧ (∃ t, exec (.block 4) running = .next t) :=
  ⟨witness_exec .., witness_exec ..⟩
theorem witness_RingAndLaneFlagsHaveTheirStatedWriters :
    (∃ t, exec (.sample 0 0) running = .next t) ∧ ∀ m f, Instr.sample 0 0 ≠ .prepare m f :=
  ⟨witness_exec .., fun _ _ h => (nomatch h)⟩
theorem witness_ReadOnlyAndPureCommandsChangeNothing : ∃ t, exec (.rbReadi 0 3) withRing = .next t := witness_exec ..
theorem witness_LaneCommandsTouchOnlyTheirLane : (∃ t, exec (.sample 1 Config.f1) running = .next t) ∧
    (∃ t, exec (.tapStep 0 9 Config.f1) running = .next t) ∧ ∃ t, exec (.rvStep 1 Config.f1) running = .next t :=
  ⟨witness_exec .., witness_exec .., witness_exec ..⟩
theorem witness_SamplesOfTheTwoLanesCommute : running.sizedOk ∧ running.life = .run ∧ F32.isFinite Config.f1 = true ∧
    F32.isFinite 0xFF7FFFFF = true := ⟨witness_running_sized, rfl, by decide, by decide⟩
theorem witness_ParameterWriteIsInvisibleUntilBlock : (∃ t, exec (.sample 0 Config.f1) running = .next t) ∧
    (∀ n, Instr.sample 0 Config.f1 ≠ .block n) ∧ (∀ sp q, Instr.sample 0 Config.f1 ≠ .rdparam sp q) ∧
    ∀ q u, Instr.sample 0 Config.f1 ≠ .wrparam q u :=
  ⟨witness_exec .., fun _ h => (nomatch h), fun _ _ h => (nomatch h), fun _ _ h => (nomatch h)⟩
theorem witness_RegisterWriteCommandsWriteOneRegister : F32.isFinite 0x43FA0000 = true := by decide
theorem witness_PrepareInitialisesTheSignalPath : 1 ≤ (1#32).toNat ∧ (262144#32).toNat ≤ 262144 ∧ 1 ≤ (1#16).toNat := by
  decide
/-- For the three statements about `BLOCK`: the first block and a later one, the longest block. -/
theorem witness_Block : prepped.life ≠ .unprep ∧ prepped.life = .prep ∧ running.life ≠ .unprep ∧ running.life = .run ∧
    (512#16).toNat ≤ prepped.maxBlk.toNat ∧ (0#16).toNat ≤ running.maxBlk.toNat := by decide
/-- For the three statements about `SAMPLE`. -/
theorem witness_Sample : running.ringsOk ∧ running.sizedOk ∧ running.life = .run ∧ F32.isFinite 0x3F000000 = true :=
  ⟨witness_running_rings, witness_running_sized, rfl, by decide⟩
theorem witness_RingCreateZeroFillsTheSmallestPowerOfTwo :
    State.reset.life = .unprep ∧ 1 ≤ (1#32).toNat ∧ (524288#32).toNat ≤ 524288 := by decide
/-- For the statements about `RB_WRITE` and `DL_WRITE`: the smallest and the largest ring. -/
theorem witness_RingWrite : ((ringOf 1).rb[(0 : RingId)]).Ok ∧ ((ringOf 1).rb[(0 : RingId)]).cap ≠ 0 ∧
    ((ringOf 524288).rb[(0 : RingId)]).Ok ∧ ((ringOf 524288).rb[(0 : RingId)]).cap ≠ 0 :=
  ⟨witness_ringOk _ 0 (by decide) (by decide) (by decide) (by decide), by decide,
    witness_ringOk _ 19 (by decide) (by decide) (by decide) (by decide), by decide⟩
theorem witness_IntegerReadWrapsAtTheCapacity : (withRing.rb[(0 : RingId)]).cap ≠ 0 ∧
    (0#32).toNat = (8#32).toNat % (withRing.rb[(0 : RingId)]).cap.toNat := by decide
theorem witness_FractionalReadInterpolates :
    (withRing.rb[(0 : RingId)]).cap ≠ 0 ∧ F32.isFinite 0x3F000000 = true ∧ F32.isFinite 0xBF000000 = true := by decide
/-- One delay that is finite in samples, one that is not. -/
theorem witness_DelayReadConvertsMillisecondsToSamples :
    running.life ≠ .unprep ∧ (running.rb[(0 : RingId)]).cap ≠ 0 ∧
    F32.isFinite (F32.div (F32.mul 0x43FA0000 (F32.ofNat running.fs.toNat)) Config.f1000) = true ∧
    F32.isFinite (F32.div (F32.mul 0x7F7FFFFF (F32.ofNat running.fs.toNat)) Config.f1000) = false := by decide +kernel
theorem witness_RingReturnsTheWordsWritten :
    State.reset.life = .unprep ∧ 1 ≤ (5#32).toNat ∧ (524288#32).toNat ≤ 524288 := by decide
theorem witness_PureArithmeticCommandsAnswerTheirFormula : running.life ≠ .unprep ∧
    F32.isFinite 0x00000001 = true ∧ F32.gt 0x00000001 Config.f0 = true ∧
    F32.isFinite 0x7F7FFFFF = true ∧ F32.gt 0x7F7FFFFF Config.f0 = true := by decide
theorem witness_RampCommandsMoveOneRamp : prepped.life ≠ .unprep ∧ F32.isFinite Config.f1 = true := by decide
/-- A ramp at rest at 0 sent up to 1.0 and one sent down to -1.0, in advances of 512 and 2400 steps. -/
theorem witness_RampLandsOnItsTargetAndNeverPasses :
    F32.isFinite Config.f1 = true ∧ F32.fne Config.f1 Ramp.reset.tgt = true ∧ (2400#32).toNat ≤ [512, 2400].sum ∧
    F32.isFinite Ramp.reset.cur = true ∧ (∀ n ∈ [512, 2400], n < 2 ^ 32) ∧ F32.lt Ramp.reset.cur Config.f1 = true ∧
    F32.isFinite 0xBF800000 = true ∧ F32.fne 0xBF800000 Ramp.reset.tgt = true ∧
    F32.gt Ramp.reset.cur 0xBF800000 = true := by decide
theorem witness_OnePoleAndCrossfadeFixedPoints : F32.isFinite 0xFF7FFFFF = true ∧ F32.isFinite 0x80000000 = true ∧
    F32.isFinite 0x3F000000 = true := by decide
theorem witness_BiquadCoefficientsFollowTheDesign : (runningWith 0x45DAC000 0x00000001).life ≠ .unprep ∧
    F32.isFinite (runningWith 0x45DAC000 0x00000001).a[1] = true ∧
    F32.gt (runningWith 0x45DAC000 0x00000001).a[1] Config.f0 = true := by decide
theorem witness_BiquadStepAndResetMoveOneHistory : F32.isFinite 0x00000001 = true ∧ F32.isFinite 0xFF7FFFFF = true := by
  decide
/-- The rate 0. -/
theorem witness_LfoStepAnswersThenAdvances : (runningWith Config.f0 Config.f1).life ≠ .unprep ∧
    F32.isFinite (runningWith Config.f0 Config.f1).a[0] = true ∧
    F32.ge (runningWith Config.f0 Config.f1).a[0] Config.f0 = true ∧
    F32.ge Config.fRateMax (runningWith Config.f0 Config.f1).a[0] = true ∧
    F32.isFinite (runningWith Config.f0 Config.f1).a[1] = true := by decide
/-- The largest rate. -/
theorem witness_LfoStepAnswersThenAdvances_top : (runningWith Config.fRateMax Config.f1).life ≠ .unprep ∧
    F32.isFinite (runningWith Config.fRateMax Config.f1).a[0] = true ∧
    F32.ge (runningWith Config.fRateMax Config.f1).a[0] Config.f0 = true ∧
    F32.ge Config.fRateMax (runningWith Config.fRateMax Config.f1).a[0] = true ∧
    F32.isFinite (runningWith Config.fRateMax Config.f1).a[1] = true := by decide
theorem witness_TapStepRunsOneTap : running.life ≠ .unprep ∧ (running.rb[tapRing 1 9]).cap ≠ 0 ∧
    F32.isFinite Config.f1 = true := by decide
theorem witness_ReverbStepSumsTheTenTaps : running.life ≠ .unprep ∧ (∀ i : TapId, (running.rb[tapRing 1 i]).cap ≠ 0) ∧
    F32.isFinite Config.f1 = true := by decide
theorem witness_ArithmeticRoundsToNearestEven : F32.isFinite 0x7F7FFFFF = true ∧ F32.isFinite 0x00000001 = true ∧
    F32.val 0x00000001 ≠ 0 := by
  refine ⟨by decide, by decide, ?_⟩
  have h : F32.sunits (0x00000001 : F32) = 1 := by decide
  unfold F32.val
  rw [h]
  norm_num
theorem witness_ConstantsAreTheNearestValues : (8 : TapId) < 9 := by decide
theorem witness_TranscendentalsHaveTheirStatedProperties :
    F32.isFinite 0x7F7FFFFF = true ∧
    (F32.isFinite 0xC2AE0000 = true ∧ F32.ge Config.f0 0xC2AE0000 = true ∧ F32.ge 0xC2AE0000 0xC2AE0000 = true) ∧
    (F32.gt 0x00000001 Config.f0 = true ∧ F32.ge 0x3FB4F4AC 0x00000001 = true) ∧ F32.gt 0x3FB4F4AC Config.f0 = true ∧
    F32.isNaN 0x7FC00000 = true := by decide
theorem witness_PhaseWrapIsTheExactRemainder : F32.isFinite Config.fTwoPi = true ∧ F32.ge Config.fTwoPi Config.f0 = true ∧
    F32.sign Config.fTwoPi = false := by decide
/-- Bounds in order and crossed, a NaN, values on both bounds. -/
theorem witness_ClampsFollowTheirRule : F32.isNaN Config.f20 = false ∧ F32.isNaN Config.f7000 = false ∧
    F32.ge Config.f7000 Config.f20 = true ∧ F32.gt Config.f7000 Config.f20 = true ∧ F32.isNaN 0x7FC00000 = true ∧
    (F32.ge Config.f20 Config.f20 = true ∧ F32.ge Config.f7000 Config.f20 = true) ∧ (2 ^ 31 - 1 : Nat) < 2 ^ 31 ∧
    (0 : Nat) < 2 ^ 31 := by decide
/-- For each clause operands that meet it: the NaN, the two infinities, the two zeros, the smallest and the largest value. -/
theorem witness_ArithmeticOnSpecialOperands :
    F32.isNaN 0x7F800001 = true ∧ F32.isInf 0x7F800000 = true ∧ F32.isInf 0xFF800000 = true ∧
    F32.sign 0x7F800000 ≠ F32.sign 0xFF800000 ∧ F32.isZero 0 = true ∧ F32.isZero 0x80000000 = true ∧
    F32.isFinite 0x80000000 = true ∧ F32.isFinite 0x00000001 = true ∧ F32.isZero 0x00000001 = false ∧
    F32.isFinite 0x7F7FFFFF = true ∧ F32.isZero 0x7F7FFFFF = false ∧
    F32.isNaN 0x7F800000 = false ∧ F32.isNaN 0x00000001 = false ∧
    F32.val 0x80000000 + F32.val 0x80000000 = 0 ∧ F32.val 0x80000000 - F32.val 0 = 0 := by
  have h : F32.val 0x80000000 = 0 := by
    unfold F32.val; rw [show F32.sunits (0x80000000 : F32) = 0 by decide]; norm_num
  have h0 : F32.val 0 = 0 := by
    unfold F32.val; rw [show F32.sunits (0 : F32) = 0 by decide]; norm_num
  rw [h, h0]
  refine ⟨?_, ?_, ?_, ?_, ?_, ?_, ?_, ?_, ?_, ?_, ?_, ?_, ?_, by norm_num, by norm_num⟩ <;> decide
/-- An integer 2^24; -0.0, which is an integer and not below 0; a NaN; the infinities. -/
theorem witness_ConversionsAndComparisons : (2 ^ 24 : Nat) ≤ 2 ^ 24 ∧ F32.isFinite 0x80000000 = true ∧
    0 ≤ F32.val 0x80000000 ∧ F32.val 0x80000000 = (⌊F32.val 0x80000000⌋ : ℚ) ∧ F32.isNaN 0x7F800001 = true ∧
    F32.isInf 0x7F800000 = true ∧ F32.isInf 0xFF800000 = true ∧ F32.isNaN 0xFF800000 = false ∧
    F32.isFinite 0x7F7FFFFF = true := by
  have h : F32.val 0x80000000 = 0 := by
    unfold F32.val; rw [show F32.sunits (0x80000000 : F32) = 0 by decide]; norm_num
  rw [h]
  refine ⟨le_refl _, by decide, le_refl _, by simp, ?_, ?_, ?_, ?_, ?_⟩ <;> decide
theorem witness_StepKeepsRingMemory : running.ringsOk ∧ ∃ t, step running = .next t := ⟨witness_running_rings, _, rfl⟩
theorem witness_StepKeepsPhases : running.sizedOk ∧ running.snapOk ∧ running.phasesOk ∧ ∃ t, step running = .next t :=
  ⟨witness_running_sized, witness_running_snap, witness_running_phases, _, rfl⟩
theorem witness_StepKeepsRegisterInvariants : (∃ t, step State.reset = .next t) ∧ State.reset.rampsOk ∧
    State.reset.zeroOk ∧ State.reset.lengthsOk ∧ State.reset.peaksOk := by
  refine ⟨⟨_, rfl⟩, ?_, ?_, ?_, ?_⟩
  · unfold State.rampsOk; decide +kernel
  · unfold State.zeroOk; decide +kernel
  · unfold State.lengthsOk; decide +kernel
  · unfold State.peaksOk inRange; decide +kernel

end Sys2Proof.Tests
end

section
/-! The smallest power of two not below a length (R13), and the ring `RB_CREATE` leaves (R140, R141). -/

namespace Sys2Proof

theorem nextPow2_isPow2 (n : Nat) : ∃ k, nextPow2 n = 2 ^ k := by
  unfold nextPow2
  split
  · exact ⟨0, rfl⟩
  · exact ⟨_, rfl⟩

theorem le_nextPow2 (n : Nat) : n ≤ nextPow2 n := by
  unfold nextPow2
  split
  · assumption
  · have := Nat.lt_log2_self (n := n - 1)
    omega

/-- `nextPow2` is below every power of two that is not below its argument. -/
theorem nextPow2_le_pow {n k : Nat} (h : n ≤ 2 ^ k) : nextPow2 n ≤ 2 ^ k := by
  unfold nextPow2
  split
  · exact Nat.one_le_two_pow
  · have hlog : Nat.log2 (n - 1) < k := (Nat.log2_lt (by omega)).2 (by omega)
    exact Nat.pow_le_pow_right (by decide) hlog

namespace Machine

/-- The capacity of a created ring as a number, for the lengths R258 allows. -/
theorem Ring.create_cap_toNat (g : Ring) {len : Nat} (h : len ≤ 2 ^ 19) :
    (g.create len).cap.toNat = nextPow2 len := by
  have hcap : nextPow2 len ≤ 2 ^ 19 := nextPow2_le_pow h
  simp only [Ring.create, BitVec.toNat_ofNat]
  omega

/-- `RB_CREATE` of an allowed length in the unprepared state passes its checks (R256, R258). -/
theorem verdict_rbCreate {r : RingId} {len : W32} {s : State} (hlife : s.life = .unprep) (h1 : 1 ≤ len.toNat)
    (h2 : len.toNat ≤ 2 ^ 19) : verdict (.rbCreate r len) s = none := by
  have hlen : len.toNat ≤ Config.capMax := h2
  simp [verdict, State.prepared, hlife, h1, hlen]

/-- Settles O34: the command answers by `exec_eq`, and the capacity it gives is `nextPow2` of the length. -/
theorem ringCreateZeroFillsTheSmallestPowerOfTwo : Obligations.RingCreateZeroFillsTheSmallestPowerOfTwo := by
  intro r len s hlife h1 h2
  let g := (s.rb[r]).create len.toNat
  have hexec : exec (.rbCreate r len) s = .next ((s.setRing r g).respond .ok g.cap) := by
    rw [exec_eq, after, verdict_rbCreate hlife h1 h2]; rfl
  have hring : ((s.setRing r g).respond .ok g.cap).rb[r] = g := by
    rw [State.respond, setRing_get, if_pos rfl]
  have hcap : g.cap.toNat = nextPow2 len.toNat := Ring.create_cap_toNat _ h2
  refine ⟨_, hexec, ?_⟩
  simp only [State.word, hring, hcap]
  refine ⟨rfl, nextPow2_isPow2 _, le_nextPow2 _, fun k hk => nextPow2_le_pow hk, rfl, rfl, fun i => rfl, ?_⟩
  intro r' hr
  rw [State.respond, setRing_get, if_neg (Ne.symm hr)]

/-! ## The invariants right after reset -/

theorem Ring.reset_ok : Ring.reset.Ok where
  capPow2 := .inl rfl
  widxBelow h := absurd rfl h
  canonical := rfl
  inside := rfl

/-- The phase 0 is in `[0, TWO_PI)`. -/
theorem phaseOk_zero : phaseOk 0 := by unfold phaseOk; decide

/-- The meter value 0 is in `[0, 1]`. -/
theorem inRange_zero : inRange Config.f0 Config.f1 0 := by unfold inRange; decide

/-- A ring right after reset. -/
theorem reset_rb (r : RingId) : State.reset.rb[r] = Ring.reset := Vector.getElem_replicate r.isLt

/-- A lane right after reset. -/
theorem reset_ch (c : Lane) : State.reset.ch[c] = Chan.reset := Vector.getElem_replicate c.isLt

/-- A ramp of a lane right after reset. -/
theorem reset_ramp (q : RampId) : Chan.reset.ramp[q] = Ramp.reset := Vector.getElem_replicate q.isLt

/-- Every phase register right after reset. -/
theorem reset_phase (id : LfoId) : State.reset.phase id = 0 := by
  cases id with
  | chorusLeft => exact congrArg Chan.cph (reset_ch 0)
  | chorusRight => exact congrArg Chan.cph (reset_ch 1)
  | reverb => rfl

/-- Settles O57: each register an invariant speaks of has its value from the lemmas above; the calibration carries its
check. -/
theorem resetMeetsTheInvariants : Obligations.ResetMeetsTheInvariants := by
  refine ⟨?rings, ?sized, ?phases, ?ramps, ?snap, ?peaks, ?zero, ?lengths, ?cal⟩
  case rings => intro r; rw [reset_rb]; exact Ring.reset_ok
  case sized => exact fun h => absurd rfl h
  case phases => intro id; rw [reset_phase]; exact phaseOk_zero
  case ramps => intro c q; rw [reset_ch, reset_ramp]; exact Nat.zero_le _
  case snap => exact fun h => nomatch h
  case peaks => intro c; rw [reset_ch]; exact ⟨inRange_zero, inRange_zero⟩
  case zero => intro c; rw [reset_ch]; exact ⟨fun _ => rfl, fun _ => rfl⟩
  case lengths => exact ⟨by decide, by decide⟩
  case cal => exact fun s => Calibration.ok_of_valid s.cal.isValid

end Machine

end Sys2Proof
end

section
/-! The order of the values that are no NaN (R7), and the clamps (R12). -/

namespace Sys2Proof

namespace F32

/-! ## Comparisons as comparisons of keys -/

theorem lt_iff {a b : F32} : lt a b = true ↔ a.isNaN = false ∧ b.isNaN = false ∧ a.key < b.key := by
  simp [lt, and_assoc]

theorem gt_iff {a b : F32} : gt a b = true ↔ a.isNaN = false ∧ b.isNaN = false ∧ b.key < a.key := by
  rw [gt, lt_iff, and_left_comm]

theorem ge_iff {a b : F32} : ge a b = true ↔ a.isNaN = false ∧ b.isNaN = false ∧ b.key ≤ a.key := by
  simp [ge, and_assoc]

theorem feq_iff {a b : F32} : feq a b = true ↔ a.isNaN = false ∧ b.isNaN = false ∧ a.key = b.key := by
  simp [feq, and_assoc]

theorem fne_iff {a b : F32} : fne a b = true ↔ ¬feq a b = true := by simp [fne]

/-- A value that is no NaN is not below itself. -/
theorem ge_self {a : F32} (h : a.isNaN = false) : ge a a = true := ge_iff.2 ⟨h, h, le_refl _⟩

/-- The order is total on values that are no NaN. -/
theorem ge_of_not_gt {a b : F32} (ha : a.isNaN = false) (hb : b.isNaN = false) (h : ¬gt a b = true) : ge b a = true := by
  rw [gt_iff] at h
  exact ge_iff.2 ⟨hb, ha, not_lt.1 fun hlt => h ⟨ha, hb, hlt⟩⟩

theorem gt_of_ge_of_gt {a b c : F32} (h1 : ge a b = true) (h2 : gt b c = true) : gt a c = true := by
  obtain ⟨ha, -, hab⟩ := ge_iff.1 h1
  obtain ⟨-, hc, hbc⟩ := gt_iff.1 h2
  exact gt_iff.2 ⟨ha, hc, by omega⟩

/-- A NaN is in no order with any value. -/
theorem compare_nan {a b : F32} (h : a.isNaN = true ∨ b.isNaN = true) :
    lt a b = false ∧ gt a b = false ∧ ge a b = false ∧ feq a b = false ∧ fne a b = true := by
  rcases h with h | h <;> simp [lt, gt, ge, feq, fne, h]

/-! ## `clampF` -/

/-- The clamp to ordered bounds lies between them. -/
theorem inRange_clamp {v lo hi : F32} (h : ge hi lo = true) : Machine.inRange lo hi (clamp v lo hi) := by
  obtain ⟨hhi, hlo, -⟩ := ge_iff.1 h
  by_cases h1 : ge v lo = true
  · rw [clamp_of_ge h1]
    split
    · exact ⟨h, ge_self hhi⟩
    · exact ⟨h1, ge_of_not_gt (ge_iff.1 h1).1 hhi ‹_›⟩
  · rw [clamp_of_not_ge (by simpa using h1)]
    exact ⟨ge_self hlo, h⟩

/-- A value between the bounds is its own clamp. -/
theorem clamp_of_inRange {v lo hi : F32} (h : Machine.inRange lo hi v) : clamp v lo hi = v := by
  obtain ⟨hlo, hhi⟩ := h
  rw [clamp_of_ge hlo, if_neg]
  intro hgt
  have hle := (ge_iff.1 hhi).2.2
  have hlt := (gt_iff.1 hgt).2.2
  omega

/-- The clamp to crossed bounds. -/
theorem clamp_crossed {v lo hi : F32} (h : gt lo hi = true) : clamp v lo hi = if ge v lo = true then hi else lo := by
  split
  · rw [clamp_of_ge ‹_›, if_pos (gt_of_ge_of_gt ‹_› h)]
  · exact clamp_of_not_ge (Bool.eq_false_of_not_eq_true ‹_›)

/-- A NaN goes to the lower bound. -/
theorem clamp_nan {v lo hi : F32} (h : v.isNaN = true) : clamp v lo hi = lo :=
  clamp_of_not_ge (compare_nan (.inl h)).2.2.1

end F32

/-- `clampI` is the middle one of its three integers, below the sign bit (R12). -/
theorem clampDelay_toInt (w : W32) {n : Nat} (h : n < 2 ^ 31) : (clampDelay w n).toInt = min (max w.toInt 0) (n : Int) := by
  unfold clampDelay
  rw [BitVec.toInt_eq_toNat_of_lt (by rw [BitVec.toNat_ofNat]; omega), BitVec.toNat_ofNat]
  omega

/-- Settles O58: each clause is one of the lemmas on the clamps. -/
theorem clampsFollowTheirRule : Obligations.ClampsFollowTheirRule := by
  refine ⟨fun v lo hi _ _ => ⟨?chain, F32.clamp_nan, F32.clamp_crossed, ?ordered⟩, fun w n => clampDelay_toInt w⟩
  case chain =>
    split
    · exact F32.clamp_of_ge ‹_›
    · exact F32.clamp_of_not_ge (Bool.eq_false_of_not_eq_true ‹_›)
  case ordered => exact fun h => ⟨F32.inRange_clamp h, F32.clamp_of_inRange⟩

end Sys2Proof
end

section
/-! Rounding (R7): the finite values are a grid of integers in units of 2^-149, and `roundMag` answers the pattern of
the grid point nearest to a quotient, ties to even. -/

namespace Sys2Proof.F32

/-! ## The grid of finite values -/

/-- What a magnitude pattern stands for, in units of 2^-149. -/
def patUnits (p : Nat) : Nat := if p / 2 ^ 23 = 0 then p % 2 ^ 23 else (2 ^ 23 + p % 2 ^ 23) * 2 ^ (p / 2 ^ 23 - 1)

theorem units_eq_patUnits (v : F32) : v.units = patUnits v.mag := rfl

/-- A pattern written as exponent steps and a significand, a carry out of 24 bits allowed. -/
theorem patUnits_steps {k m : Nat} (hm : m ≤ 2 ^ 24) (hk : k = 0 ∨ 2 ^ 23 ≤ m) :
    patUnits (k * 2 ^ 23 + m) = m * 2 ^ k := by
  unfold patUnits
  rcases Nat.lt_or_ge m (2 ^ 23) with h | h
  · obtain rfl : k = 0 := by omega
    rw [if_pos (by omega)]
    omega
  rcases Nat.eq_or_lt_of_le hm with rfl | h'
  · rw [if_neg (by omega), show (k * 2 ^ 23 + 2 ^ 24) / 2 ^ 23 - 1 = k + 1 by omega,
      show (k * 2 ^ 23 + 2 ^ 24) % 2 ^ 23 = 0 by omega, pow_succ]
    ring
  · rw [if_neg (by omega), show (k * 2 ^ 23 + m) / 2 ^ 23 - 1 = k by omega,
      show 2 ^ 23 + (k * 2 ^ 23 + m) % 2 ^ 23 = m by omega]

/-- Every pattern is exponent steps and a significand of 24 bits, or fewer in the subnormal range. -/
theorem exists_steps (p : Nat) : ∃ k m, p = k * 2 ^ 23 + m ∧ m < 2 ^ 24 ∧ (k = 0 ∨ 2 ^ 23 ≤ m) :=
  ⟨p / 2 ^ 23 - 1, p - (p / 2 ^ 23 - 1) * 2 ^ 23, by omega, by omega, by omega⟩

theorem patUnits_strictMono : StrictMono patUnits := by
  refine strictMono_nat_of_lt_succ fun p => ?_
  obtain ⟨k, m, rfl, hm, hk⟩ := exists_steps p
  rw [Nat.add_assoc, patUnits_steps hm.le hk, patUnits_steps hm (by omega)]
  exact Nat.mul_lt_mul_of_pos_right (Nat.lt_succ_self m) (Nat.two_pow_pos k)

/-- A significand of 24 bits times a power of two: what a finite F32 can be, were there no largest one. -/
def OnGrid (n : Nat) : Prop := ∃ m j, m < 2 ^ 24 ∧ n = m * 2 ^ j

theorem onGrid_units (v : F32) : OnGrid v.units := by
  obtain ⟨k, m, hp, hm, hk⟩ := exists_steps v.mag
  exact ⟨m, k, hm, by rw [units_eq_patUnits, hp, patUnits_steps hm.le hk]⟩

theorem onGrid_zero : OnGrid 0 := ⟨0, 0, by decide, rfl⟩

/-- 2^24 itself is on the grid too, at the next power of two. -/
theorem onGrid_of_le {m : Nat} (h : m ≤ 2 ^ 24) (j : Nat) : OnGrid (m * 2 ^ j) := by
  rcases Nat.eq_or_lt_of_le h with rfl | h
  · exact ⟨2 ^ 23, j + 1, by decide, by rw [pow_succ 2 j]; ring⟩
  · exact ⟨m, j, h, rfl⟩

/-- The remainder of a grid point by a power of two is a grid point: it drops leading bits of the significand. -/
theorem OnGrid.mod {n : Nat} (h : OnGrid n) (e : Nat) : OnGrid (n % 2 ^ e) := by
  obtain ⟨m, j, hm, rfl⟩ := h
  rcases Nat.le_total e j with he | he
  · rw [Nat.mod_eq_zero_of_dvd (Dvd.dvd.mul_left (pow_dvd_pow 2 he) m)]
    exact onGrid_zero
  · obtain ⟨i, rfl⟩ := Nat.exists_eq_add_of_le' he
    rw [pow_add, Nat.mul_mod_mul_right]
    exact ⟨_, j, lt_of_le_of_lt (Nat.mod_le _ _) hm, rfl⟩

/-- Above 2^(k + 23) the grid has the spacing 2^k. -/
theorem OnGrid.dvd_or_lt {n : Nat} (h : OnGrid n) (k : Nat) : 2 ^ k ∣ n ∨ n < 2 ^ (k + 23) := by
  obtain ⟨m, j, hm, rfl⟩ := h
  rcases Nat.lt_or_ge j k with hj | hj
  · right
    calc m * 2 ^ j < 2 ^ 24 * 2 ^ j := Nat.mul_lt_mul_of_pos_right hm (Nat.two_pow_pos j)
      _ = 2 ^ (24 + j) := (pow_add 2 24 j).symm
      _ ≤ 2 ^ (k + 23) := Nat.pow_le_pow_right (by decide) (by omega)
  · exact .inl (Dvd.dvd.mul_left (pow_dvd_pow 2 hj) m)

@[simp] theorem natAbs_sunits (v : F32) : v.sunits.natAbs = v.units := by unfold sunits; split <;> simp

/-- The spacing of the grid, for the signed value of an F32. -/
theorem sunits_dvd_or_lt (v : F32) (k : Nat) : (2 ^ k : Int) ∣ v.sunits ∨ v.sunits < 2 ^ (k + 23) := by
  rcases (onGrid_units v).dvd_or_lt k with h | h
  · left
    rw [← natAbs_sunits] at h
    exact_mod_cast Int.natCast_dvd.2 h
  · right
    rw [← natAbs_sunits] at h
    calc v.sunits ≤ (v.sunits.natAbs : Int) := Int.le_natAbs
      _ < 2 ^ (k + 23) := by exact_mod_cast h

/-! ## `roundHalfEven` -/

/-- The rounded integer is within half a unit of the quotient. -/
theorem roundHalfEven_near (n : Nat) {d : Nat} (hd : 0 < d) :
    2 * n ≤ 2 * (roundHalfEven n d * d) + d ∧ 2 * (roundHalfEven n d * d) ≤ 2 * n + d := by
  have hn := Nat.div_add_mod' n d
  have hr := Nat.mod_lt n hd
  unfold roundHalfEven
  simp only
  split_ifs
  · omega
  · rw [Nat.add_mul]; omega
  · rcases Nat.mod_two_eq_zero_or_one (n / d) with h | h <;> rw [h, Nat.add_mul] <;> omega

/-- At a tie the rounded integer is even. -/
theorem roundHalfEven_tie {n d : Nat} (hd : 0 < d)
    (h : 2 * n = 2 * (roundHalfEven n d * d) + d ∨ 2 * (roundHalfEven n d * d) = 2 * n + d) :
    roundHalfEven n d % 2 = 0 := by
  have hn := Nat.div_add_mod' n d
  have hr := Nat.mod_lt n hd
  unfold roundHalfEven at h ⊢
  simp only at h ⊢
  split_ifs at h ⊢
  · omega
  · rw [Nat.add_mul] at h; omega
  · omega

theorem roundHalfEven_le {n d c : Nat} (hd : 0 < d) (h : n < c * d) : roundHalfEven n d ≤ c := by
  have hnear := (roundHalfEven_near n hd).2
  by_contra hc
  have : (c + 1) * d ≤ roundHalfEven n d * d := Nat.mul_le_mul_right d (by omega)
  rw [Nat.add_mul] at this
  omega

theorem le_roundHalfEven {n d c : Nat} (hd : 0 < d) (h : c * d ≤ n) : c ≤ roundHalfEven n d := by
  have hnear := (roundHalfEven_near n hd).1
  by_contra hc
  have : (roundHalfEven n d + 1) * d ≤ c * d := Nat.mul_le_mul_right d (by omega)
  rw [Nat.add_mul] at this
  omega

/-- Of all integers the rounded one is nearest to the quotient, and even where another is as near. -/
theorem roundHalfEven_nearest (n : Nat) {d : Nat} (hd : 0 < d) {w : Int} (hw : w ≠ roundHalfEven n d) :
    |(roundHalfEven n d * d - n : Int)| < |w * d - n| ∨
      |(roundHalfEven n d * d - n : Int)| = |w * d - n| ∧ roundHalfEven n d % 2 = 0 := by
  have hnear := roundHalfEven_near n hd
  have htie := roundHalfEven_tie (n := n) hd
  generalize roundHalfEven n d = m at *
  have hgap : w * d ≤ m * d - d ∨ (m * d + d : Int) ≤ w * d := by
    rcases lt_or_gt_of_ne hw with h | h
    · left; nlinarith
    · right; nlinarith
  have hcast : ((m * d : Nat) : Int) = m * d := Nat.cast_mul m d
  generalize m * d = p at *
  generalize w * (d : Int) = q at *
  rw [← hcast] at hgap ⊢
  rcases abs_cases ((p : Int) - n) with h1 | h1 <;> rcases abs_cases (q - n) with h2 | h2 <;> omega

/-! ## The exponent and the significand of a rounded quotient -/

/-- The spacing of the grid at `n / d`, as a power of two. -/
def roundExp (n d : Nat) : Nat := Nat.log2 (n / d) - 23

/-- The rounded significand of `n / d`. -/
def roundSig (n d : Nat) : Nat := roundHalfEven n (d * 2 ^ roundExp n d)

theorem roundMag_eq (n d : Nat) : roundMag n d = min infMag (roundExp n d * 2 ^ 23 + roundSig n d) := rfl

theorem lt_roundExp (n : Nat) {d : Nat} (hd : 0 < d) : n < 2 ^ 24 * (d * 2 ^ roundExp n d) := by
  have h : n / d < 2 ^ (roundExp n d + 24) :=
    lt_of_lt_of_le Nat.lt_log2_self (Nat.pow_le_pow_right (by decide) (by unfold roundExp; omega))
  calc n < 2 ^ (roundExp n d + 24) * d := (Nat.div_lt_iff_lt_mul hd).1 h
    _ = 2 ^ 24 * (d * 2 ^ roundExp n d) := by rw [pow_add]; ring

theorem roundExp_le (n : Nat) {d : Nat} (hd : 0 < d) : roundExp n d = 0 ∨ 2 ^ 23 * (d * 2 ^ roundExp n d) ≤ n := by
  rcases Nat.eq_zero_or_pos (roundExp n d) with h | h
  · exact .inl h
  right
  have hq : n / d ≠ 0 := by
    intro h0
    rw [roundExp, h0] at h
    exact absurd h (by decide)
  have hpow : 2 ^ (roundExp n d + 23) ≤ n / d := by
    rw [show roundExp n d + 23 = Nat.log2 (n / d) by unfold roundExp at *; omega]
    exact Nat.log2_self_le hq
  calc 2 ^ 23 * (d * 2 ^ roundExp n d) = 2 ^ (roundExp n d + 23) * d := by rw [pow_add]; ring
    _ ≤ n := (Nat.le_div_iff_mul_le hd).1 hpow

theorem roundSig_le (n : Nat) {d : Nat} (hd : 0 < d) : roundSig n d ≤ 2 ^ 24 :=
  roundHalfEven_le (by positivity) (lt_roundExp n hd)

theorem le_roundSig (n : Nat) {d : Nat} (hd : 0 < d) : roundExp n d = 0 ∨ 2 ^ 23 ≤ roundSig n d :=
  (roundExp_le n hd).imp_right (le_roundHalfEven (by positivity))

/-- A rounded quotient that is finite, in units of 2^-149. -/
theorem patUnits_roundMag {n d : Nat} (hd : 0 < d) (h : roundMag n d < infMag) :
    patUnits (roundMag n d) = roundSig n d * 2 ^ roundExp n d := by
  rw [roundMag_eq] at h ⊢
  rw [Nat.min_eq_right (by omega), patUnits_steps (roundSig_le n hd) (le_roundSig n hd)]

/-- The rounded quotient is the grid point nearest to `n / d`, its significand even where another one is as near. -/
theorem roundSig_nearest (n : Nat) {d : Nat} (hd : 0 < d) {w : Int}
    (hgrid : (2 ^ roundExp n d : Int) ∣ w ∨ w < 2 ^ (roundExp n d + 23))
    (hw : w ≠ roundSig n d * 2 ^ roundExp n d) :
    |(roundSig n d * 2 ^ roundExp n d * d - n : Int)| < |w * d - n| ∨
      |(roundSig n d * 2 ^ roundExp n d * d - n : Int)| = |w * d - n| ∧ roundSig n d % 2 = 0 := by
  have hD : 0 < d * 2 ^ roundExp n d := by positivity
  have hnearest := fun w hw => roundHalfEven_nearest n hD (w := w) hw
  have hlow := roundExp_le n hd
  rw [← roundSig] at hnearest
  generalize roundExp n d = k at *
  generalize roundSig n d = m at *
  push_cast at hnearest
  have hscale (v : Int) : v * 2 ^ k * d = v * (d * 2 ^ k) := by ring
  rw [hscale]
  by_cases hdvd : (2 ^ k : Int) ∣ w
  · obtain ⟨v, rfl⟩ := hdvd
    rw [mul_comm (2 ^ k : Int) v] at hw ⊢
    rw [hscale]
    exact hnearest v fun he => hw (by rw [he])
  · left
    have hlt : w < 2 ^ (k + 23) := hgrid.resolve_left hdvd
    have hle : (2 ^ 23 * (d * 2 ^ k) : Int) ≤ n := by
      have hk : k ≠ 0 := by rintro rfl; exact hdvd (by simp)
      exact_mod_cast hlow.resolve_left hk
    have hbase : |(m * (d * 2 ^ k) - n : Int)| ≤ |(2 ^ 23 * (d * 2 ^ k) - n : Int)| := by
      by_cases hm : (2 ^ 23 : Int) = m
      · rw [hm]
      · rcases hnearest _ hm with h | h
        · exact h.le
        · exact h.1.le
    have hwd : w * d < 2 ^ 23 * (d * 2 ^ k) :=
      calc w * d < 2 ^ (k + 23) * d := by gcongr
        _ = 2 ^ 23 * (d * 2 ^ k) := by ring
    rw [abs_of_nonpos (sub_nonpos.2 hle)] at hbase
    rw [abs_of_nonpos (a := w * d - n) (by linarith)]
    linarith

/-- A grid point below the overflow threshold rounds to itself. -/
theorem roundSig_of_onGrid {n : Nat} (h : OnGrid n) : roundSig n 1 * 2 ^ roundExp n 1 = n := by
  by_contra hne
  have hgrid : (2 ^ roundExp n 1 : Int) ∣ n ∨ (n : Int) < 2 ^ (roundExp n 1 + 23) := by
    exact_mod_cast h.dvd_or_lt (roundExp n 1)
  have hpos : (0 : Int) < |(roundSig n 1 * 2 ^ roundExp n 1 * (1 : Nat) - n : Int)| := by
    rw [abs_pos, Nat.cast_one, mul_one, sub_ne_zero]
    exact_mod_cast hne
  rcases roundSig_nearest n one_pos hgrid (by exact_mod_cast Ne.symm hne) with h' | ⟨h', -⟩ <;>
    simp only [Nat.cast_one, mul_one, sub_self, abs_zero] at h' hpos <;> omega

/-- The overflow threshold: halfway past the largest finite value, in units of 2^-149. -/
theorem roundMag_lt_infMag_iff (n : Nat) {d : Nat} (hd : 0 < d) :
    roundMag n d < infMag ↔ n < (2 ^ 25 - 1) * 2 ^ 252 * d := by
  have hD : 0 < d * 2 ^ roundExp n d := by positivity
  have hnear := roundHalfEven_near n hD
  have htie := roundHalfEven_tie (n := n) hD
  have hup := lt_roundExp n hd
  have hlow := roundExp_le n hd
  have hle := roundSig_le n hd
  have hge := le_roundSig n hd
  rw [roundMag_eq, min_lt_iff, or_iff_right (lt_irrefl _)]
  rw [← roundSig] at hnear htie
  generalize roundSig n d = m at *
  generalize roundExp n d = k at *
  unfold infMag
  rcases lt_trichotomy k 253 with hk | rfl | hk
  · have hpow : 2 ^ k ≤ 2 ^ 252 := Nat.pow_le_pow_right (by decide) (by omega)
    have := Nat.mul_le_mul_left d hpow
    omega
  · rcases Nat.lt_or_ge m (2 ^ 24 - 1) with hm | hm
    · have := Nat.mul_le_mul_right (d * 2 ^ 253) (Nat.le_sub_one_of_lt hm)
      omega
    · obtain rfl | rfl : m = 2 ^ 24 - 1 ∨ m = 2 ^ 24 := by omega
      · omega
      · omega
  · have hpow : 2 ^ 254 ≤ 2 ^ k := Nat.pow_le_pow_right (by decide) (by omega)
    have := Nat.mul_le_mul_left d hpow
    omega

end Sys2Proof.F32
end

section
/-! Addition, subtraction, multiplication and division of finite values round the exact result (R7). -/

namespace Sys2Proof.F32

/-! ## Values and zeros -/

theorem cast_val (v : F32) : ((v.val : ℚ) : ℝ) = (v.sunits : ℝ) / 2 ^ 149 := by simp [val]

theorem sunits_eq (v : F32) : v.sunits = if v.sign = true then -(v.units : Int) else v.units := rfl

@[simp] theorem sunits_neg (v : F32) : (neg v).sunits = -v.sunits := by
  rw [sunits_eq, sunits_eq, units_neg, sign_neg]
  cases v.sign <;> simp

@[simp] theorem isFinite_neg (v : F32) : (neg v).isFinite = v.isFinite := by rw [isFinite, mag_neg, isFinite]

@[simp] theorem isNaN_neg (v : F32) : (neg v).isNaN = v.isNaN := by rw [isNaN, mag_neg, isNaN]

@[simp] theorem isInf_neg (v : F32) : (neg v).isInf = v.isInf := by rw [isInf, mag_neg, isInf]

theorem val_eq_val_iff {v w : F32} : v.val = w.val ↔ v.sunits = w.sunits := by
  unfold val
  rw [div_left_inj' (by positivity), Int.cast_inj]

theorem units_eq_zero_iff {v : F32} : v.units = 0 ↔ v.isZero = true := by
  rw [units_eq_patUnits, isZero, beq_iff_eq]
  exact patUnits_strictMono.injective.eq_iff' (by decide)

theorem sunits_eq_zero_iff {v : F32} : v.sunits = 0 ↔ v.isZero = true := by
  rw [← Int.natAbs_eq_zero, natAbs_sunits, units_eq_zero_iff]

theorem val_eq_zero_iff {v : F32} : v.val = 0 ↔ v.isZero = true := by
  rw [← sunits_eq_zero_iff]
  simp [val]

/-! ## The operations on finite operands -/

theorem roundMag_lt (n d : Nat) : roundMag n d < 2 ^ 31 := lt_of_le_of_lt (roundMag_le n d) (by decide)

theorem addAs_of_finite (op : Config.Op) {a b : F32} (ha : a.isFinite = true) (hb : b.isFinite = true) :
    addAs op a b = ofUnits (a.sign && b.sign) (a.sunits + b.sunits) := by
  simp [addAs, not_isNaN_of_isFinite, not_isInf_of_isFinite, ha, hb]

theorem add_of_finite {a b : F32} (ha : a.isFinite = true) (hb : b.isFinite = true) :
    add a b = ofUnits (a.sign && b.sign) (a.sunits + b.sunits) := addAs_of_finite _ ha hb

theorem sub_of_finite {a b : F32} (ha : a.isFinite = true) (hb : b.isFinite = true) :
    sub a b = ofUnits (a.sign && !b.sign) (a.sunits - b.sunits) := by
  rw [sub, addAs_of_finite _ ha (by rwa [isFinite_neg]), sign_neg, sunits_neg, sub_eq_add_neg]

theorem mul_of_finite {a b : F32} (ha : a.isFinite = true) (hb : b.isFinite = true) :
    mul a b = pack (a.sign != b.sign) (roundMag (a.units * b.units) (2 ^ 149)) := by
  simp [mul, not_isNaN_of_isFinite, not_isInf_of_isFinite, ha, hb]

theorem div_of_finite {a b : F32} (ha : a.isFinite = true) (hb : b.isFinite = true) (hz : b.isZero = false) :
    div a b = pack (a.sign != b.sign) (roundMag (a.units * 2 ^ 149) b.units) := by
  simp [div, not_isNaN_of_isFinite, not_isInf_of_isFinite, ha, hb, hz]

/-! ## Rounding to nearest, ties to even -/

/-- The distance of a value from a quotient, over their common denominator. -/
theorem dist_val (w : F32) (n : Nat) {d : Nat} (hd : 0 < d) :
    |(w.val : ℝ) - (n : ℝ) / d / 2 ^ 149| = ((|w.sunits * d - n| : Int) : ℝ) / (d * 2 ^ 149) := by
  have hd' : (0 : ℝ) < d := Nat.cast_pos.2 hd
  have hdiff : (w.val : ℝ) - (n : ℝ) / d / 2 ^ 149 = ((w.sunits * d - n : Int) : ℝ) / (d * 2 ^ 149) := by
    rw [cast_val]
    push_cast
    field_simp
  rw [hdiff, abs_div, abs_of_pos (a := (d : ℝ) * 2 ^ 149) (by positivity), Int.cast_abs]

theorem isFinite_pack_roundMag (s : Bool) (n d : Nat) :
    (pack s (roundMag n d)).isFinite = true ↔ roundMag n d < infMag := by
  rw [isFinite, mag_pack s (roundMag_lt n d), decide_eq_true_eq]

theorem sunits_pack_false {n d : Nat} (hd : 0 < d) (h : roundMag n d < infMag) :
    (pack false (roundMag n d)).sunits = roundSig n d * 2 ^ roundExp n d := by
  rw [sunits_eq, units_eq_patUnits, sign_pack _ (roundMag_lt n d), mag_pack _ (roundMag_lt n d),
    patUnits_roundMag hd h]
  simp

/-- `roundMag` answers the nearest F32, the even one at a tie, an infinity from the overflow threshold on. -/
theorem roundsTo_pack_false (n : Nat) {d : Nat} (hd : 0 < d) :
    RoundsTo ((n : ℝ) / d / 2 ^ 149) (pack false (roundMag n d)) := by
  have hd' : (0 : ℝ) < d := Nat.cast_pos.2 hd
  have hx : 0 ≤ (n : ℝ) / d / 2 ^ 149 := by positivity
  have hnearest (w : F32) (hfin : (pack false (roundMag n d)).isFinite = true)
      (hw : w.val ≠ (pack false (roundMag n d)).val) :=
    roundSig_nearest n hd (sunits_dvd_or_lt w (roundExp n d))
      (by rwa [ne_eq, val_eq_val_iff, sunits_pack_false hd ((isFinite_pack_roundMag ..).1 hfin)] at hw)
  refine ⟨?finite, ?infinite, ?nearest, ?even⟩
  case finite =>
    have hbound : ((overflow : ℚ) : ℝ) * (d * 2 ^ 149) = (((2 ^ 25 - 1) * 2 ^ 252 * d : Nat) : ℝ) := by
      rw [overflow, show 2 ^ 25 - 1 = 33554431 from rfl]
      push_cast
      ring
    rw [isFinite_pack_roundMag, roundMag_lt_infMag_iff n hd, abs_of_nonneg hx, div_div,
      div_lt_iff₀ (by positivity), hbound, Nat.cast_lt]
  case infinite =>
    intro hinf
    rw [sign_pack _ (roundMag_lt n d), isInf, mag_pack _ (roundMag_lt n d), beq_iff_eq]
    have hle := roundMag_le n d
    have hge := (isFinite_pack_roundMag false n d).not.1 (by simp [hinf])
    exact ⟨by omega, by simp, fun h => absurd h (not_lt.2 hx)⟩
  case nearest =>
    intro hfin w _
    by_cases hw : w.val = (pack false (roundMag n d)).val
    · rw [hw]
    · rw [dist_val _ n hd, dist_val _ n hd, sunits_pack_false hd ((isFinite_pack_roundMag ..).1 hfin)]
      refine div_le_div_of_nonneg_right (Int.cast_le.2 ?_) (by positivity)
      rcases hnearest w hfin hw with h | h
      · exact h.le
      · exact h.1.le
  case even =>
    intro hfin w _ hw hdist
    have hlt := (isFinite_pack_roundMag ..).1 hfin
    rw [dist_val _ n hd, dist_val _ n hd, sunits_pack_false hd hlt, div_left_inj' (by positivity), Int.cast_inj] at hdist
    rcases hnearest w hfin hw with h | ⟨-, h⟩
    · exact absurd hdist h.ne'
    · rw [mag_pack _ (roundMag_lt n d), roundMag_eq]
      rw [roundMag_eq] at hlt
      omega

/-- The negated result is the negated value rounded. -/
theorem RoundsTo.neg {x : ℝ} {r : F32} (h : RoundsTo x r) : RoundsTo (-x) (neg r) := by
  have hval (v : F32) : ((F32.neg v).val : ℝ) = -v.val := by
    rw [cast_val, cast_val, sunits_neg, Int.cast_neg, neg_div]
  have hdist (v : F32) : |(v.val : ℝ) - -x| = |((F32.neg v).val : ℝ) - x| := by
    rw [hval, ← abs_neg]
    congr 1
    ring
  have hr : |((F32.neg r).val : ℝ) - -x| = |(r.val : ℝ) - x| := by rw [hdist, F32.neg_neg]
  refine ⟨?finite, ?infinite, ?nearest, ?even⟩
  case finite => rw [isFinite_neg, abs_neg]; exact h.finite_iff
  case infinite =>
    rw [isFinite_neg, isInf_neg, sign_neg]
    intro hinf
    obtain ⟨hisInf, hsign⟩ := h.infinite hinf
    have hx : x ≠ 0 := by
      rintro rfl
      have hfin := h.finite_iff.2 (by rw [abs_zero, overflow]; norm_num)
      rw [hfin] at hinf
      cases hinf
    refine ⟨hisInf, ?_⟩
    rw [Bool.not_eq_true', ← Bool.not_eq_true, hsign, neg_neg_iff_pos, not_lt]
    exact hx.symm.le_iff_lt
  case nearest =>
    rw [isFinite_neg]
    intro hfin w hw
    rw [hr, hdist]
    exact h.nearest hfin _ (by rwa [isFinite_neg])
  case even =>
    rw [isFinite_neg, mag_neg]
    intro hfin w hw hne hdw
    rw [hr, hdist] at hdw
    refine h.even hfin _ (by rwa [isFinite_neg]) ?_ hdw
    rw [ne_eq, val_eq_val_iff, sunits_neg, neg_eq_iff_eq_neg, ← sunits_neg, ← val_eq_val_iff]
    exact hne

/-- A rounded quotient with a sign. -/
theorem roundsTo_pack (s : Bool) (n : Nat) {d : Nat} (hd : 0 < d) :
    RoundsTo ((if s = true then -(n : ℝ) else n) / d / 2 ^ 149) (pack s (roundMag n d)) := by
  cases s with
  | false => exact roundsTo_pack_false n hd
  | true =>
    have hneg : pack true (roundMag n d) = neg (pack false (roundMag n d)) :=
      by
      have hlt := roundMag_lt n d
      exact ext_sign_mag (by rw [sign_neg, sign_pack _ hlt, sign_pack _ hlt]; rfl)
        (by rw [mag_neg, mag_pack _ hlt, mag_pack _ hlt])
    rw [hneg, if_pos rfl, neg_div, neg_div]
    exact (roundsTo_pack_false n hd).neg

/-- An exact sum in units of 2^-149, rounded once; a zero takes either sign. -/
theorem roundsTo_ofUnits (zs : Bool) (i : Int) : RoundsTo ((i : ℝ) / 2 ^ 149) (ofUnits zs i) := by
  rcases eq_or_ne i 0 with rfl | hi
  · simpa [ofUnits, show roundMag 0 1 = 0 from rfl] using roundsTo_pack zs 0 one_pos
  · have habs : (if decide (i < 0) = true then -(i.natAbs : ℝ) else i.natAbs) = i := by
      rw [Nat.cast_natAbs]
      rcases lt_or_ge i 0 with h | h
      · simp [abs_of_neg h, h]
      · simp [abs_of_nonneg h, h]
    have h := roundsTo_pack (decide (i < 0)) i.natAbs one_pos
    rw [habs, Nat.cast_one, div_one] at h
    rwa [ofUnits, if_neg hi]

/-! ## The four operations -/

theorem roundsTo_add {a b : F32} (ha : a.isFinite = true) (hb : b.isFinite = true) :
    RoundsTo ((a.val : ℝ) + b.val) (add a b) := by
  rw [add_of_finite ha hb, cast_val, cast_val, ← add_div, ← Int.cast_add]
  exact roundsTo_ofUnits _ _

theorem roundsTo_sub {a b : F32} (ha : a.isFinite = true) (hb : b.isFinite = true) :
    RoundsTo ((a.val : ℝ) - b.val) (sub a b) := by
  rw [sub_of_finite ha hb, cast_val, cast_val, ← sub_div, ← Int.cast_sub]
  exact roundsTo_ofUnits _ _

/-- A finite value as its sign and its magnitude. -/
theorem cast_sunits (v : F32) : (v.sunits : ℝ) = if v.sign = true then -(v.units : ℝ) else v.units := by
  rw [sunits_eq]
  split <;> simp

/-- The sign of a product. -/
theorem signed_mul (s t : Bool) (x y : ℝ) :
    (if s = true then -x else x) * (if t = true then -y else y) = if (s != t) = true then -(x * y) else x * y := by
  cases s <;> cases t <;> simp

/-- The sign of a quotient. -/
theorem signed_div (s t : Bool) (x y : ℝ) :
    (if s = true then -x else x) / (if t = true then -y else y) = if (s != t) = true then -(x / y) else x / y := by
  cases s <;> cases t <;> simp [neg_div, div_neg]

theorem roundsTo_mul {a b : F32} (ha : a.isFinite = true) (hb : b.isFinite = true) :
    RoundsTo ((a.val : ℝ) * b.val) (mul a b) := by
  have hexact : (a.val : ℝ) * b.val = (if (a.sign != b.sign) = true then -((a.units * b.units : Nat) : ℝ)
      else (a.units * b.units : Nat)) / (2 ^ 149 : Nat) / 2 ^ 149 := by
    rw [cast_val, cast_val, div_mul_div_comm, cast_sunits, cast_sunits, signed_mul, Nat.cast_mul,
      Nat.cast_pow, Nat.cast_ofNat, div_div]
  rw [hexact, mul_of_finite ha hb]
  exact roundsTo_pack _ _ (by positivity)

theorem roundsTo_div {a b : F32} (ha : a.isFinite = true) (hb : b.isFinite = true) (hz : b.isZero = false) :
    RoundsTo ((a.val : ℝ) / b.val) (div a b) := by
  have hu : 0 < b.units := by
    rw [Nat.pos_iff_ne_zero, ne_eq, units_eq_zero_iff, hz]
    decide
  have hexact : (a.val : ℝ) / b.val = (if (a.sign != b.sign) = true then -((a.units * 2 ^ 149 : Nat) : ℝ)
      else (a.units * 2 ^ 149 : Nat)) / b.units / 2 ^ 149 := by
    rw [cast_val, cast_val, div_div_div_cancel_right₀ (by positivity), cast_sunits, cast_sunits, signed_div,
      Nat.cast_mul, Nat.cast_pow, Nat.cast_ofNat]
    split <;> field_simp
  rw [hexact, div_of_finite ha hb hz]
  exact roundsTo_pack _ _ hu

/-- Settles O50: each operation is `roundMag` of its exact result as a quotient of integers. -/
theorem arithmeticRoundsToNearestEven : Obligations.ArithmeticRoundsToNearestEven := by
  intro a b ha hb
  refine ⟨roundsTo_add ha hb, roundsTo_sub ha hb, roundsTo_mul ha hb, fun hz => roundsTo_div ha hb ?_⟩
  rwa [ne_eq, val_eq_zero_iff, Bool.not_eq_true] at hz

end Sys2Proof.F32
end

section
/-! The four operations on the operands whose exact result is no real number or is zero (R7). -/

namespace Sys2Proof.F32

/-! ## The classes exclude each other -/

theorem not_isNaN_of_isInf {v : F32} (h : v.isInf = true) : v.isNaN = false := by
  simp only [isInf, isNaN, beq_iff_eq, decide_eq_false_iff_not] at *; omega

theorem not_isZero_of_isInf {v : F32} (h : v.isInf = true) : v.isZero = false := by
  simp only [isInf, isZero, beq_iff_eq, beq_eq_false_iff_ne] at *; rw [h]; decide

theorem isFinite_of_isZero {v : F32} (h : v.isZero = true) : v.isFinite = true := by
  simp only [isFinite, isZero, beq_iff_eq, decide_eq_true_eq] at *; rw [h]; decide

@[simp] theorem isInf_pack_infMag (s : Bool) : (pack s infMag).isInf = true := by
  rw [isInf, mag_pack s (by decide), beq_self_eq_true]

@[simp] theorem sign_pack_infMag (s : Bool) : (pack s infMag).sign = s := sign_pack s (by decide)

@[simp] theorem isZero_pack_zero (s : Bool) : (pack s 0).isZero = true := by
  rw [isZero, mag_pack s (by decide), beq_self_eq_true]

@[simp] theorem sign_pack_zero (s : Bool) : (pack s 0).sign = s := sign_pack s (by decide)

/-! ## Sums and differences -/

theorem addAs_isNaN (op : Config.Op) {a b : F32} (h : a.isNaN = true ∨ b.isNaN = true) : (addAs op a b).isNaN = true := by
  rw [addAs, if_pos (by simpa using h), isNaN_nan]

theorem addAs_inf_left (op : Config.Op) {a b : F32} (ha : a.isInf = true) (hb : b.isFinite = true) :
    addAs op a b = a := by
  simp [addAs, not_isNaN_of_isInf ha, ha, not_isNaN_of_isFinite hb, not_isInf_of_isFinite hb]

theorem addAs_inf_right (op : Config.Op) {a b : F32} (ha : a.isFinite = true) (hb : b.isInf = true) :
    addAs op a b = b := by
  simp [addAs, not_isNaN_of_isInf hb, hb, not_isNaN_of_isFinite ha, not_isInf_of_isFinite ha]

/-- Infinities of one sign add up; of opposite signs they have no sum. -/
theorem addAs_inf_inf (op : Config.Op) {a b : F32} (ha : a.isInf = true) (hb : b.isInf = true) :
    addAs op a b = if a.sign = b.sign then a else nan op a b := by
  by_cases hs : a.sign = b.sign <;>
    simp [addAs, not_isNaN_of_isInf ha, not_isNaN_of_isInf hb, ha, hb, hs]

theorem sub_inf_inf {a b : F32} (ha : a.isInf = true) (hb : b.isInf = true) :
    sub a b = if a.sign = b.sign then nan .sub a (neg b) else a := by
  rw [sub, addAs_inf_inf _ ha (by rwa [isInf_neg]), sign_neg]
  cases a.sign <;> cases b.sign <;> rfl

theorem ofUnits_zero (zs : Bool) : ofUnits zs 0 = pack zs 0 := rfl

/-- The sign of an exact zero sum is + unless both addends are negative. -/
theorem add_exact_zero {a b : F32} (ha : a.isFinite = true) (hb : b.isFinite = true) (h : a.val + b.val = 0) :
    add a b = pack (a.sign && b.sign) 0 := by
  have hs : a.sunits + b.sunits = 0 := by
    rw [val, val, ← add_div, div_eq_zero_iff, or_iff_left (by positivity)] at h
    exact_mod_cast h
  rw [add_of_finite ha hb, hs, ofUnits_zero]

theorem sub_exact_zero {a b : F32} (ha : a.isFinite = true) (hb : b.isFinite = true) (h : a.val - b.val = 0) :
    sub a b = pack (a.sign && !b.sign) 0 := by
  rw [sub_of_finite ha hb, val_eq_val_iff.1 (sub_eq_zero.1 h), Int.sub_self, ofUnits_zero]

/-! ## Products -/

theorem mul_isNaN {a b : F32} (h : a.isNaN = true ∨ b.isNaN = true) : (mul a b).isNaN = true := by
  rcases h with h | h <;> simp [mul, h]

theorem mul_inf_zero_isNaN {a b : F32} (h : a.isInf = true ∧ b.isZero = true ∨ a.isZero = true ∧ b.isInf = true) :
    (mul a b).isNaN = true := by
  rcases h with ⟨ha, hb⟩ | ⟨ha, hb⟩ <;> simp [mul, ha, hb]

theorem mul_to_inf {a b : F32} (hna : a.isNaN = false) (hnb : b.isNaN = false) (hza : a.isZero = false)
    (hzb : b.isZero = false) (h : a.isInf = true ∨ b.isInf = true) : mul a b = pack (a.sign != b.sign) infMag := by
  rcases h with h | h <;> simp [mul, hna, hnb, hza, hzb, h]

/-- The sign of a finite product, a rounded or an exact zero among them. -/
theorem mul_sign {a b : F32} (ha : a.isFinite = true) (hb : b.isFinite = true) :
    (mul a b).sign = xor a.sign b.sign := by
  rw [mul_of_finite ha hb]
  exact sign_pack _ (roundMag_lt ..)

/-! ## Quotients -/

theorem div_isNaN {a b : F32} (h : a.isNaN = true ∨ b.isNaN = true) : (div a b).isNaN = true := by
  rcases h with h | h <;> simp [div, h]

theorem div_invalid_isNaN {a b : F32} (h : a.isInf = true ∧ b.isInf = true ∨ a.isZero = true ∧ b.isZero = true) :
    (div a b).isNaN = true := by
  rcases h with ⟨ha, hb⟩ | ⟨ha, hb⟩ <;> simp [div, ha, hb]

/-- An infinity by a finite value, or a finite value that is not zero by a zero. -/
theorem div_to_inf {a b : F32} (h : a.isInf = true ∧ b.isFinite = true ∨
    a.isFinite = true ∧ a.isZero = false ∧ b.isZero = true) : div a b = pack (a.sign != b.sign) infMag := by
  rcases h with ⟨ha, hb⟩ | ⟨ha, hza, hzb⟩
  · simp [div, not_isNaN_of_isInf ha, not_isZero_of_isInf ha, ha, not_isNaN_of_isFinite hb, not_isInf_of_isFinite hb]
  · simp [div, not_isNaN_of_isFinite ha, not_isInf_of_isFinite ha, hza, not_isNaN_of_isFinite (isFinite_of_isZero hzb), hzb]

theorem roundMag_zero {d : Nat} (hd : 0 < d) : roundMag 0 d = 0 := by
  have hexp : roundExp 0 d = 0 := by rw [roundExp, Nat.zero_div]; decide
  rw [roundMag_eq, roundSig, hexp]
  simp [roundHalfEven, hd]

/-- A finite value by an infinity, or a zero by a finite value that is not zero. -/
theorem div_to_zero {a b : F32} (h : a.isFinite = true ∧ b.isInf = true ∨
    a.isZero = true ∧ b.isFinite = true ∧ b.isZero = false) : div a b = pack (a.sign != b.sign) 0 := by
  rcases h with ⟨ha, hb⟩ | ⟨hza, hb, hzb⟩
  · simp [div, not_isNaN_of_isFinite ha, not_isInf_of_isFinite ha, not_isNaN_of_isInf hb, not_isZero_of_isInf hb, hb]
  · rw [div_of_finite (isFinite_of_isZero hza) hb hzb, units_eq_zero_iff.2 hza, Nat.zero_mul, roundMag_zero]
    rw [Nat.pos_iff_ne_zero, ne_eq, units_eq_zero_iff, hzb]
    decide

theorem div_sign {a b : F32} (ha : a.isFinite = true) (hb : b.isFinite = true) (hz : b.isZero = false) :
    (div a b).sign = xor a.sign b.sign := by
  rw [div_of_finite ha hb hz]
  exact sign_pack _ (roundMag_lt ..)

/-- Settles O59: one clause after another, each by the lemma on its operation and classes. -/
theorem arithmeticOnSpecialOperands : Obligations.ArithmeticOnSpecialOperands := by
  intro a b
  refine ⟨?nan, ?infLeft, ?infRight, ?infInf, ?finite, mul_inf_zero_isNaN, ?mulInf, div_invalid_isNaN, ?divInf, ?divZero, div_sign⟩
  case nan =>
    exact fun h => ⟨addAs_isNaN _ h, addAs_isNaN _ (by rwa [isNaN_neg]), mul_isNaN h, div_isNaN h⟩
  case infLeft =>
    exact fun ha hb => ⟨addAs_inf_left _ ha hb, addAs_inf_left _ ha (by rwa [isFinite_neg])⟩
  case infRight =>
    exact fun ha hb => ⟨addAs_inf_right _ ha hb, addAs_inf_right _ ha (by rwa [isInf_neg])⟩
  case infInf =>
    intro ha hb
    rw [add, addAs_inf_inf _ ha hb, sub_inf_inf ha hb]
    exact ⟨fun hs => by simp [hs], fun hs => by simp [hs]⟩
  case finite =>
    intro ha hb
    refine ⟨fun h => ?_, fun h => ?_, mul_sign ha hb⟩
    · simp [add_exact_zero ha hb h]
    · simp [sub_exact_zero ha hb h]
  case mulInf =>
    intro hna hnb hza hzb h
    simp [mul_to_inf hna hnb hza hzb h]
  case divInf => exact fun h => by simp [div_to_inf h]
  case divZero => exact fun h => by simp [div_to_zero h]

end Sys2Proof.F32
end

section
/-! The conversions, the comparisons, `abs` and `neg` (R7, R11, R148). -/

namespace Sys2Proof.F32

/-! ## Exact results -/

/-- A value as a fraction of one. -/
theorem val_of_sunits {v : F32} {i : Int} (h : v.sunits = i) : v.val = (i : ℚ) / 2 ^ 149 := by rw [val, h]

/-- A grid point below the overflow threshold is its own F32. -/
theorem ofUnits_exact (zs : Bool) {i : Int} (hgrid : OnGrid i.natAbs) (hlt : i.natAbs < (2 ^ 25 - 1) * 2 ^ 252) :
    (ofUnits zs i).isFinite = true ∧ (ofUnits zs i).sunits = i := by
  rcases eq_or_ne i 0 with rfl | hi
  · exact ⟨isFinite_of_isZero (isZero_pack_zero zs), sunits_eq_zero_iff.2 (isZero_pack_zero zs)⟩
  have hfin : roundMag i.natAbs 1 < infMag := (roundMag_lt_infMag_iff _ one_pos).2 (by omega)
  have hunits : (ofUnits zs i).units = i.natAbs := by
    rw [ofUnits, if_neg hi, units_eq_patUnits, mag_pack _ (roundMag_lt ..), patUnits_roundMag one_pos hfin,
      roundSig_of_onGrid hgrid]
  refine ⟨?_, ?_⟩
  · rw [ofUnits, if_neg hi]
    exact (isFinite_pack_roundMag ..).2 hfin
  · rw [sunits_eq, sign_ofUnits, if_neg hi, hunits]
    rcases lt_or_ge i 0 with h | h
    · simp [h, abs_of_neg]
    · simp [h, abs_of_nonneg]

/-- The largest finite value. -/
theorem units_le_of_isFinite {v : F32} (h : v.isFinite = true) : v.units ≤ (2 ^ 24 - 1) * 2 ^ 253 := by
  have hmag : v.mag ≤ 253 * 2 ^ 23 + (2 ^ 24 - 1) := by
    rw [isFinite, decide_eq_true_eq, infMag] at h
    omega
  calc v.units ≤ patUnits (253 * 2 ^ 23 + (2 ^ 24 - 1)) := patUnits_strictMono.monotone hmag
    _ = (2 ^ 24 - 1) * 2 ^ 253 := patUnits_steps (by omega) (by omega)

/-! ## `toF32` (R11) -/

theorem roundsTo_ofNat (n : Nat) : RoundsTo n (ofNat n) := by
  have h := roundsTo_ofUnits false ((n * 2 ^ 149 : Nat) : Int)
  rwa [Int.cast_natCast, Nat.cast_mul, Nat.cast_pow, Nat.cast_ofNat, mul_div_cancel_right₀ _ (by positivity)] at h

theorem sign_ofNat (n : Nat) : (ofNat n).sign = false := by
  rw [ofNat, sign_ofUnits]
  split
  · rfl
  · exact decide_eq_false (by omega)

/-- `toF32` is exact up to 2^24. -/
theorem ofNat_exact {n : Nat} (h : n ≤ 2 ^ 24) : (ofNat n).isFinite = true ∧ (ofNat n).val = n := by
  obtain ⟨hfin, hval⟩ := ofUnits_exact false (i := (n * 2 ^ 149 : Nat)) (onGrid_of_le h 149) (by omega)
  refine ⟨hfin, ?_⟩
  rw [ofNat, val_of_sunits hval, Int.cast_natCast, Nat.cast_mul, Nat.cast_pow, Nat.cast_ofNat]
  exact mul_div_cancel_right₀ _ (by positivity)

/-! ## `floor` and the fraction (R11, R148) -/

theorem floor_eq (d : F32) : floor d = ⌊d.val⌋ := by
  have h := Rat.floor_intCast_div_natCast d.sunits (2 ^ 149)
  rw [floor, val, ← h, Nat.cast_pow, Nat.cast_ofNat]

/-- The floor of a finite value is a finite value: above 2^23 the value is an integer, below it the floor has 24 bits. -/
theorem floorF_exact {d : F32} (h : d.isFinite = true) :
    (floorF d).isFinite = true ∧ (floorF d).sunits = floor d * ((2 ^ 149 : Nat) : Int) := by
  have hgrid := onGrid_units d
  have hle := units_le_of_isFinite h
  have habs := natAbs_sunits d
  refine ofUnits_exact d.sign ?_ ?_ <;> rw [floor] <;> rcases hgrid.dvd_or_lt 149 with hdvd | hlt
  · rw [Int.ediv_mul_cancel (Int.natCast_dvd.2 (by rwa [habs])), habs]
    exact hgrid
  · rw [Int.natAbs_mul, Int.natAbs_natCast]
    exact onGrid_of_le (by omega) 149
  · rw [Int.ediv_mul_cancel (Int.natCast_dvd.2 (by rwa [habs])), habs]
    omega
  · omega

theorem val_floorF {d : F32} (h : d.isFinite = true) : (floorF d).val = (⌊d.val⌋ : ℚ) := by
  rw [val_of_sunits (floorF_exact h).2, ← floor_eq, Int.cast_mul, Int.cast_natCast, Nat.cast_pow, Nat.cast_ofNat]
  exact mul_div_cancel_right₀ _ (by positivity)

/-- The fraction of a finite value, as the difference of integers that is rounded. -/
theorem sub_floorF {d : F32} (h : d.isFinite = true) :
    sub d (floorF d) = ofUnits (d.sign && !(floorF d).sign) (d.sunits % ((2 ^ 149 : Nat) : Int)) := by
  obtain ⟨hfin, hval⟩ := floorF_exact h
  rw [sub_of_finite h hfin, hval, floor, mul_comm, ← Int.emod_def]

/-- The fraction of a value that is not below 0 is exact: its bits are the low bits of the value's significand. -/
theorem frac_exact {d : F32} (h : d.isFinite = true) (h0 : 0 ≤ d.val) :
    (sub d (floorF d)).isFinite = true ∧ (sub d (floorF d)).sunits = d.sunits % ((2 ^ 149 : Nat) : Int) := by
  have hs : 0 ≤ d.sunits := by
    rw [val, le_div_iff₀ (by positivity), zero_mul] at h0
    exact_mod_cast h0
  have hmod : (d.sunits % ((2 ^ 149 : Nat) : Int)).natAbs = d.units % 2 ^ 149 := by
    rw [Int.natAbs_emod_of_nonneg hs, natAbs_sunits]
    rfl
  rw [sub_floorF h]
  refine ofUnits_exact _ ?_ ?_ <;> rw [hmod]
  · exact (onGrid_units d).mod 149
  · have := Nat.mod_lt d.units (Nat.two_pow_pos 149)
    omega

/-- The fraction of every integer is +0.0, that of -0.0 too. -/
theorem frac_of_integer {d : F32} (h : d.isFinite = true) (hint : d.val = ⌊d.val⌋) : sub d (floorF d) = Config.f0 := by
  obtain ⟨hfin, -⟩ := floorF_exact h
  have hs : d.sunits = floor d * ((2 ^ 149 : Nat) : Int) := by
    rw [← (floorF_exact h).2, ← val_eq_val_iff, val_floorF h, ← hint]
  have hsign : (d.sign && !(floorF d).sign) = false := by
    rw [floorF, ← hs, sign_ofUnits]
    have hd := sunits_eq d
    cases hsd : d.sign with
    | false => rfl
    | true =>
      rw [hsd, if_pos rfl] at hd
      split
      · rfl
      · rw [decide_eq_true (by omega)]; rfl
  rw [sub_floorF h, hsign, hs, Int.mul_emod_left, ofUnits_zero]
  rfl

theorem val_frac {d : F32} (h : d.isFinite = true) (h0 : 0 ≤ d.val) :
    (sub d (floorF d)).val = d.val - ⌊d.val⌋ := by
  rw [val_of_sunits (frac_exact h h0).2, Int.emod_def, ← floor, ← floor_eq, val, Int.cast_sub,
    Int.cast_mul, Int.cast_natCast, Nat.cast_pow, Nat.cast_ofNat]
  field_simp

/-! ## Comparisons of finite values -/

/-- The order of the keys is the order of the values they stand for. -/
theorem sunits_lt_iff {a b : F32} : a.sunits < b.sunits ↔ a.key < b.key := by
  have hlt := patUnits_strictMono.lt_iff_lt (a := a.mag) (b := b.mag)
  have hgt := patUnits_strictMono.lt_iff_lt (a := b.mag) (b := a.mag)
  have ha := patUnits_strictMono.lt_iff_lt (a := 0) (b := a.mag)
  have hb := patUnits_strictMono.lt_iff_lt (a := 0) (b := b.mag)
  rw [show patUnits 0 = 0 from rfl] at ha hb
  rw [sunits_eq, sunits_eq, units_eq_patUnits, units_eq_patUnits, key, key]
  split_ifs <;> omega

theorem val_lt_iff {a b : F32} : a.val < b.val ↔ a.key < b.key := by
  rw [val, val, div_lt_div_iff_of_pos_right (by positivity), Int.cast_lt, sunits_lt_iff]

theorem val_le_iff {a b : F32} : a.val ≤ b.val ↔ a.key ≤ b.key := by
  rw [← not_lt, val_lt_iff, not_lt]

section
variable {a b : F32} (ha : a.isFinite = true) (hb : b.isFinite = true)
include ha hb

theorem lt_iff_val : lt a b = true ↔ a.val < b.val := by
  rw [lt_iff, val_lt_iff]
  simp [not_isNaN_of_isFinite, ha, hb]

theorem gt_iff_val : gt a b = true ↔ b.val < a.val := by
  rw [gt_iff, val_lt_iff]
  simp [not_isNaN_of_isFinite, ha, hb]

theorem ge_iff_val : ge a b = true ↔ b.val ≤ a.val := by
  rw [ge_iff, val_le_iff]
  simp [not_isNaN_of_isFinite, ha, hb]

theorem feq_iff_val : feq a b = true ↔ a.val = b.val := by
  rw [feq_iff, le_antisymm_iff (a := a.val), val_le_iff, val_le_iff, ← le_antisymm_iff]
  simp [not_isNaN_of_isFinite, ha, hb]

end

theorem isFinite_f0 : isFinite Config.f0 = true := by decide

theorem isFinite_f1 : isFinite Config.f1 = true := by decide

theorem val_f0 : Config.f0.val = 0 := val_eq_zero_iff.2 rfl

theorem val_f1 : Config.f1.val = 1 := by
  rw [val_of_sunits (i := 2 ^ 149) (by decide), Int.cast_pow, Int.cast_ofNat, div_self (by positivity)]

/-! ## Comparisons with an infinity -/

/-- An infinity is the end of the order on its side. -/
theorem key_of_isInf {a b : F32} (ha : a.isInf = true) (hb : b.isNaN = false) (hne : b ≠ a) :
    if a.sign = true then a.key < b.key else b.key < a.key := by
  simp only [isInf, isNaN, beq_iff_eq, decide_eq_false_iff_not, not_lt] at ha hb
  have hpos : 0 < infMag := by decide
  have hor : b.sign ≠ a.sign ∨ b.mag ≠ a.mag := by
    by_contra hcon
    rw [not_or, not_not, not_not] at hcon
    exact hne (ext_sign_mag hcon.1 hcon.2)
  unfold key
  cases hsa : a.sign <;> cases hsb : b.sign <;> simp [hsa, hsb] at hor ⊢ <;> omega

/-! ## `abs` and `neg` on the bits -/

theorem getLsbD_abs (v : F32) {i : Nat} (h : i < 31) : (abs v).getLsbD i = v.getLsbD i := by
  have hmask : (0x7FFFFFFF#32).getLsbD i = true := by interval_cases i <;> rfl
  rw [abs, BitVec.getLsbD_and, hmask, Bool.and_true]

theorem getLsbD_neg (v : F32) {i : Nat} (h : i < 31) : (neg v).getLsbD i = v.getLsbD i := by
  have hmask : (0x80000000#32).getLsbD i = false := by interval_cases i <;> rfl
  rw [neg, BitVec.getLsbD_xor, hmask, Bool.xor_false]

@[simp] theorem sign_abs (v : F32) : (abs v).sign = false := by
  rw [sign, BitVec.testBit_toNat, abs, BitVec.getLsbD_and]
  exact Bool.and_false _

/-- Settles O60: clause by clause, from the exactness lemmas, the keys and the bits. -/
theorem conversionsAndComparisons : Obligations.ConversionsAndComparisons := by
  refine ⟨?toF32, ?floor, fun a b => compare_nan, ?finite, ?infinite, ?bits⟩
  case toF32 => exact fun n => ⟨roundsTo_ofNat n, sign_ofNat n, ofNat_exact⟩
  case floor =>
    intro d hd
    refine ⟨floor_eq d, (floorF_exact hd).1, val_floorF hd, fun h0 => ?_, frac_of_integer hd⟩
    have hfin := (frac_exact hd h0).1
    rw [ge_iff_val hfin isFinite_f0, lt_iff_val hfin isFinite_f1, val_f0, val_f1, val_frac hd h0]
    exact ⟨rfl, sub_nonneg.2 (Int.floor_le d.val), sub_lt_iff_lt_add'.2 (Int.lt_floor_add_one d.val)⟩
  case finite =>
    intro a b ha hb
    refine ⟨lt_iff_val ha hb, gt_iff_val ha hb, ge_iff_val ha hb, feq_iff_val ha hb, ?_⟩
    rw [fne_iff, feq_iff_val ha hb]
  case infinite =>
    intro a b ha hb
    have hna := not_isNaN_of_isInf ha
    split
    · subst b
      simp [lt, gt, ge, feq, fne, hna]
    · have hkey := key_of_isInf ha hb ‹_›
      cases hs : a.sign <;> simp only [hs, if_true, if_false, Bool.false_eq_true] at hkey <;>
        simp [lt, gt, ge, feq, fne, hna, hb, hkey, hkey.le, hkey.ne, hkey.ne', hkey.not_ge, hkey.not_gt]
  case bits => exact fun v => ⟨fun i hi => ⟨getLsbD_abs v hi, getLsbD_neg v hi⟩, sign_abs v, sign_neg v⟩

end Sys2Proof.F32
end

section
/-! `fsin`, `fexp` and `ftan` (R8): rounding is monotone, so bounds on the integer enclosures give bounds on the
results. -/

namespace Sys2Proof.F32

/-! ## Rounding is monotone -/

theorem roundHalfEven_mul_right (n d : Nat) {c : Nat} (hc : 0 < c) :
    roundHalfEven (n * c) (d * c) = roundHalfEven n d := by
  unfold roundHalfEven
  simp only [Nat.mul_div_mul_right _ _ hc, Nat.mul_mod_mul_right, ← Nat.mul_assoc, Nat.mul_lt_mul_right hc]

theorem roundHalfEven_mono_left {n n' d : Nat} (hd : 0 < d) (h : n ≤ n') :
    roundHalfEven n d ≤ roundHalfEven n' d := by
  rcases Nat.eq_or_lt_of_le h with rfl | hlt
  · rfl
  have hn := (roundHalfEven_near n hd).2
  have hn' := (roundHalfEven_near n' hd).1
  by_contra hc
  have := Nat.mul_le_mul_right d (Nat.succ_le_of_lt (Nat.lt_of_not_le hc))
  rw [Nat.succ_mul] at this
  omega

theorem roundHalfEven_mono {n d n' d' : Nat} (hd : 0 < d) (hd' : 0 < d') (h : n * d' ≤ n' * d) :
    roundHalfEven n d ≤ roundHalfEven n' d' := by
  rw [← roundHalfEven_mul_right n d hd', ← roundHalfEven_mul_right n' d' hd, Nat.mul_comm d' d]
  exact roundHalfEven_mono_left (Nat.mul_pos hd hd') h

theorem roundExp_mono {n d n' d' : Nat} (hd : 0 < d) (hd' : 0 < d') (h : n * d' ≤ n' * d) :
    roundExp n d ≤ roundExp n' d' := by
  have hq : n / d ≤ n' / d' := by
    refine (Nat.le_div_iff_mul_le hd').2 (Nat.le_of_mul_le_mul_right ?_ hd)
    calc n / d * d' * d = n / d * d * d' := Nat.mul_right_comm ..
      _ ≤ n * d' := Nat.mul_le_mul_right d' (Nat.div_mul_le_self n d)
      _ ≤ n' * d := h
  unfold roundExp
  rw [Nat.log2_eq_log_two, Nat.log2_eq_log_two]
  exact Nat.sub_le_sub_right (Nat.log_mono_right hq) 23

/-- The rounded pattern rises with the quotient. -/
theorem roundMag_mono {n d n' d' : Nat} (hd : 0 < d) (hd' : 0 < d') (h : n * d' ≤ n' * d) :
    roundMag n d ≤ roundMag n' d' := by
  rw [roundMag_eq, roundMag_eq]
  refine min_le_min_left _ ?_
  rcases Nat.eq_or_lt_of_le (roundExp_mono hd hd' h) with hexp | hexp
  · rw [hexp, roundSig, roundSig, hexp]
    refine Nat.add_le_add_left (roundHalfEven_mono (by positivity) (by positivity) ?_) _
    calc n * (d' * 2 ^ roundExp n' d') = n * d' * 2 ^ roundExp n' d' := (Nat.mul_assoc ..).symm
      _ ≤ n' * d * 2 ^ roundExp n' d' := Nat.mul_le_mul_right _ h
      _ = n' * (d * 2 ^ roundExp n' d') := Nat.mul_assoc ..
  · have hle := roundSig_le n hd
    have hge := le_roundSig n' hd'
    omega

theorem roundMag_mono_left {n n' d : Nat} (hd : 0 < d) (h : n ≤ n') : roundMag n d ≤ roundMag n' d :=
  roundMag_mono hd hd (Nat.mul_le_mul_right d h)

theorem roundMag_anti_right (n : Nat) {d d' : Nat} (hd' : 0 < d') (h : d' ≤ d) : roundMag n d ≤ roundMag n d' :=
  roundMag_mono (Nat.lt_of_lt_of_le hd' h) hd' (Nat.mul_le_mul_left n h)

/-! ## The settled result -/

/-- Whatever the free choice, a settled result lies between the ends of its enclosure. -/
theorem settle_bounds (f : Config.Fn) (v : F32) (s : Bool) {lo hi : Nat} (h : lo ≤ hi) (hhi : hi ≤ infMag) :
    (settle f v s lo hi).sign = s ∧ lo ≤ (settle f v s lo hi).mag ∧ (settle f v s lo hi).mag ≤ hi := by
  have hbounds : lo ≤ (if lo = hi then lo else min hi (max lo (Config.freeFn f v).mag)) ∧
      (if lo = hi then lo else min hi (max lo (Config.freeFn f v).mag)) ≤ hi := by split <;> omega
  have hlt : (if lo = hi then lo else min hi (max lo (Config.freeFn f v).mag)) < 2 ^ 31 :=
    lt_of_le_of_lt (hbounds.2.trans hhi) (by decide)
  rw [settle, sign_pack s hlt, mag_pack s hlt]
  exact ⟨rfl, hbounds⟩

theorem isNaN_of_mag_le {v : F32} {m : Nat} (h : v.mag ≤ m) (hm : m ≤ infMag) : v.isNaN = false :=
  decide_eq_false (by omega)

theorem key_of_sign_false {v : F32} (h : v.sign = false) : v.key = v.mag := by rw [key, h]; rfl

@[simp] theorem mag_abs (v : F32) : (abs v).mag = v.mag := by
  unfold mag
  refine Nat.eq_of_testBit_eq fun i => ?_
  rw [Nat.testBit_mod_two_pow, Nat.testBit_mod_two_pow, BitVec.testBit_toNat, BitVec.testBit_toNat]
  by_cases h : i < 31
  · rw [getLsbD_abs v h]
  · simp [h]

/-! ## The series of sine and cosine -/

/-- The terms of the alternating series fall. -/
theorem altTerm_le {x2 w : Nat} (hx : x2 ≤ w) (j t : Nat) : t * x2 / ((j + 1) * (j + 2) * w) ≤ t := by
  have hj : 1 ≤ (j + 1) * (j + 2) := Nat.mul_pos (Nat.succ_pos j) (Nat.succ_pos _)
  refine Nat.div_le_of_le_mul ?_
  calc t * x2 ≤ t * w := Nat.mul_le_mul_left t hx
    _ = 1 * w * t := by rw [one_mul, Nat.mul_comm]
    _ ≤ (j + 1) * (j + 2) * w * t := Nat.mul_le_mul_right t (Nat.mul_le_mul_right w hj)

/-- `c` times a term that is divided by `c` is at most the term before it. -/
theorem mul_div_mul_le {x2 w : Nat} (hx : x2 ≤ w) (t c : Nat) : c * (t * x2 / (c * w)) ≤ t := by
  rw [← Nat.div_div_eq_div_mul, Nat.div_right_comm]
  refine (Nat.mul_div_le _ c).trans (Nat.div_le_of_le_mul ?_)
  rw [Nat.mul_comm]
  exact Nat.mul_le_mul_right t hx

/-- The next term added. -/
theorem altSum_adding (x2 fuel j t acc : Nat) : altSum x2 (fuel + 1) j t false acc =
    altSum x2 fuel (j + 2) (t * x2 / ((j + 1) * (j + 2) * 2 ^ wp)) true
      (acc + t * x2 / ((j + 1) * (j + 2) * 2 ^ wp)) := by
  rw [altSum]
  simp

/-- The next term taken off. -/
theorem altSum_taking (x2 fuel j t acc : Nat) : altSum x2 (fuel + 1) j t true acc =
    altSum x2 fuel (j + 2) (t * x2 / ((j + 1) * (j + 2) * 2 ^ wp)) false
      (acc - t * x2 / ((j + 1) * (j + 2) * 2 ^ wp)) := by
  rw [altSum]
  simp

/-- With falling terms the partial sums stay within the next term of the start. -/
theorem altSum_bounds {x2 : Nat} (hx : x2 ≤ 2 ^ wp) (fuel j t acc : Nat) :
    (acc ≤ altSum x2 fuel j t false acc ∧ altSum x2 fuel j t false acc ≤ acc + t) ∧
    (t ≤ acc → acc ≤ altSum x2 fuel j t true acc + t * x2 / ((j + 1) * (j + 2) * 2 ^ wp) ∧
      altSum x2 fuel j t true acc ≤ acc) := by
  induction fuel generalizing j t acc with
  | zero => simp [altSum]
  | succ fuel ih =>
    have hterm := altTerm_le hx j t
    rw [altSum_adding, altSum_taking]
    generalize t * x2 / ((j + 1) * (j + 2) * 2 ^ wp) = t' at *
    have hnext := altTerm_le hx (j + 2) t'
    obtain ⟨hlow, hup⟩ := (ih (j + 2) t' (acc + t')).2 (Nat.le_add_left ..)
    obtain ⟨hlow', hup'⟩ := (ih (j + 2) t' (acc - t')).1
    omega

/-- Sine and cosine of at most one: both in range, the sine near its argument, the cosine not near zero. -/
theorem sinCosSmall_bounds {r : Nat} (hr : r ≤ 2 ^ wp) :
    5 * r ≤ 6 * (sinCosSmall r).1 ∧ (sinCosSmall r).1 ≤ r ∧
    2 ^ wp ≤ 2 * (sinCosSmall r).2 ∧ (sinCosSmall r).2 ≤ 2 ^ wp := by
  have hx : r * r / 2 ^ wp ≤ 2 ^ wp := Nat.div_le_of_le_mul (Nat.mul_le_mul hr hr)
  have hsin := (altSum_bounds hx 40 1 r r).2 (le_refl _)
  have hcos := (altSum_bounds hx 40 0 (2 ^ wp) (2 ^ wp)).2 (le_refl _)
  have hsinTerm := mul_div_mul_le hx r ((1 + 1) * (1 + 2))
  have hcosTerm := mul_div_mul_le hx (2 ^ wp) ((0 + 1) * (0 + 2))
  unfold sinCosSmall
  simp only
  omega

/-- The nearest multiple of half pi. -/
def quadrant (u : Nat) : Nat := (2 * (u * 2 ^ (wp - 149)) + halfPi) / (2 * halfPi)

/-- What is left of the argument when that multiple is taken off. -/
def reduced (u : Nat) : Int := (u * 2 ^ (wp - 149) : Nat) - (quadrant u * halfPi : Nat)

/-- Sine and cosine of a reduced argument, turned by a number of quarter turns. -/
def turned (k : Nat) (r : Int) : Int × Int :=
  let s : Int := if r < 0 then -((sinCosSmall r.natAbs).1 : Int) else ((sinCosSmall r.natAbs).1 : Int)
  let c : Int := (sinCosSmall r.natAbs).2
  match k % 4 with
  | 0 => (s, c)
  | 1 => (c, -s)
  | 2 => (-s, -c)
  | _ => (-c, s)

theorem sinCos_eq_turned (u : Nat) : sinCos u = turned (quadrant u) (reduced u) := (rfl)

theorem natAbs_reduced_le (u : Nat) : (reduced u).natAbs ≤ 2 ^ wp := by
  unfold reduced quadrant halfPi wp
  omega

/-- The sine of any argument is at most one. -/
theorem natAbs_sinCos_le (u : Nat) : (sinCos u).1.natAbs ≤ 2 ^ wp := by
  have hb := sinCosSmall_bounds (natAbs_reduced_le u)
  have hr := natAbs_reduced_le u
  rw [sinCos_eq_turned, turned]
  generalize reduced u = r at *
  split <;> simp only <;> omega

/-- The enclosure of a sine rounds to at most one. -/
theorem mag_sin_le {v : F32} (h : v.isFinite = true) : (sin v).mag ≤ Config.f1.mag := by
  rw [sin, not_isNaN_of_isFinite h, not_isInf_of_isFinite h]
  simp only [Bool.false_eq_true, if_false]
  split
  · split <;> rw [mag_pack _ (by decide)] <;> exact Nat.zero_le _
  · have hs := natAbs_sinCos_le v.units
    refine (settle_bounds _ _ _ (roundMag_mono_left (by decide) (by omega)) (roundMag_le ..)).2.2.trans ?_
    calc roundMag ((sinCos v.units).1.natAbs + slack) unitScale
      _ ≤ roundMag (2 ^ wp + slack) unitScale := roundMag_mono_left (by decide) (by omega)
      _ = Config.f1.mag := by decide +kernel

/-! ## The exponential -/

theorem expSum_zero (x j t acc : Nat) : expSum x 0 j t acc = acc := rfl

/-- The series by one term (by `delta`, so that no evaluation of 2^384 is asked for). -/
theorem expSum_succ (x fuel j t acc : Nat) : expSum x (fuel + 1) j t acc =
    expSum x fuel (j + 1) (t * x / ((j + 1) * 2 ^ wp)) (acc + t * x / ((j + 1) * 2 ^ wp)) := by
  delta expSum
  rfl

theorem le_expSum (x fuel j t acc : Nat) : acc ≤ expSum x fuel j t acc := by
  induction fuel generalizing j t acc with
  | zero => rw [expSum_zero]
  | succ fuel ih =>
    rw [expSum_succ]
    exact (Nat.le_add_right ..).trans (ih ..)

/-- Terms that fall by a quarter each add a third of the first. -/
theorem expSum_le {x j : Nat} (hx : 4 * x ≤ (j + 1) * 2 ^ wp) (fuel t acc : Nat) :
    3 * expSum x fuel j t acc ≤ 3 * acc + t := by
  induction fuel generalizing j t acc with
  | zero => rw [expSum_zero]; exact Nat.le_add_right ..
  | succ fuel ih =>
    have hterm : 4 * (t * x / ((j + 1) * 2 ^ wp)) ≤ t := by
      refine (Nat.mul_div_le_mul_div_assoc ..).trans (Nat.div_le_of_le_mul ?_)
      rw [Nat.mul_left_comm, Nat.mul_comm _ t]
      exact Nat.mul_le_mul_left t hx
    have hnext := ih (hx.trans (Nat.mul_le_mul_right _ (Nat.le_succ _))) (t * x / ((j + 1) * 2 ^ wp))
      (acc + t * x / ((j + 1) * 2 ^ wp))
    rw [expSum_succ]
    omega

/-- The whole series: 1, its first term, and at most a third of that. -/
theorem expSum_start_le {x : Nat} (hx : 2 * x ≤ 2 ^ wp) (fuel : Nat) :
    3 * expSum x (fuel + 1) 0 (2 ^ wp) (2 ^ wp) ≤ 3 * 2 ^ wp + 4 * x := by
  have hrest := expSum_le (j := 1) (show 4 * x ≤ (1 + 1) * 2 ^ wp by omega) fuel x (2 ^ wp + x)
  rw [expSum_succ, Nat.zero_add, Nat.one_mul, Nat.mul_div_cancel_left _ (Nat.two_pow_pos wp)]
  omega

theorem squareUp_mono (n : Nat) {a b : Nat} (h : a ≤ b) : squareUp n a ≤ squareUp n b := by
  induction n generalizing a b with
  | zero => rw [squareUp, squareUp]; exact h
  | succ n ih =>
    rw [squareUp, squareUp]
    exact ih (Nat.div_le_div_right (Nat.mul_le_mul h h))

/-- Squaring keeps what is at least one at least one. -/
theorem le_squareUp (n : Nat) {a : Nat} (h : 2 ^ wp ≤ a) : 2 ^ wp ≤ squareUp n a := by
  induction n generalizing a with
  | zero => rw [squareUp]; exact h
  | succ n ih =>
    rw [squareUp]
    exact ih ((Nat.le_div_iff_mul_le (Nat.two_pow_pos wp)).2 (Nat.mul_le_mul h h))

theorem two_pow_wp_le_expPos (u : Nat) : 2 ^ wp ≤ expPos u := le_squareUp 8 (le_expSum ..)

/-- `exp` of at most 87, bounded by the squarings of 3/2. -/
theorem expPos_le {u : Nat} (hu : u ≤ 87 * 2 ^ 149) : expPos u ≤ squareUp 8 (3 * 2 ^ 383) := by
  have hx : u * 2 ^ (wp - 149 - 8) ≤ 87 * 2 ^ 376 := by unfold wp; omega
  have hw : 2 ^ wp = 2 ^ 384 := by rw [wp]
  unfold expPos
  generalize u * 2 ^ (wp - 149 - 8) = x at *
  have hsum : 3 * expSum x 80 0 (2 ^ wp) (2 ^ wp) ≤ 3 * 2 ^ wp + 4 * x := expSum_start_le (by omega) 79
  exact squareUp_mono 8 (by omega)

/-- The lower end of the enclosure of an exponential that is at least one. -/
theorem le_enclosure_low {e : Nat} (h : 2 ^ wp ≤ e) : 2 ^ wp - 2 ^ 160 ≤ e - (e / 2 ^ 230 + slack) := by
  have hw : 2 ^ wp = 2 ^ 384 := by rw [wp]
  have hslack : slack = 2 ^ 140 := by rw [slack]
  omega

/-- The enclosure of an exponential below 0 and not below -87 rounds to a positive value of at most one. -/
theorem exp_bounds {v : F32} (h : v.isFinite = true) (hz : v.isZero = false) (hs : v.sign = true)
    (hu : v.units ≤ 87 * 2 ^ 149) : (exp v).sign = false ∧ 1 ≤ (exp v).mag ∧ (exp v).mag ≤ Config.f1.mag := by
  have hlarge : ¬2 ^ 156 ≤ v.units := by omega
  rw [exp, not_isNaN_of_isFinite h, not_isInf_of_isFinite h, hz, hs]
  simp only [Bool.false_eq_true, if_false, if_true, if_neg hlarge]
  have hlow := two_pow_wp_le_expPos v.units
  have hup := expPos_le hu
  have hcap : squareUp 8 (3 * 2 ^ 383) + squareUp 8 (3 * 2 ^ 383) / 2 ^ 230 + slack ≤ 2 ^ 534 - 1 := by decide +kernel
  have hsum : expPos v.units + (expPos v.units / 2 ^ 230 + slack) ≤ 2 ^ 534 - 1 := by omega
  have hdiff := le_enclosure_low hlow
  generalize expPos v.units / 2 ^ 230 + slack = err at *
  generalize expPos v.units = e at *
  have hlowPos : 0 < 2 ^ wp - 2 ^ 160 := by rw [wp]; omega
  have hpos : 0 < e - err := lt_of_lt_of_le hlowPos hdiff
  obtain ⟨hsign, hlo, hhi⟩ := settle_bounds .exp v false
    (roundMag_anti_right (2 ^ wp * 2 ^ 149) hpos (show e - err ≤ e + err by omega)) (roundMag_le ..)
  refine ⟨hsign, le_trans ?_ hlo, hhi.trans ?_⟩
  · calc 1 = roundMag (2 ^ wp * 2 ^ 149) (2 ^ 534 - 1) := by decide +kernel
      _ ≤ roundMag (2 ^ wp * 2 ^ 149) (e + err) := roundMag_anti_right _ (by omega) hsum
  · calc roundMag (2 ^ wp * 2 ^ 149) (e - err)
      _ ≤ roundMag (2 ^ wp * 2 ^ 149) (2 ^ wp - 2 ^ 160) := roundMag_anti_right _ hlowPos hdiff
      _ = Config.f1.mag := by decide +kernel

/-! ## The tangent -/

/-- Sine and cosine of the arguments of (d) of R8, the reals of (0, 0.45 pi]: both positive, neither near zero. -/
theorem sinCos_of_tan_domain {u : Nat} (h1 : 1 ≤ u) (h2 : u ≤ 0xB4F4AC * 2 ^ 126) :
    ∃ s c : Nat, sinCos u = ((s : Int), (c : Int)) ∧ 3 * 2 ^ 233 ≤ s ∧ s ≤ 2 ^ 384 ∧ 2 ^ 381 ≤ c ∧ c ≤ 2 ^ 384 := by
  have hr := natAbs_reduced_le u
  have hb := sinCosSmall_bounds hr
  have hw : 2 ^ wp = 2 ^ 384 := by rw [wp]
  rw [hw] at hb hr
  have hcases : quadrant u = 0 ∨ quadrant u = 1 := by unfold quadrant halfPi wp; omega
  rw [sinCos_eq_turned, turned]
  rcases hcases with hq | hq
  · have hred : 2 ^ 235 ≤ reduced u := by rw [reduced, hq, wp]; omega
    rw [hq]
    refine ⟨(sinCosSmall (reduced u).natAbs).1, (sinCosSmall (reduced u).natAbs).2, ?_, ?_⟩
    · simp [show ¬reduced u < 0 by omega]
    · omega
  · have hred : 5 * reduced u ≤ -(6 * 2 ^ 381) := by rw [reduced, hq, halfPi, wp]; omega
    rw [hq]
    refine ⟨(sinCosSmall (reduced u).natAbs).2, (sinCosSmall (reduced u).natAbs).1, ?_, ?_⟩
    · simp [show reduced u < 0 by omega]
    · omega

/-- The enclosure of the tangent of such an argument rounds to a positive finite value. -/
theorem tan_bounds {v : F32} (h : v.isFinite = true) (hz : v.isZero = false) (hs : v.sign = false)
    (hu : v.units ≤ 0xB4F4AC * 2 ^ 126) : (tan v).sign = false ∧ 1 ≤ (tan v).mag ∧ (tan v).mag < infMag := by
  have hpos : 1 ≤ v.units := by
    rw [Nat.one_le_iff_ne_zero, ne_eq, units_eq_zero_iff, hz]
    decide
  obtain ⟨s, c, hsc, hs1, hs2, hc1, hc2⟩ := sinCos_of_tan_domain hpos hu
  have hslack : slack = 2 ^ 140 := rfl
  have hneg (n : Nat) : decide ((n : Int) < 0) = false := decide_eq_false (by omega)
  rw [tan, not_isNaN_of_isFinite h, not_isInf_of_isFinite h, hz, hs, hsc]
  simp only [Bool.false_eq_true, if_false, Int.natAbs_natCast, hneg, bne_self_eq_false,
    if_neg (show ¬c ≤ slack by omega)]
  have hlohi : roundMag ((s - slack) * 2 ^ 149) (c + slack) ≤ roundMag ((s + slack) * 2 ^ 149) (c - slack) :=
    roundMag_mono (by omega) (by omega) (Nat.mul_le_mul (Nat.mul_le_mul_right _ (by omega)) (by omega))
  obtain ⟨hsign, hlo, hhi⟩ := settle_bounds .tan v false hlohi (roundMag_le ..)
  refine ⟨hsign, le_trans ?_ hlo, lt_of_le_of_lt hhi ?_⟩
  · calc 1 = roundMag ((3 * 2 ^ 233 - slack) * 2 ^ 149) (2 ^ 384 + slack) := by decide +kernel
      _ ≤ roundMag ((s - slack) * 2 ^ 149) (c + slack) :=
        roundMag_mono (by omega) (by omega) (Nat.mul_le_mul (Nat.mul_le_mul_right _ (by omega)) (by omega))
  · calc roundMag ((s + slack) * 2 ^ 149) (c - slack)
      _ ≤ roundMag ((2 ^ 384 + slack) * 2 ^ 149) (2 ^ 381 - slack) :=
        roundMag_mono (by omega) (by omega) (Nat.mul_le_mul (Nat.mul_le_mul_right _ (by omega)) (by omega))
      _ < infMag := by decide +kernel

/-! ## The five properties -/

/-- The order of two values that are not negative is that of their patterns. -/
theorem mag_le_of_ge {a b : F32} (ha : a.sign = false) (hb : b.sign = false) (h : ge a b = true) : b.mag ≤ a.mag := by
  have hle := (ge_iff.1 h).2.2
  rw [key_of_sign_false ha, key_of_sign_false hb] at hle
  omega

/-- A value that is not negative and whose pattern is at most that of 1.0 is at most 1.0. -/
theorem ge_f1_of_mag_le {v : F32} (hs : v.sign = false) (h : v.mag ≤ Config.f1.mag) : ge Config.f1 v = true := by
  refine ge_iff.2 ⟨by decide, isNaN_of_mag_le h (by decide), ?_⟩
  rw [key_of_sign_false hs, key_of_sign_false (by decide)]
  exact_mod_cast h

/-- A value that is not negative and not the zero pattern is above 0.0. -/
theorem gt_f0_of_mag_pos {v : F32} (hn : v.isNaN = false) (hs : v.sign = false) (h : 1 ≤ v.mag) :
    gt v Config.f0 = true := by
  refine gt_iff.2 ⟨hn, by decide, ?_⟩
  rw [key_of_sign_false hs, key_of_sign_false (by decide), show Config.f0.mag = 0 from rfl]
  omega

/-- R8 (b): a sine stays in `[-1, 1]`. -/
theorem abs_sin_le_one {v : F32} (h : v.isFinite = true) : ge Config.f1 (abs (sin v)) = true :=
  ge_f1_of_mag_le (sign_abs _) (by rw [mag_abs]; exact mag_sin_le h)

/-- R8 (c): from -87 to a zero an exponential is in `(0, 1]`. -/
theorem exp_mem_unit {v : F32} (h : v.isFinite = true) (h0 : ge Config.f0 v = true) (h87 : ge v 0xC2AE0000 = true) :
    gt (exp v) Config.f0 = true ∧ ge Config.f1 (exp v) = true := by
  have hkey0 := (ge_iff.1 h0).2.2
  have hkey87 := (ge_iff.1 h87).2.2
  rw [show Config.f0.key = 0 from rfl, key] at hkey0
  rw [show key 0xC2AE0000 = -0x42AE0000 by decide, key] at hkey87
  by_cases hz : v.isZero = true
  · have hone : exp v = Config.f1 := by
      simp [exp, not_isNaN_of_isFinite h, not_isInf_of_isFinite h, hz]
    rw [hone]
    decide
  have hmag : v.mag ≠ 0 := by simpa [isZero] using hz
  have hs : v.sign = true := by
    by_contra hs
    rw [if_neg hs] at hkey0
    omega
  rw [hs, if_pos rfl] at hkey87
  have hu : v.units ≤ 87 * 2 ^ 149 :=
    calc v.units ≤ patUnits 0x42AE0000 := patUnits_strictMono.monotone (by omega)
      _ = 87 * 2 ^ 149 := by decide
  obtain ⟨hsign, hlo, hhi⟩ := exp_bounds h (Bool.eq_false_of_not_eq_true hz) hs hu
  exact ⟨gt_f0_of_mag_pos (isNaN_of_mag_le hhi (by decide)) hsign hlo, ge_f1_of_mag_le hsign hhi⟩

/-- R8 (d): up to 0.45 pi a tangent is positive and finite. -/
theorem tan_pos {v : F32} (h0 : gt v Config.f0 = true) (h1 : ge 0x3FB4F4AC v = true) :
    (tan v).isFinite = true ∧ gt (tan v) Config.f0 = true := by
  have hkey := (gt_iff.1 h0).2.2
  rw [show Config.f0.key = 0 from rfl, key] at hkey
  have hs : v.sign = false := by
    by_contra hs
    rw [Bool.not_eq_false] at hs
    rw [if_pos hs] at hkey
    omega
  have hz : v.isZero = false := by
    rw [hs, if_neg Bool.false_ne_true] at hkey
    rw [isZero, beq_eq_false_iff_ne]
    omega
  have hmag : v.mag ≤ 0x3FB4F4AC := mag_le_of_ge (a := 0x3FB4F4AC) (by decide) hs h1
  have hfin : v.isFinite = true := decide_eq_true (lt_of_le_of_lt hmag (by decide))
  have hu : v.units ≤ 0xB4F4AC * 2 ^ 126 :=
    calc v.units ≤ patUnits 0x3FB4F4AC := patUnits_strictMono.monotone hmag
      _ = 0xB4F4AC * 2 ^ 126 := by decide
  obtain ⟨hsign, hlo, hhi⟩ := tan_bounds hfin hz hs hu
  exact ⟨decide_eq_true hhi, gt_f0_of_mag_pos (isNaN_of_mag_le hhi.le le_rfl) hsign hlo⟩

/-- Settles O52: (b) to (d) by the bounds on the enclosures, the values at the zeros and at a NaN by the definitions. -/
theorem transcendentalsHaveTheirStatedProperties : Obligations.TranscendentalsHaveTheirStatedProperties := by
  refine ⟨rfl, fun v => abs_sin_le_one, fun v => exp_mem_unit, rfl, rfl, fun v => tan_pos, fun v h => ?_⟩
  simp [sin, exp, tan, h]

end Sys2Proof.F32
end

section
/-! What a command that passes its checks can move, one case a kind of effect: the inversion every statement below on
all commands starts from. Beside it the registers each kind leaves alone. -/

namespace Sys2Proof.Machine

/-- The effect of the command `i` on the state `s`, with what its checks have established (R253, R256 to R258). -/
inductive Moves : Instr → State → State → Prop
  | nothing {i s} : Moves i s s
  | arg {s} (k v) : Moves (.ldarg k v) s (s.setArg k v)
  | param {s} (p v) : Moves (.wrparam p v) s (s.setParam p v)
  | create {s} (r : RingId) (len : W32) (hlife : s.life = .unprep) (hlen : len.toNat ≤ 2 ^ 19) :
      Moves (.rbCreate r len) s (s.setRing r ((s.rb[r]).create len.toNat))
  | write {s} (r : RingId) (v) (hcap : (s.rb[r]).cap ≠ 0) : Moves (.rbWrite r v) s (s.rbWrite r v)
  | dlWrite {s} (r : RingId) (v) (hcap : (s.rb[r]).cap ≠ 0) : Moves (.dlWrite r) s (s.rbWrite r v)
  | interp {s} (r : RingId) (on) : Moves (.rbInterp r on) s (s.setRing r { s.rb[r] with interp := on })
  | delay {s} (r v) : Moves (.dlSettime r v) s (s.setDl r v)
  | bqCoef {s} (b ty g) : Moves (.bqCoef b ty) s (s.setBq b g)
  | bqStep {s} (b x g) : Moves (.bqStep b x) s (s.setBq b g)
  | bqReset {s} (b g) : Moves (.bqReset b) s (s.setBq b g)
  | rampSet {s} (c : Lane) (q : RampId) (t) :
      Moves (.rampSet c q t) s (s.setRamp c q (((s.ch[c]).ramp[q]).setTarget s.nRamp t))
  | rampAdv {s} (c : Lane) (q : RampId) (n : W32) :
      Moves (.rampAdv c q n) s (s.setRamp c q (((s.ch[c]).ramp[q]).advance n.toNat))
  | phase {s} (id n) (hprep : s.prepared = true) (hrate : rateOk s.a[0] = true) :
      Moves (.lfoStep id n) s (s.setPhase id (lfoNext s.fs (s.phase id) s.a[0] n.toNat))
  | tap {s} (c j u) (hcap : s.allocated (tapRing c j) = true) : Moves (.tapStep c j u) s (s.tapStep c j u).1
  | taps {s} (c u) (hcap : s.tapsAllocated c = true) : Moves (.rvStep c u) s (s.rvSum c u).1
  | sample {s} (c x) (hlife : s.life = .run) (hcap : s.laneAllocated c = true) :
      Moves (.sample c x) s (s.sampleStep c x).1
  | block {s} (n) (hprep : s.prepared = true) (hn : n.toNat ≤ s.maxBlk.toNat) : Moves (.block n) s (s.blockAll n)
  | prepare {s} (m fs) (hok : prepareOk m fs = true) : Moves (.prepare m fs) s (s.prepareInit m fs)
  | free {i s} (hi : i = .release ∨ ∃ m f, i = .prepare m f) : Moves i s s.unprepare

/-- A test of the checks that turns a command away unless it holds. -/
theorem of_ite_eq_none {p : Prop} [Decidable p] {o : Option ErrCode} {e : ErrCode}
    (h : (if p then o else some e) = none) : p ∧ o = none := by
  split at h
  · exact ⟨‹_›, h⟩
  · cases h

theorem allocated_iff {s : State} {r : RingId} : s.allocated r = true ↔ (s.rb[r]).cap ≠ 0 := bne_iff_ne

theorem prepared_iff {s : State} : s.prepared = true ↔ s.life ≠ .unprep := bne_iff_ne

/-- A command whose checks pass moves what its kind of effect moves. -/
theorem effect_moves {i : Instr} {s : State} (h : verdict i s = none) : Moves i s (effect i s).1 := by
  cases i with
  | nop | rdarg k | rbReadi r d | rbReadf r d | dlRead r | smOnepole | smCoeff tau | rampRd c q | bqRd b f | lfoRd id
  | mix | mixadd | rdstat idx => exact .nothing
  | rdparam sp p => cases sp <;> exact .nothing
  | prepare m fs => exact .prepare m fs (of_ite_eq_none h).1
  | release => exact .free (.inl rfl)
  | block n =>
    obtain ⟨hprep, h⟩ := of_ite_eq_none h
    exact .block n hprep (of_ite_eq_none h).1
  | sample c x =>
    obtain ⟨hrun, hcap⟩ := Bool.and_eq_true_iff.1 (of_ite_eq_none h).1
    exact .sample c x (eq_of_beq hrun) hcap
  | wrparam p v => exact .param p v
  | ldarg k v => exact .arg k v
  | rbCreate r len =>
    simp only [verdict] at h
    split at h
    · cases h
    · exact .create r len (not_not.1 (mt prepared_iff.2 ‹_›)) (of_ite_eq_none h).1.2
  | rbWrite r v => exact .write r v (allocated_iff.1 (of_ite_eq_none h).1)
  | dlWrite r => exact .dlWrite r _ (allocated_iff.1 (of_ite_eq_none h).1)
  | rbInterp r on => exact .interp r on
  | dlSettime r ms => exact .delay r ms
  | rampSet c q t => exact .rampSet c q t
  | rampAdv c q n => exact .rampAdv c q n
  | bqCoef b ty => exact .bqCoef b ty _
  | bqStep b x => exact .bqStep b x _
  | bqReset b => exact .bqReset b _
  | lfoStep id n =>
    obtain ⟨hprep, h⟩ := of_ite_eq_none h
    exact .phase id n hprep (Bool.and_eq_true_iff.1 (of_ite_eq_none h).1).1
  | tapStep c j u => exact .tap c j u (Bool.and_eq_true_iff.1 (of_ite_eq_none h).1).2
  | rvStep c u => exact .taps c u (Bool.and_eq_true_iff.1 (of_ite_eq_none h).1).2

/-- A refused command moves nothing, but that a refused `PREPARE` frees the rings (R103, R252). -/
theorem refusalBase_moves (i : Instr) (s : State) : Moves i s (refusalBase i s) := by
  cases i with
  | prepare m fs => exact .free (.inr ⟨m, fs, rfl⟩)
  | _ => exact .nothing

/-- Every command moves something of one kind, then answers or is turned away. -/
theorem exec_moves {i : Instr} {s t : State} (h : exec i s = .next t) :
    ∃ u, Moves i s u ∧ ((∃ d, t = u.respond .ok d) ∨ ∃ e, t = u.refuse e) := by
  rcases exec_next h with ⟨hv, rfl⟩ | ⟨e, -, rfl⟩
  · exact ⟨_, effect_moves hv, .inl ⟨_, rfl⟩⟩
  · exact ⟨_, refusalBase_moves i s, .inr ⟨e, rfl⟩⟩

/-- Every step: nothing pending, a command accepted and carried out, a word that is no command, or a reset (R60). -/
theorem step_next {s t : State} (h : step s = .next t) :
    t = s ∨ (∃ i p rest, exec i (s.accept p rest) = .next t) ∨
    (∃ p rest, t = (s.accept p rest).refuse .illegal) ∨ ∃ rest, s.input = .reset :: rest ∧ t = s.hardReset rest := by
  have hword {d p rest} (h : runWord d (s.accept p rest) = .next t) :
      (∃ i p rest, exec i (s.accept p rest) = .next t) ∨ ∃ p rest, t = (s.accept p rest).refuse .illegal := by
    cases d with
    | ok i => exact .inl ⟨i, p, rest, h⟩
    | error e => exact .inr ⟨p, rest, raise_eq_next.1 h⟩
  unfold step at h
  split at h
  · cases h; exact .inl rfl
  · exact .inr ((hword h).imp_right .inl)
  · exact .inr ((hword h).imp_right .inl)
  · cases h; exact .inr (.inr (.inr ⟨_, ‹_›, rfl⟩))

/-- A property of the registers alone that a reset establishes and that every effect keeps. -/
structure Kept (P : State → Prop) : Prop where
  reset : ∀ s rest, P (State.hardReset s rest)
  accept : ∀ s p rest, P s → P (State.accept s p rest)
  respond : ∀ s c d, P s → P (State.respond s c d)
  refuse : ∀ s e, P s → P (State.refuse s e)
  moves : ∀ i s t, Moves i s t → P s → P t

/-- Every step keeps such a property. -/
theorem Kept.step {P : State → Prop} (k : Kept P) {s t : State} (h : step s = .next t) (hs : P s) : P t := by
  rcases step_next h with rfl | ⟨i, p, rest, he⟩ | ⟨p, rest, rfl⟩ | ⟨rest, -, rfl⟩
  · exact hs
  · obtain ⟨u, hm, ⟨d, rfl⟩ | ⟨e, rfl⟩⟩ := exec_moves he
    · exact k.respond _ _ _ (k.moves _ _ _ hm (k.accept _ _ _ hs))
    · exact k.refuse _ _ (k.moves _ _ _ hm (k.accept _ _ _ hs))
  · exact k.refuse _ _ (k.accept _ _ _ hs)
  · exact k.reset _ _

/-! ## The registers each kind leaves alone -/

theorem setPhase_frame (s : State) (id : LfoId) (v : F32) :
    s.setPhase id v = { s with ch := (s.setPhase id v).ch, rph := (s.setPhase id v).rph } := by
  cases id <;> rfl

theorem rvSum_frame (s : State) (c : Lane) (u : F32) :
    (s.rvSum c u).1 = { s with rb := (s.rvSum c u).1.rb, dl := (s.rvSum c u).1.dl, bq := (s.rvSum c u).1.bq } :=
  tapsRun_frame ..

/-- What an effect moves outside the signal path: a control register of a control command, or nothing. -/
inductive ControlMoves : Instr → State → State → Prop
  | path {i s t} (h : t = { s with rb := t.rb, dl := t.dl, bq := t.bq, ch := t.ch, rph := t.rph }) : ControlMoves i s t
  | arg {s} (k v) : ControlMoves (.ldarg k v) s (s.setArg k v)
  | param {s} (p v) : ControlMoves (.wrparam p v) s (s.setParam p v)
  | block {s t} (n) (h : t = { s with snap := t.snap, rmod := t.rmod, lastN := t.lastN, life := t.life, rb := t.rb,
                                      dl := t.dl, bq := t.bq, ch := t.ch, rph := t.rph }) : ControlMoves (.block n) s t
  | prepare {s} (m fs) : ControlMoves (.prepare m fs) s (s.prepareInit m fs)
  | free {i s} (hi : i = .release ∨ ∃ m f, i = .prepare m f) : ControlMoves i s s.unprepare

theorem Moves.control {i : Instr} {s t : State} (h : Moves i s t) : ControlMoves i s t := by
  cases h with
  | arg k v => exact .arg k v
  | param p v => exact .param p v
  | block n => exact .block n (by rw [blockAll_frame])
  | prepare m fs => exact .prepare m fs
  | free hi => exact .free hi
  | phase id n => exact .path (by rw [setPhase_frame])
  | tap c j u => exact .path (by rw [tapStep_frame])
  | taps c u => exact .path (by rw [rvSum_frame])
  | sample c x => exact .path (by rw [sampleStep_frame])
  | _ => exact .path rfl

section
variable {i : Instr} {s t : State} (h : ControlMoves i s t)
include h

/-- No effect touches the sticky bits, the calibration, the port or the record of responses. -/
theorem ControlMoves.outside : t.err = s.err ∧ t.cal = s.cal ∧ t.port = s.port ∧ t.log = s.log := by
  cases h with
  | path h | block n h => rw [h]; exact ⟨rfl, rfl, rfl, rfl⟩
  | _ => exact ⟨rfl, rfl, rfl, rfl⟩

/-- The argument registers are `LDARG`'s (R21). -/
theorem ControlMoves.a_eq (hi : ∀ k v, i ≠ .ldarg k v) : t.a = s.a := by
  cases h with
  | arg k v => exact absurd rfl (hi k v)
  | path h | block n h => rw [h]
  | _ => rfl

/-- The staging registers are `WRPARAM`'s (R26). -/
theorem ControlMoves.param_eq (hi : ∀ p v, i ≠ .wrparam p v) : t.param = s.param := by
  cases h with
  | param p v => exact absurd rfl (hi p v)
  | path h | block n h => rw [h]
  | _ => rfl

/-- The configuration registers are `PREPARE`'s (R25). -/
theorem ControlMoves.config_eq (hi : ∀ m f, i ≠ .prepare m f) :
    t.fs = s.fs ∧ t.maxBlk = s.maxBlk ∧ t.nRamp = s.nRamp ∧ t.cGen = s.cGen ∧ t.cSml = s.cSml ∧ t.cLrg = s.cLrg := by
  cases h with
  | prepare m fs => exact absurd rfl (hi m fs)
  | path h | block n h => rw [h]; exact ⟨rfl, rfl, rfl, rfl, rfl, rfl⟩
  | _ => exact ⟨rfl, rfl, rfl, rfl, rfl, rfl⟩

/-- The snapshot and what goes with it are `PREPARE`'s and `BLOCK`'s, the lifecycle state theirs and `RELEASE`'s
(R24, R25, R27). -/
theorem ControlMoves.block_eq (hp : ∀ m f, i ≠ .prepare m f) (hb : ∀ n, i ≠ .block n) :
    t.snap = s.snap ∧ t.lastN = s.lastN ∧ t.rmod = s.rmod ∧ (i ≠ .release → t.life = s.life) := by
  cases h with
  | prepare m fs => exact absurd rfl (hp m fs)
  | block n => exact absurd rfl (hb n)
  | free hi =>
    rcases hi with rfl | ⟨m, f, rfl⟩
    · exact ⟨rfl, rfl, rfl, fun hr => absurd rfl hr⟩
    · exact absurd rfl (hp m f)
  | path h => rw [h]; exact ⟨rfl, rfl, rfl, fun _ => rfl⟩
  | _ => exact ⟨rfl, rfl, rfl, fun _ => rfl⟩

end

end Sys2Proof.Machine
end

section
/-! What a command can make of one ring, and R39 (a). -/

namespace Sys2Proof.Machine

/-- The ring `g` after the effect of the command `i`: one case an operation on rings (R53, R67, R104, R141, R150). -/
inductive RingStep : Instr → Ring → Ring → Prop
  | keep {i g} : RingStep i g g
  | write {i g} (v) (hcap : g.cap ≠ 0) : RingStep i g (g.write v)
  | interp {g} (r on) : RingStep (.rbInterp r on) g { g with interp := on }
  | create {g} (r) (len : W32) (hlen : len.toNat ≤ 2 ^ 19) : RingStep (.rbCreate r len) g (g.create len.toNat)
  | prepare {g} (m) (fs : W32) (hfs : fs.toNat ≤ Config.fsMax) :
      RingStep (.prepare m fs) g { g.create (2 * fs.toNat) with interp := true }
  | free {i g} (hi : i = .release ∨ ∃ m f, i = .prepare m f) : RingStep i g g.free

theorem tapsAllocated_iff {s : State} {c : Lane} :
    s.tapsAllocated c = true ↔ ∀ j, (s.rb[tapRing c j]).cap ≠ 0 := by
  simp only [State.tapsAllocated, List.all_eq_true, allocated_iff, mem_taps, true_implies]

theorem laneAllocated_iff {s : State} {c : Lane} :
    s.laneAllocated c = true ↔ (s.rb[mainRing c]).cap ≠ 0 ∧ ∀ j, (s.rb[tapRing c j]).cap ≠ 0 := by
  rw [State.laneAllocated, Bool.and_eq_true, allocated_iff, tapsAllocated_iff]

/-- `RV_STEP` writes the tap rings of its lane and keeps every other ring. -/
theorem rvSum_ringStep {i : Instr} {s : State} {c : Lane} (u : F32) (h : s.tapsAllocated c = true) (r : RingId) :
    RingStep i s.rb[r] (s.rvSum c u).1.rb[r] := by
  rw [tapsAllocated_iff] at h
  rw [rvSum_eq_tapsRun]
  by_cases hr : ∃ j, tapRing c j = r
  · obtain ⟨j, rfl⟩ := hr
    rw [(tapsRun_of_mem c u s Config.f0 nodup_taps (mem_taps j)).2.1]
    exact .write _ (h j)
  · rw [((tapsRun_of_notMem c u s Config.f0).1 r fun j _ hj => hr ⟨j, hj⟩).1]
    exact .keep

/-- `SAMPLE` writes the eleven rings of its lane and keeps every other ring. -/
theorem sampleStep_ringStep {i : Instr} {s : State} {c : Lane} (x : F32) (h : s.laneAllocated c = true) (r : RingId) :
    RingStep i s.rb[r] (s.sampleStep c x).1.rb[r] := by
  obtain ⟨hmain, htap⟩ := laneAllocated_iff.1 h
  by_cases hr : r.val / 11 = c.val
  · rcases ring_cases c r hr with rfl | ⟨j, rfl⟩
    · rw [((sampleStep_rest s c x).1 _ fun j => (mainRing_ne_tapRing c c j).symm).1, sampleMid_rb, if_pos rfl]
      exact .write _ hmain
    · rw [(sampleStep_tap s c x j).2.1]
      exact .write _ (htap j)
  · rw [(rings_other s c x r hr).1]
    exact .keep

theorem prepareOk_iff {m : BitVec 16} {fs : W32} :
    prepareOk m fs = true ↔ 1 ≤ fs.toNat ∧ fs.toNat ≤ Config.fsMax ∧ 1 ≤ m.toNat := by
  simp [prepareOk, and_assoc]

/-- What any effect makes of any ring. -/
theorem Moves.ring {i : Instr} {s t : State} (h : Moves i s t) (r : RingId) : RingStep i s.rb[r] t.rb[r] := by
  cases h with
  | create r' len _ hlen =>
    rw [setRing_get]
    split
    · subst r'; exact .create r len hlen
    · exact .keep
  | write r' v hcap | dlWrite r' v hcap =>
    rw [State.rbWrite, setRing_get]
    split
    · subst r'; exact .write v hcap
    · exact .keep
  | interp r' on =>
    rw [setRing_get]
    split
    · subst r'; exact .interp r on
    · exact .keep
  | phase id n => rw [setPhase_frame]; exact .keep
  | tap c j u hcap =>
    rw [tapStep_rb]
    split
    · subst r; exact .write _ (allocated_iff.1 hcap)
    · exact .keep
  | taps c u hcap => exact rvSum_ringStep u hcap r
  | sample c x _ hcap => exact sampleStep_ringStep x hcap r
  | block n => rw [blockAll_frame]; exact .keep
  | prepare m fs hok =>
    simp only [State.prepareInit, Fin.getElem_fin, Vector.getElem_ofFn]
    exact .prepare m fs (prepareOk_iff.1 hok).2.1
  | free hi =>
    simp only [State.unprepare_rb, Fin.getElem_fin, Vector.getElem_ofFn]
    exact .free hi
  | _ => exact .keep

/-! ## R39 (a) -/

/-- Two rings alike but for the interpolation toggle are well formed together. -/
theorem Ring.Ok.interp {g : Ring} (h : g.Ok) (on : Bool) : Ring.Ok { g with interp := on } :=
  ⟨h.capPow2, h.widxBelow, h.canonical, h.inside⟩

/-- The freed ring. -/
theorem Ring.free_ok (g : Ring) : g.free.Ok := ⟨.inl rfl, fun h => absurd rfl h, rfl, rfl⟩

/-- A created ring of an allowed length: its capacity is `nextPow2`, its memory is empty (R141). -/
theorem Ring.create_ok (g : Ring) {len : Nat} (h : len ≤ 2 ^ 19) : (g.create len).Ok := by
  have hcap := g.create_cap_toNat h
  obtain ⟨k, hk⟩ := nextPow2_isPow2 len
  have hk19 : k < 20 := Nat.lt_succ_of_le ((Nat.pow_le_pow_iff_right (by decide)).1 (hk ▸ nextPow2_le_pow h))
  refine ⟨.inr ⟨⟨k, hk19⟩, hcap.trans hk⟩, fun _ => ?_, rfl, rfl⟩
  rw [hcap, hk]
  exact Nat.two_pow_pos k

/-- A write at an index below the capacity; the advanced index is masked below it (R143). -/
theorem Ring.write_ok {g : Ring} (h : g.Ok) (hcap : g.cap ≠ 0) (v : W32) : (g.write v).Ok := by
  refine ⟨h.capPow2, fun _ => ?_, memWf_write h.canonical _ v, memBelow_write h.inside (h.widxBelow hcap) v⟩
  have hpos : 0 < g.cap.toNat := Nat.pos_of_ne_zero fun h0 => hcap (BitVec.eq_of_toNat_eq h0)
  have hmask : ((g.widx + 1) &&& (g.cap - 1)).toNat ≤ (g.cap - 1).toNat := Nat.and_le_right
  have hsub : (g.cap - 1).toNat = g.cap.toNat - 1 := by bv_omega
  show ((g.widx + 1) &&& (g.cap - 1)).toNat < g.cap.toNat
  omega

theorem RingStep.ok {i : Instr} {g g' : Ring} (h : RingStep i g g') (hg : g.Ok) : g'.Ok := by
  cases h with
  | keep => exact hg
  | write v hcap => exact Ring.write_ok hg hcap v
  | interp r on => exact hg.interp on
  | create r len hlen => exact g.create_ok hlen
  | prepare m fs hfs => exact (g.create_ok (by unfold Config.fsMax at hfs; omega)).interp true
  | free hi => exact g.free_ok

theorem kept_ringsOk : Kept State.ringsOk where
  reset s rest r := by rw [State.hardReset, reset_rb]; exact Ring.reset_ok
  accept _ _ _ h := h
  respond _ _ _ h := h
  refuse _ _ h := h
  moves _ _ _ h hs r := (h.ring r).ok (hs r)

/-- Settles O54: every ring is kept, written below its capacity, created, freed or switched. -/
theorem stepKeepsRingMemory : Obligations.StepKeepsRingMemory := fun _ _ hs h => kept_ringsOk.step h hs

end Sys2Proof.Machine
end

section
/-! What a command can make of one lane's registers, and who writes what (R21, R24 to R27, R30, R34). -/

namespace Sys2Proof.Machine

/-- The registers of the lane `c` after the effect of the command `i` on the state `s`. -/
inductive LaneStep : Instr → State → Lane → Chan → Prop
  | keep {i s c} : LaneStep i s c s.ch[c]
  | rampSet {s} (c : Lane) (q : RampId) (t) :
      LaneStep (.rampSet c q t) s c
        { s.ch[c] with ramp := (s.ch[c]).ramp.set q.val (((s.ch[c]).ramp[q]).setTarget s.nRamp t) q.isLt }
  | rampAdv {s} (c : Lane) (q : RampId) (n : W32) :
      LaneStep (.rampAdv c q n) s c
        { s.ch[c] with ramp := (s.ch[c]).ramp.set q.val (((s.ch[c]).ramp[q]).advance n.toNat) q.isLt }
  | phase {s} (c : Lane) (id) (n : BitVec 16) (hprep : s.prepared = true) (hrate : rateOk s.a[0] = true) :
      LaneStep (.lfoStep id n) s c { s.ch[c] with cph := lfoNext s.fs (s.ch[c]).cph s.a[0] n.toNat }
  | sample {s} (c x out) (hlife : s.life = .run) :
      LaneStep (.sample c x) s c
        { (s.sampleFront c x).ch[c] with pkOut := peak ((s.sampleFront c x).ch[c]).pkOut out }
  | block {s} (c n) : LaneStep (.block n) s c ((s.blockStart n).blockReg c n (s.life == .prep))
  | prepare {s c} (m fs) : LaneStep (.prepare m fs) s c Chan.reset

/-- What any effect makes of any lane. -/
theorem Moves.lane {i : Instr} {s t : State} (h : Moves i s t) (c : Lane) : LaneStep i s c t.ch[c] := by
  cases h with
  | rampSet c' q v =>
    rw [State.setRamp, setCh_get]
    split
    · subst c'; exact .rampSet c q v
    · exact .keep
  | rampAdv c' q n =>
    rw [State.setRamp, setCh_get]
    split
    · subst c'; exact .rampAdv c q n
    · exact .keep
  | phase id n hprep hrate =>
    cases id with
    | chorusLeft =>
      rw [State.setPhase, setCh_get]
      split
      · subst c; exact .phase 0 _ n hprep hrate
      · exact .keep
    | chorusRight =>
      rw [State.setPhase, setCh_get]
      split
      · subst c; exact .phase 1 _ n hprep hrate
      · exact .keep
    | reverb => exact .keep
  | tap c' j u => rw [tapStep_frame]; exact .keep
  | taps c' u => rw [rvSum_frame]; exact .keep
  | sample c' x hlife =>
    rw [sampleStep_ch]
    split
    · subst c'; exact .sample c x _ hlife
    · exact .keep
  | block n => rw [blockAll_ch]; exact .block c n
  | prepare m fs =>
    simp only [State.prepareInit, Fin.getElem_fin, Vector.getElem_replicate]
    exact .prepare m fs
  | _ => exact .keep

/-- The delay parameter and the zero flag a block leaves (R110). -/
theorem blockReg_delay (s : State) (c : Lane) (n : BitVec 16) (first : Bool) :
    (s.blockReg c n first).dparam = s.laneDelay c ∧ (s.blockReg c n first).zero = (s.laneDelay c == 0) := by
  cases first <;> exact ⟨rfl, rfl⟩

/-- The zero flag and the delay parameter of a lane are `BLOCK`'s and `PREPARE`'s (R34). -/
theorem LaneStep.delay_eq {i : Instr} {s : State} {c : Lane} {l : Chan} (h : LaneStep i s c l)
    (hp : ∀ m f, i ≠ .prepare m f) (hb : ∀ n, i ≠ .block n) :
    l.zero = (s.ch[c]).zero ∧ l.dparam = (s.ch[c]).dparam := by
  cases h with
  | sample c x out => rw [sampleFront_ch]; exact ⟨rfl, rfl⟩
  | block c n => exact absurd rfl (hb n)
  | prepare m fs => exact absurd rfl (hp m fs)
  | _ => exact ⟨rfl, rfl⟩

/-- A capacity is changed by `PREPARE`, `RELEASE` and `RB_CREATE` alone (R67). -/
theorem RingStep.cap_eq {i : Instr} {g g' : Ring} (h : RingStep i g g') (hp : ∀ m f, i ≠ .prepare m f)
    (hr : i ≠ .release) (hc : ∀ r len, i ≠ .rbCreate r len) : g'.cap = g.cap := by
  cases h with
  | create r len => exact absurd rfl (hc r len)
  | prepare m fs => exact absurd rfl (hp m fs)
  | free hi =>
    obtain rfl | ⟨m, f, rfl⟩ := hi
    · exact absurd rfl hr
    · exact absurd rfl (hp m f)
  | _ => rfl

/-- An interpolation toggle is written by `RB_INTERP` and `PREPARE` alone (R30). -/
theorem RingStep.interp_eq {i : Instr} {g g' : Ring} (h : RingStep i g g') (hp : ∀ m f, i ≠ .prepare m f)
    (hi : ∀ r on, i ≠ .rbInterp r on) : g'.interp = g.interp := by
  cases h with
  | interp r on => exact absurd rfl (hi r on)
  | prepare m fs => exact absurd rfl (hp m fs)
  | _ => rfl

/-- Settles O17: ring by ring and lane by lane; the response touches neither. -/
theorem ringAndLaneFlagsHaveTheirStatedWriters : Obligations.RingAndLaneFlagsHaveTheirStatedWriters := by
  intro i s t h hp
  obtain ⟨u, hm, ht⟩ := exec_moves h
  obtain ⟨hrb, hch⟩ : t.rb = u.rb ∧ t.ch = u.ch := by
    obtain ⟨d, rfl⟩ | ⟨e, rfl⟩ := ht <;> exact ⟨rfl, rfl⟩
  simp only [hrb, hch]
  exact ⟨fun hr hc r => (hm.ring r).cap_eq hp hr hc, fun hi r => (hm.ring r).interp_eq hp hi,
    fun hb c => (hm.lane c).delay_eq hp hb⟩

/-- Settles O16: each register by the lemma on who writes it; the response touches none of them. -/
theorem controlRegistersHaveTheirStatedWriters : Obligations.ControlRegistersHaveTheirStatedWriters := by
  intro i s t h
  obtain ⟨u, hm, ht⟩ := exec_moves h
  have hu := hm.control
  obtain ⟨d, rfl⟩ | ⟨e, rfl⟩ := ht <;>
    exact ⟨hu.a_eq, hu.param_eq, hu.config_eq, hu.block_eq, hu.outside.2.1⟩

/-! ## The sticky bits (R28, R252) -/

/-- Setting a sticky bit clears none. -/
theorem Err.set_keeps (x : Err) (e : ErrCode) :
    (x.illegal = true → (x.set e).illegal = true) ∧ (x.state = true → (x.set e).state = true) ∧
    (x.config = true → (x.set e).config = true) ∧ (x.range = true → (x.set e).range = true) := by
  cases e <;> simp [Err.set]

/-- Outside a reset a step leaves the sticky bits alone, or sets the one of the error it answers. -/
theorem step_err {s t : State} (hr : ∀ rest, s.input ≠ .reset :: rest) (h : step s = .next t) :
    t.err = s.err ∨ ∃ e, t.err = s.err.set e ∧ t.log = ⟨t.port, .err e, 0⟩ :: s.log := by
  rcases step_next h with rfl | ⟨i, p, rest, he⟩ | ⟨p, rest, rfl⟩ | ⟨rest, hin, -⟩
  · exact .inl rfl
  · obtain ⟨u, hm, ht⟩ := exec_moves he
    obtain ⟨herr, -, hport, hlog⟩ := hm.control.outside
    obtain ⟨d, rfl⟩ | ⟨e, rfl⟩ := ht
    · exact .inl herr
    · refine .inr ⟨e, ?_, ?_⟩
      · rw [State.refuse_err, herr, State.accept_err]
      · rw [State.refuse_log, State.refuse_port, hlog, State.accept_log]
  · exact .inr ⟨.illegal, rfl, rfl⟩
  · exact absurd hin (hr rest)

/-- Settles O15: the bits are kept or one is set, with its error answered. -/
theorem stickyBitsAreOnlyEverSet : Obligations.StickyBitsAreOnlyEverSet := by
  intro s t hr h
  rcases step_err hr h with herr | ⟨e, herr, hlog⟩
  · rw [herr]
    exact ⟨id, id, id, id, fun hne => absurd rfl hne⟩
  · obtain ⟨h1, h2, h3, h4⟩ := s.err.set_keeps e
    rw [herr]
    exact ⟨h1, h2, h3, h4, fun _ => ⟨e, rfl, hlog⟩⟩

end Sys2Proof.Machine
end

section
/-! R39 (b), (e), (f), (g), (h) and the lengths of R25. -/

namespace Sys2Proof.Machine

/-! ## Ramps, R39 (e) -/

/-- A retargeted ramp has the whole length, none, or the rest it had to go (R174). -/
theorem Ramp.setTarget_cnt_le {x : Ramp} {nRamp : W32} (t : F32) (h : x.cnt.toNat ≤ nRamp.toNat) :
    (x.setTarget nRamp t).cnt.toNat ≤ nRamp.toNat := by
  unfold Ramp.setTarget
  split_ifs
  · exact Nat.zero_le _
  · exact le_rfl
  · exact h

/-- An advanced ramp has no more to go than before (R177). -/
theorem Ramp.advance_cnt_le (x : Ramp) (n : Nat) : (x.advance n).cnt.toNat ≤ x.cnt.toNat := by
  unfold Ramp.advance
  split
  · exact le_rfl
  split
  · exact Nat.zero_le _
  · exact (BitVec.toNat_ofNat ..).trans_le ((Nat.mod_le _ _).trans (Nat.sub_le _ _))

theorem Ramp.atBlock_cnt_le {x : Ramp} {nRamp : W32} (first : Bool) (t : F32) (n : Nat)
    (h : x.cnt.toNat ≤ nRamp.toNat) : (x.atBlock first nRamp t n).cnt.toNat ≤ nRamp.toNat := by
  cases first with
  | true => exact Nat.zero_le _
  | false => exact (Ramp.advance_cnt_le ..).trans (Ramp.setTarget_cnt_le t h)

/-- The ramps a block leaves (R110). -/
theorem blockReg_ramp (s : State) (c : Lane) (n : BitVec 16) (first : Bool) (q : RampId) :
    (s.blockReg c n first).ramp[q] =
      ((s.ch[c]).ramp[q]).atBlock first s.nRamp (rampTargets s.snap (s.laneDelay c))[q] n.toNat := by
  rw [← rampedLane_ramp]
  cases first <;> rfl

/-- Every ramp of a lane has at most the length `nRamp` to go. -/
def Chan.rampsOk (l : Chan) (nRamp : W32) : Prop := ∀ q : RampId, (l.ramp[q]).cnt.toNat ≤ nRamp.toNat

theorem Chan.rampsOk_set {l : Chan} {nRamp : W32} (h : l.rampsOk nRamp) (q : RampId) {x : Ramp}
    (hx : x.cnt.toNat ≤ nRamp.toNat) : Chan.rampsOk { l with ramp := l.ramp.set q.val x q.isLt } nRamp := by
  intro q'
  rw [getElem_set_fin]
  split
  · exact hx
  · exact h q'

theorem Chan.reset_rampsOk (nRamp : W32) : Chan.reset.rampsOk nRamp := by
  intro q
  rw [reset_ramp]
  exact Nat.zero_le _

theorem LaneStep.rampsOk {i : Instr} {s : State} {c : Lane} {l : Chan} (h : LaneStep i s c l)
    (hs : (s.ch[c]).rampsOk s.nRamp) : l.rampsOk s.nRamp := by
  cases h with
  | keep | phase c id n => exact hs
  | rampSet c q t => exact Chan.rampsOk_set hs q (Ramp.setTarget_cnt_le t (hs q))
  | rampAdv c q n => exact Chan.rampsOk_set hs q ((Ramp.advance_cnt_le ..).trans (hs q))
  | sample c x out => rw [sampleFront_ch]; exact hs
  | block c n =>
    intro q
    rw [blockReg_ramp]
    exact Ramp.atBlock_cnt_le _ _ _ (hs q)
  | prepare m fs => exact Chan.reset_rampsOk _

/-! ## Peak meters, R39 (g) -/

/-- A meter in `[0, 1]` stays there, whatever it is fed (R116, R120). -/
theorem inRange_peak {m : F32} (v : F32) (h : inRange Config.f0 Config.f1 m) :
    inRange Config.f0 Config.f1 (peak m v) := by
  unfold peak
  simp only
  split_ifs with hgt hone
  · unfold inRange; decide
  · obtain ⟨hnan, -, -⟩ := F32.gt_iff.1 hgt
    refine ⟨F32.ge_iff.2 ⟨hnan, by decide, ?_⟩, F32.ge_of_not_gt hnan (by decide) hone⟩
    rw [F32.key_of_sign_false (F32.sign_abs v)]
    exact Int.natCast_nonneg _
  · exact h

/-- Both meters of a lane are in `[0, 1]`. -/
def Chan.peaksOk (l : Chan) : Prop := inRange Config.f0 Config.f1 l.pkIn ∧ inRange Config.f0 Config.f1 l.pkOut

theorem LaneStep.peaksOk {i : Instr} {s : State} {c : Lane} {l : Chan} (h : LaneStep i s c l)
    (hs : (s.ch[c]).peaksOk) : l.peaksOk := by
  cases h with
  | sample c x out =>
    rw [sampleFront_ch]
    exact ⟨inRange_peak x hs.1, inRange_peak out hs.2⟩
  | block c n | prepare m fs => exact ⟨inRange_zero, inRange_zero⟩
  | _ => exact hs

theorem kept_peaksOk : Kept State.peaksOk where
  reset s rest c := by rw [State.hardReset, reset_ch]; exact ⟨inRange_zero, inRange_zero⟩
  accept _ _ _ h := h
  respond _ _ _ h := h
  refuse _ _ h := h
  moves _ _ _ h hs c := (h.lane c).peaksOk (hs c)

/-! ## Zero flags, R39 (h) -/

theorem LaneStep.zeroOk {i : Instr} {s : State} {c : Lane} {l : Chan} (h : LaneStep i s c l)
    (hs : (s.ch[c]).zero = true ↔ (s.ch[c]).dparam = 0) : l.zero = true ↔ l.dparam = 0 := by
  cases h with
  | sample c x out => rw [sampleFront_ch]; exact hs
  | block c n =>
    rw [(blockReg_delay ..).1, (blockReg_delay ..).2]
    exact beq_iff_eq
  | prepare m fs => exact ⟨fun _ => rfl, fun _ => rfl⟩
  | _ => exact hs

theorem kept_zeroOk : Kept State.zeroOk where
  reset s rest c := by rw [State.hardReset, reset_ch]; exact ⟨fun _ => rfl, fun _ => rfl⟩
  accept _ _ _ h := h
  respond _ _ _ h := h
  refuse _ _ h := h
  moves _ _ _ h hs c := (h.lane c).zeroOk (hs c)

/-! ## Configuration, R39 (b), and what goes with it -/

/-- Two states alike in the registers of R24, R25 and R27 and in every capacity. -/
structure SameConfig (s t : State) : Prop where
  life : t.life = s.life
  fs : t.fs = s.fs
  maxBlk : t.maxBlk = s.maxBlk
  nRamp : t.nRamp = s.nRamp
  lastN : t.lastN = s.lastN
  snap : t.snap = s.snap
  cap : ∀ r : RingId, (t.rb[r]).cap = (s.rb[r]).cap

/-- What an effect can do to those. -/
inductive ConfigMoves (s : State) : State → Prop
  | same {t} (h : SameConfig s t) : ConfigMoves s t
  | create (r g) (hlife : s.life = .unprep) : ConfigMoves s (s.setRing r g)
  | block (n) (hprep : s.prepared = true) (hn : n.toNat ≤ s.maxBlk.toNat) : ConfigMoves s (s.blockAll n)
  | prepare (m fs) (hok : prepareOk m fs = true) : ConfigMoves s (s.prepareInit m fs)
  | free : ConfigMoves s s.unprepare

theorem Moves.sameConfig {i : Instr} {s t : State} (h : Moves i s t) (hp : ∀ m f, i ≠ .prepare m f)
    (hb : ∀ n, i ≠ .block n) (hr : i ≠ .release) (hc : ∀ r len, i ≠ .rbCreate r len) : SameConfig s t := by
  obtain ⟨hfs, hmax, hramp, -⟩ := h.control.config_eq hp
  obtain ⟨hsnap, hlast, -, hlife⟩ := h.control.block_eq hp hb
  exact ⟨hlife hr, hfs, hmax, hramp, hlast, hsnap, fun r => (h.ring r).cap_eq hp hr hc⟩

theorem Moves.config {i : Instr} {s t : State} (h : Moves i s t) : ConfigMoves s t := by
  have hsame := h.sameConfig
  cases h with
  | nothing => exact .same ⟨rfl, rfl, rfl, rfl, rfl, rfl, fun _ => rfl⟩
  | create r len hlife => exact .create r _ hlife
  | block n hprep hn => exact .block n hprep hn
  | prepare m fs hok => exact .prepare m fs hok
  | free => exact .free
  | _ => exact .same (hsame nofun nofun nofun nofun)

theorem kept_rampsOk : Kept State.rampsOk where
  reset s rest c := by rw [State.hardReset, reset_ch]; exact Chan.reset_rampsOk _
  accept _ _ _ h := h
  respond _ _ _ h := h
  refuse _ _ h := h
  moves i s t h hs c := by
    have hl := (h.lane c).rampsOk (hs c)
    cases h.config with
    | same hk => rwa [← hk.nRamp] at hl
    | block n => rw [blockAll_frame] at hl ⊢; exact hl
    | prepare m fs =>
      simp only [State.prepareInit, Fin.getElem_fin, Vector.getElem_replicate]
      exact Chan.reset_rampsOk _
    | create r g | free => exact hl

theorem kept_sizedOk : Kept State.sizedOk where
  reset s rest h := absurd rfl h
  accept _ _ _ h := h
  respond _ _ _ h := h
  refuse _ _ h := h
  moves i s t h hs := by
    cases h.config with
    | same hk => simpa only [State.sizedOk, hk.life, hk.fs, hk.maxBlk, hk.cap] using hs
    | create r g hlife => exact fun hne => absurd hlife hne
    | block n hprep => rw [blockAll_frame]; exact fun _ => hs (prepared_iff.1 hprep)
    | prepare m fs hok =>
      obtain ⟨h1, h2, h3⟩ := prepareOk_iff.1 hok
      refine fun _ => ⟨h1, h2, h3, fun r => ?_⟩
      simp only [State.prepareInit, Fin.getElem_fin, Vector.getElem_ofFn]
      exact Ring.create_cap_toNat _ (by unfold Config.fsMax at h2; omega)
    | free => exact fun hne => absurd rfl hne

/-- The lengths of R25: a prepared ramp length is 50 ms, an accepted block is no longer than `MAXBLK`. -/
theorem kept_lengthsOk : Kept State.lengthsOk where
  reset _ _ := ⟨show (0 : Nat) = 0 * Config.rampMs / 1000 by decide, Nat.zero_le _⟩
  accept _ _ _ h := h
  respond _ _ _ h := h
  refuse _ _ h := h
  moves i s t h hs := by
    cases h.config with
    | same hk => simpa only [State.lengthsOk, hk.fs, hk.nRamp, hk.lastN, hk.maxBlk] using hs
    | block n _ hn => rw [blockAll_frame]; exact ⟨hs.1, hn⟩
    | prepare m fs hok =>
      have hfs := (prepareOk_iff.1 hok).2.1
      refine ⟨Nat.mod_eq_of_lt ?_, Nat.zero_le _⟩
      unfold Config.fsMax at hfs
      unfold Config.rampMs
      omega
    | create r g | free => exact hs

/-! ## The snapshot, R39 (f) -/

theorem clampDelay_toNat_le (w : W32) (hi : Nat) : (clampDelay w hi).toNat ≤ hi := by
  rw [clampDelay, BitVec.toNat_ofNat]
  exact (Nat.mod_le _ _).trans (Nat.min_le_right _ _)

theorem and_one_toNat_le (w : W32) : (w &&& 1#32).toNat ≤ 1 := Nat.and_le_right

/-- The snapshot is within the ranges of R26, whatever the staging registers hold (R112). -/
theorem snapshotOf_ok (p : Vector W32 13) : SnapOk (snapshotOf p) where
  delayLeft := clampDelay_toNat_le ..
  delayRight := clampDelay_toNat_le ..
  feedback := F32.inRange_clamp (by decide)
  dryWet := F32.inRange_clamp (by decide)
  dual := and_one_toNat_le _
  chorus := and_one_toNat_le _
  chorusRate := F32.inRange_clamp (by decide)
  lowPass := and_one_toNat_le _
  lowPassHz := F32.inRange_clamp (by decide)
  highPass := and_one_toNat_le _
  highPassHz := F32.inRange_clamp (by decide)
  reverb := and_one_toNat_le _
  reverbLevel := F32.inRange_clamp (by decide)

theorem kept_snapOk : Kept State.snapOk where
  reset _ _ h := nomatch h
  accept _ _ _ h := h
  respond _ _ _ h := h
  refuse _ _ h := h
  moves i s t h hs := by
    cases h.config with
    | same hk => simpa only [State.snapOk, hk.life, hk.snap] using hs
    | create r g => exact hs
    | block n => rw [blockAll_frame]; exact fun _ => snapshotOf_ok _
    | prepare m fs | free => exact nofun

/-- Settles O56: each invariant holds after a reset and is kept by every effect. -/
theorem stepKeepsRegisterInvariants : Obligations.StepKeepsRegisterInvariants := fun _ _ h =>
  ⟨kept_sizedOk.step h, kept_rampsOk.step h, kept_snapOk.step h, kept_peaksOk.step h, kept_zeroOk.step h,
    kept_lengthsOk.step h⟩

end Sys2Proof.Machine
end

section
/-! The wrapped phase is the exact remainder (R211), and a bound on rounded results that are not negative. -/

namespace Sys2Proof.F32

/-! ## The remainder by `TWO_PI` -/

/-- The remainder of a grid point by a normal value is a grid point: either the point is below the modulus, or it is a
multiple of the modulus's spacing. -/
theorem OnGrid.mod_normal {n : Nat} (h : OnGrid n) {m : Nat} (hlo : 2 ^ 23 ≤ m) (hhi : m < 2 ^ 24) (e : Nat) :
    OnGrid (n % (m * 2 ^ e)) := by
  rcases h.dvd_or_lt e with ⟨a, rfl⟩ | hlt
  · rw [Nat.mul_comm (2 ^ e), Nat.mul_mod_mul_right]
    exact ⟨_, e, (Nat.mod_lt a (by omega)).trans hhi, rfl⟩
  · have hmod : n < m * 2 ^ e :=
      calc n < 2 ^ (e + 23) := hlt
        _ = 2 ^ 23 * 2 ^ e := by rw [pow_add, Nat.mul_comm]
        _ ≤ m * 2 ^ e := Nat.mul_le_mul_right _ hlo
    rwa [Nat.mod_eq_of_lt hmod]

theorem units_fTwoPi : Config.fTwoPi.units = 0xC90FDB * 2 ^ 128 := by decide

/-- On its domain `lfo_wrap` is exact: no rounding takes place. -/
theorem wrap_exact {p : F32} (hp : p.isFinite = true) (h0 : ge p Config.f0 = true) :
    (wrap p).isFinite = true ∧ (wrap p).sunits = (p.units % Config.fTwoPi.units : Nat) := by
  rw [wrap, if_pos (by rw [hp, h0]; rfl)]
  refine ofUnits_exact _ ?_ ?_ <;> rw [Int.natAbs_natCast, units_fTwoPi]
  · exact (onGrid_units p).mod_normal (by decide) (by decide) 128
  · omega

/-- The order of two finite values is that of their units. -/
theorem ge_iff_sunits {a b : F32} (ha : a.isFinite = true) (hb : b.isFinite = true) :
    ge a b = true ↔ b.sunits ≤ a.sunits := by
  rw [ge_iff, ← not_lt, ← sunits_lt_iff, not_lt]
  simp [not_isNaN_of_isFinite, ha, hb]

theorem lt_iff_sunits {a b : F32} (ha : a.isFinite = true) (hb : b.isFinite = true) :
    lt a b = true ↔ a.sunits < b.sunits := by
  rw [lt_iff, ← sunits_lt_iff]
  simp [not_isNaN_of_isFinite, ha, hb]

/-- The wrapped phase is in `[0, TWO_PI)` (R211). -/
theorem phaseOk_wrap {p : F32} (hp : p.isFinite = true) (h0 : ge p Config.f0 = true) : Machine.phaseOk (wrap p) := by
  obtain ⟨hfin, hval⟩ := wrap_exact hp h0
  have hlt : p.units % Config.fTwoPi.units < Config.fTwoPi.units := Nat.mod_lt _ (by decide)
  refine ⟨(ge_iff_sunits hfin isFinite_f0).2 ?_, (lt_iff_sunits hfin (by decide)).2 ?_⟩ <;> rw [hval]
  · exact Int.natCast_nonneg _
  · rw [show Config.fTwoPi.sunits = (Config.fTwoPi.units : Int) by decide]
    exact_mod_cast hlt

/-! ## Bounds on results that are not negative -/

/-- A finite value in `[0, 2 ^ k]`. -/
structure UpTo (k : Nat) (v : F32) : Prop where
  finite : v.isFinite = true
  nonneg : 0 ≤ v.val
  le : v.val ≤ 2 ^ k

theorem UpTo.mono {j k : Nat} {v : F32} (h : UpTo j v) (hjk : j ≤ k) : UpTo k v :=
  ⟨h.finite, h.nonneg, h.le.trans (pow_le_pow_right₀ (by norm_num) hjk)⟩

/-- The powers of two are F32 values. -/
theorem exists_val_two_pow {k : Nat} (hk : k ≤ 100) : ∃ w : F32, w.isFinite = true ∧ w.val = 2 ^ k := by
  have hlt : 2 ^ (k + 149) ≤ 2 ^ 249 := Nat.pow_le_pow_right (by decide) (by omega)
  obtain ⟨hfin, hval⟩ := ofUnits_exact false (i := (1 * 2 ^ (k + 149) : Nat)) (onGrid_of_le (by decide) _) (by omega)
  refine ⟨_, hfin, ?_⟩
  rw [val_of_sunits hval, one_mul, pow_add]
  push_cast
  exact mul_div_cancel_right₀ _ (by positivity)

/-- Rounding to nearest keeps a bound that is an F32 value: no result past it is nearer. -/
theorem RoundsTo.upTo {x : ℝ} {r : F32} (h : RoundsTo x r) {k : Nat} (hk : k ≤ 100) (h0 : 0 ≤ x) (h1 : x ≤ 2 ^ k) :
    UpTo k r := by
  obtain ⟨w, hw, hwval⟩ := exists_val_two_pow hk
  have hover : (2 : ℝ) ^ k < (overflow : ℝ) :=
    calc (2 : ℝ) ^ k ≤ 2 ^ 100 := pow_le_pow_right₀ (by norm_num) hk
      _ < (overflow : ℝ) := by rw [overflow]; norm_num
  have hfin : r.isFinite = true := h.finite_iff.2 (by rw [abs_of_nonneg h0]; linarith)
  have hlow := h.nearest hfin Config.f0 isFinite_f0
  have hhigh := h.nearest hfin w hw
  rw [val_f0, Rat.cast_zero, zero_sub, abs_neg, abs_of_nonneg h0] at hlow
  rw [hwval, abs_of_nonneg (a := ((2 ^ k : ℚ) : ℝ) - x) (by push_cast; linarith)] at hhigh
  have hnonneg : (0 : ℝ) ≤ r.val := by linarith [(abs_le.1 hlow).1]
  have hle : (r.val : ℝ) ≤ ((2 ^ k : ℚ) : ℝ) := by linarith [(abs_le.1 hhigh).2]
  exact ⟨hfin, by exact_mod_cast hnonneg, by exact_mod_cast hle⟩

theorem UpTo.cast {k : Nat} {v : F32} (h : UpTo k v) : (0 : ℝ) ≤ v.val ∧ (v.val : ℝ) ≤ 2 ^ k :=
  ⟨by exact_mod_cast h.nonneg, by exact_mod_cast h.le⟩

theorem UpTo.add {k : Nat} {a b : F32} (ha : UpTo k a) (hb : UpTo k b) (hk : k < 100) : UpTo (k + 1) (add a b) := by
  obtain ⟨ha0, ha1⟩ := ha.cast
  obtain ⟨hb0, hb1⟩ := hb.cast
  refine (roundsTo_add ha.finite hb.finite).upTo hk (add_nonneg ha0 hb0) ?_
  rw [pow_succ]
  linarith

theorem UpTo.mul {j k : Nat} {a b : F32} (ha : UpTo j a) (hb : UpTo k b) (hjk : j + k ≤ 100) :
    UpTo (j + k) (mul a b) := by
  obtain ⟨ha0, ha1⟩ := ha.cast
  obtain ⟨hb0, hb1⟩ := hb.cast
  refine (roundsTo_mul ha.finite hb.finite).upTo hjk (mul_nonneg ha0 hb0) ?_
  rw [pow_add]
  exact mul_le_mul ha1 hb1 hb0 (by positivity)

/-- A quotient by a divisor of at least 1 is no greater than the dividend. -/
theorem UpTo.div {k : Nat} {a b : F32} (ha : UpTo k a) (hb : b.isFinite = true) (h1 : 1 ≤ b.val) (hk : k ≤ 100) :
    UpTo k (div a b) := by
  obtain ⟨ha0, ha1⟩ := ha.cast
  have hb1 : (1 : ℝ) ≤ b.val := by exact_mod_cast h1
  have hz : b.isZero = false := by
    rw [← Bool.not_eq_true, ← val_eq_zero_iff]
    linarith
  exact (roundsTo_div ha.finite hb hz).upTo hk (div_nonneg ha0 (by linarith)) ((div_le_self ha0 hb1).trans ha1)

theorem upTo_ofNat {n k : Nat} (h : n ≤ 2 ^ k) (hk : k ≤ 24) : UpTo k (ofNat n) := by
  obtain ⟨hfin, hval⟩ := ofNat_exact (h.trans (Nat.pow_le_pow_right (by decide) hk))
  exact ⟨hfin, by rw [hval]; positivity, by rw [hval]; exact_mod_cast h⟩

/-- A value between +0.0 and a finite value is finite. -/
theorem isFinite_of_inRange {v hi : F32} (h : Machine.inRange Config.f0 hi v) (hhi : hi.isFinite = true) :
    v.isFinite = true := by
  have hlow := (ge_iff.1 h.1).2.2
  have hhigh := (ge_iff.1 h.2).2.2
  rw [show Config.f0.key = 0 from rfl] at hlow
  simp only [isFinite, decide_eq_true_eq] at hhi ⊢
  unfold key at hlow hhigh
  split_ifs at hlow hhigh <;> omega

theorem UpTo.of_inRange {k : Nat} {v hi : F32} (h : Machine.inRange Config.f0 hi v) (hhi : UpTo k hi) : UpTo k v := by
  have hfin := isFinite_of_inRange h hhi.finite
  refine ⟨hfin, ?_, ((ge_iff_val hhi.finite hfin).1 h.2).trans hhi.le⟩
  rw [← val_f0]
  exact (ge_iff_val hfin isFinite_f0).1 h.1

theorem UpTo.ge_f0 {k : Nat} {v : F32} (h : UpTo k v) : ge v Config.f0 = true :=
  (ge_iff_val h.finite isFinite_f0).2 (by rw [val_f0]; exact h.nonneg)

theorem upTo_fRateMax : UpTo 18 Config.fRateMax := by
  have h := upTo_ofNat (n := 2 ^ 18) (k := 18) le_rfl (by decide)
  rwa [show ofNat (2 ^ 18) = Config.fRateMax by decide] at h

theorem upTo_fTwoPi : UpTo 3 Config.fTwoPi :=
  .of_inRange (hi := ofNat 8) (by unfold Machine.inRange; decide) (upTo_ofNat (by decide) (by decide))

end Sys2Proof.F32
end

section
/-! The phase registers (R36) and R39 (d). -/

namespace Sys2Proof.Machine

/-- A range within a range (R26). -/
theorem inRange.mono {lo hi lo' hi' v : F32} (h : inRange lo hi v) (hlo : F32.ge lo lo' = true)
    (hhi : F32.ge hi' hi = true) : inRange lo' hi' v := by
  obtain ⟨⟨hv, -, h1⟩, ⟨-, -, h2⟩⟩ := h.imp F32.ge_iff.1 F32.ge_iff.1
  obtain ⟨-, hl, h3⟩ := F32.ge_iff.1 hlo
  obtain ⟨hh, -, h4⟩ := F32.ge_iff.1 hhi
  exact ⟨F32.ge_iff.2 ⟨hv, hl, h3.trans h1⟩, F32.ge_iff.2 ⟨hh, hv, h2.trans h4⟩⟩

theorem phaseOk.upTo {v : F32} (h : phaseOk v) : F32.UpTo 3 v := by
  obtain ⟨hv, ht, hlt⟩ := F32.lt_iff.1 h.2
  exact .of_inRange ⟨h.1, F32.ge_iff.2 ⟨ht, hv, hlt.le⟩⟩ F32.upTo_fTwoPi

/-- An LFO step of a prepared hardware leaves the phase in its range: the sum before the wrap is finite and not below
0 (R210, R213). -/
theorem phaseOk_lfoNext {fs : W32} {ph rate : F32} {n : Nat} (hfs : 1 ≤ fs.toNat ∧ fs.toNat ≤ Config.fsMax)
    (hph : phaseOk ph) (hrate : inRange Config.f0 Config.fRateMax rate) (hn : n ≤ 2 ^ 16) :
    phaseOk (lfoNext fs ph rate n) := by
  obtain ⟨hfin, hval⟩ := F32.ofNat_exact (n := fs.toNat) (hfs.2.trans (by decide))
  have hinc : F32.UpTo 21 (lfoInc fs rate) :=
    (F32.upTo_fTwoPi.mul (.of_inRange hrate F32.upTo_fRateMax) (by decide)).div hfin
      (by rw [hval]; exact_mod_cast hfs.1) (by decide)
  have hstep : F32.UpTo 37 (F32.mul (F32.ofNat n) (lfoInc fs rate)) :=
    (F32.upTo_ofNat hn (by decide)).mul hinc (by decide)
  have hsum := (hph.upTo.mono (by decide)).add hstep (by decide)
  exact F32.phaseOk_wrap hsum.finite hsum.ge_f0

theorem State.sizedOk.fs_range {s : State} (h : s.sizedOk) (hlife : s.life ≠ .unprep) :
    1 ≤ s.fs.toNat ∧ s.fs.toNat ≤ Config.fsMax :=
  (h hlife).imp_right And.left

theorem rateOk_inRange {v : F32} (h : rateOk v = true) : inRange Config.f0 Config.fRateMax v := by
  simp only [rateOk, Bool.and_eq_true] at h
  exact ⟨h.1.2, h.2⟩

theorem blockReg_cph (s : State) (c : Lane) (n : BitVec 16) (first : Bool) :
    (s.blockReg c n first).cph = (s.ch[c]).cph := by
  cases first <;> rfl

/-- The chorus phase of a lane after any effect: the rate of `LFO_STEP` is checked, that of `SAMPLE` is a clamped
parameter. -/
theorem LaneStep.phaseOk {i : Instr} {s : State} {c : Lane} {l : Chan} (h : LaneStep i s c l) (hsized : s.sizedOk)
    (hsnap : s.snapOk) (hs : phaseOk (s.ch[c]).cph) : phaseOk l.cph := by
  cases h with
  | keep | rampSet c q t | rampAdv c q n => exact hs
  | phase c id n hprep hrate =>
    exact phaseOk_lfoNext (hsized.fs_range (prepared_iff.1 hprep)) hs (rateOk_inRange hrate) n.isLt.le
  | sample c x out hlife =>
    rw [sampleFront_ch]
    exact phaseOk_lfoNext (hsized.fs_range (by rw [hlife]; decide)) hs
      ((hsnap hlife).chorusRate.mono (by decide) (by decide)) (by decide)
  | block c n => rw [blockReg_cph]; exact hs
  | prepare m fs => exact phaseOk_zero

/-- The reverb phase after any effect. -/
theorem Moves.rph_ok {i : Instr} {s t : State} (h : Moves i s t) (hsized : s.sizedOk) (hs : phaseOk s.rph) :
    phaseOk t.rph := by
  cases h with
  | phase id n hprep hrate =>
    cases id with
    | chorusLeft | chorusRight => exact hs
    | reverb => exact phaseOk_lfoNext (hsized.fs_range (prepared_iff.1 hprep)) hs (rateOk_inRange hrate) n.isLt.le
  | tap c j u => rw [tapStep_frame]; exact hs
  | taps c u => rw [rvSum_frame]; exact hs
  | sample c x => rw [sampleStep_frame]; exact hs
  | block n hprep =>
    rw [blockAll_frame]
    exact phaseOk_lfoNext (hsized.fs_range (prepared_iff.1 hprep)) hs (by unfold inRange; decide) n.isLt.le
  | prepare m fs => exact phaseOk_zero
  | _ => exact hs

theorem Moves.phasesOk {i : Instr} {s t : State} (h : Moves i s t) (hsized : s.sizedOk) (hsnap : s.snapOk)
    (hs : s.phasesOk) : t.phasesOk
  | .chorusLeft => (h.lane 0).phaseOk hsized hsnap (hs .chorusLeft)
  | .chorusRight => (h.lane 1).phaseOk hsized hsnap (hs .chorusRight)
  | .reverb => h.rph_ok hsized (hs .reverb)

/-- R39 (d) is kept together with (b) and (f), which its proof needs. -/
theorem kept_phasesOk : Kept fun s => s.sizedOk ∧ s.snapOk ∧ s.phasesOk where
  reset s rest := ⟨kept_sizedOk.reset s rest, kept_snapOk.reset s rest, fun id => by
    cases id with
    | chorusLeft | chorusRight | reverb => exact phaseOk_zero⟩
  accept _ _ _ h := h
  respond _ _ _ h := h
  refuse _ _ h := h
  moves i s t h := fun ⟨hsized, hsnap, hs⟩ =>
    ⟨kept_sizedOk.moves i s t h hsized, kept_snapOk.moves i s t h hsnap, h.phasesOk hsized hsnap hs⟩

/-- Settles O55: a phase is kept, cleared, or wrapped after a step of a checked rate. -/
theorem stepKeepsPhases : Obligations.StepKeepsPhases := fun _ _ hsized hsnap hs h =>
  (kept_phasesOk.step h ⟨hsized, hsnap, hs⟩).2.2

end Sys2Proof.Machine
end

section
/-! `STATUS` (R28), the status map (R29), the reset values (R40) and the step on a command word (R60). -/

namespace Sys2Proof.Machine

/-! ## `STATUS` -/

/-- `STATUS` as a number: nothing is lost in 32 bits. -/
theorem status_toNat (s : State) :
    s.status.toNat = s.life.code + 0x100 * s.err.illegal.toNat + 0x200 * s.err.state.toNat
      + 0x400 * s.err.config.toNat + 0x800 * s.err.range.toNat := by
  have hlife : s.life.code ≤ 2 := by cases s.life <;> decide
  have h1 := s.err.illegal.toNat_le
  have h2 := s.err.state.toNat_le
  have h3 := s.err.config.toNat_le
  have h4 := s.err.range.toNat_le
  rw [State.status, BitVec.toNat_ofNat]
  omega

/-- A bit of a word, read from its number. -/
theorem getLsbD_eq_of_div {w : W32} {k : Nat} {b : Bool} (h : w.toNat / 2 ^ k % 2 = b.toNat) : w.getLsbD k = b := by
  rw [BitVec.getLsbD, Nat.testBit_eq_decide_div_mod_eq, h]
  cases b <;> rfl

/-- A field of a word, read from its number. -/
theorem toNat_extract (w : W32) (k n : Nat) : (w.extractLsb' k n).toNat = w.toNat / 2 ^ k % 2 ^ n := by
  rw [BitVec.extractLsb'_toNat, Nat.shiftRight_eq_div_pow]

theorem extract_eq_zero {w : W32} {k n : Nat} (h : w.toNat / 2 ^ k % 2 ^ n = 0) : w.extractLsb' k n = 0 :=
  BitVec.eq_of_toNat_eq ((toNat_extract w k n).trans h)

/-- Settles O22: every field by the number that `STATUS` is. -/
theorem statusWordLayout : Obligations.StatusWordLayout := by
  intro s
  have hn := status_toNat s
  have hlife : s.life.code ≤ 2 := by cases s.life <;> decide
  have h1 := s.err.illegal.toNat_le
  have h2 := s.err.state.toNat_le
  have h3 := s.err.config.toNat_le
  have h4 := s.err.range.toNat_le
  refine ⟨?life, extract_eq_zero ?low, getLsbD_eq_of_div ?illegal, getLsbD_eq_of_div ?state,
    getLsbD_eq_of_div ?config, getLsbD_eq_of_div ?range, extract_eq_zero ?high⟩
  case life =>
    have hcode : (s.status.extractLsb' 0 2).toNat = s.life.code := by rw [toNat_extract, hn]; omega
    rw [hcode]
    cases s.life <;> rfl
  case low | illegal | state | config | range | high => rw [hn]; omega

/-! ## The status map -/

/-- `RDSTAT` at an index of the map (R126). -/
theorem rdstat_of_item {s : State} {idx : BitVec 16} {v : W32} (h : s.statusItem idx = some v) :
    exec (.rdstat idx) s = .next (s.respond .ok v) := by
  rw [exec, execRdstat, h]
  rfl

section
variable (s : State)

/-- An index of the map as a number. -/
theorem toNat_idx {n : Nat} (h : n < 2 ^ 16) : (BitVec.ofNat 16 n).toNat = n := by
  rw [BitVec.toNat_ofNat, Nat.mod_eq_of_lt h]

theorem statusItem_global (j : Fin 10) : s.statusItem (BitVec.ofNat 16 (0x00 + j.val)) = some (s.globalItem j) := by
  simp (disch := omega) only [State.statusItem, toNat_idx, within_add, Fin.eta]

theorem statusItem_pkIn (c : Lane) : s.statusItem (BitVec.ofNat 16 (0x10 + c.val)) = some (s.ch[c]).pkIn := by
  simp (disch := omega) only [State.statusItem, toNat_idx, within_of_not, within_add, Fin.eta]

theorem statusItem_pkOut (c : Lane) : s.statusItem (BitVec.ofNat 16 (0x12 + c.val)) = some (s.ch[c]).pkOut := by
  simp (disch := omega) only [State.statusItem, toNat_idx, within_of_not, within_add, Fin.eta]

theorem statusItem_cap (r : RingId) : s.statusItem (BitVec.ofNat 16 (0x20 + r.val)) = some (s.rb[r]).cap := by
  simp (disch := omega) only [State.statusItem, toNat_idx, within_of_not, within_add, Fin.eta]

theorem statusItem_widx (r : RingId) : s.statusItem (BitVec.ofNat 16 (0x40 + r.val)) = some (s.rb[r]).widx := by
  simp (disch := omega) only [State.statusItem, toNat_idx, within_of_not, within_add, Fin.eta]

theorem statusItem_interp (r : RingId) :
    s.statusItem (BitVec.ofNat 16 (0x60 + r.val)) = some (flag (s.rb[r]).interp) := by
  simp (disch := omega) only [State.statusItem, toNat_idx, within_of_not, within_add, Fin.eta]

theorem statusItem_dl (r : RingId) : s.statusItem (BitVec.ofNat 16 (0x80 + r.val)) = some s.dl[r] := by
  simp (disch := omega) only [State.statusItem, toNat_idx, within_of_not, within_add, Fin.eta]

/-- The block of a lane. -/
theorem statusItem_lane (c : Lane) {j : Nat} (h : j < 0x80) :
    s.statusItem (BitVec.ofNat 16 (0x100 + 0x80 * c.val + j)) = (s.ch[c]).statItem j := by
  rcases lane_cases c with rfl | rfl
  · have hidx : 0x100 + 0x80 * (0 : Lane).val + j = 0x100 + j := rfl
    simp (disch := omega) only [hidx, State.statusItem, toNat_idx, within_of_not, within_add]
    rfl
  · have hidx : 0x100 + 0x80 * (1 : Lane).val + j = 0x180 + j := rfl
    simp (disch := omega) only [hidx, State.statusItem, toNat_idx, within_of_not, within_add]
    rfl

end

section
variable (l : Chan)

theorem statItem_reg (k : Fin 12) : l.statItem (0x00 + k.val) = some (l.item k) := by
  simp (disch := omega) only [Chan.statItem, within_add, Fin.eta]

theorem statItem_cur (q : RampId) : l.statItem (0x10 + q.val) = some (l.ramp[q]).cur := by
  simp (disch := omega) only [Chan.statItem, within_of_not, within_add, Fin.eta]

theorem statItem_tgt (q : RampId) : l.statItem (0x20 + q.val) = some (l.ramp[q]).tgt := by
  simp (disch := omega) only [Chan.statItem, within_of_not, within_add, Fin.eta]

theorem statItem_cnt (q : RampId) : l.statItem (0x30 + q.val) = some (l.ramp[q]).cnt := by
  simp (disch := omega) only [Chan.statItem, within_of_not, within_add, Fin.eta]

theorem statItem_step (q : RampId) : l.statItem (0x40 + q.val) = some (l.ramp[q]).step := by
  simp (disch := omega) only [Chan.statItem, within_of_not, within_add, Fin.eta, Option.map_some]

end

/-- `RDSTAT` of a register of a lane block. -/
theorem rdstat_lane {s : State} {c : Lane} {j : Nat} {v : W32} (hj : j < 0x80) (h : (s.ch[c]).statItem j = some v) :
    exec (.rdstat (BitVec.ofNat 16 (0x100 + 0x80 * c.val + j))) s = .next (s.respond .ok v) :=
  rdstat_of_item ((statusItem_lane s c hj).trans h)

/-- Settles O23: each index by the lemma on its group of the map. -/
theorem statusMapReadsEachRegister : Obligations.StatusMapReadsEachRegister := by
  intro s
  have item (j : Fin 10) := rdstat_of_item (statusItem_global s j)
  refine ⟨item 0, item 1, item 2, item 3, item 4, item 5, item 6, item 7, item 8, item 9,
    fun r => ?ring, fun c => ⟨?pkIn, ?pkOut, ?block⟩⟩
  case ring =>
    exact ⟨rdstat_of_item (statusItem_cap s r), rdstat_of_item (statusItem_widx s r),
      rdstat_of_item (statusItem_interp s r), rdstat_of_item (statusItem_dl s r)⟩
  case pkIn => exact rdstat_of_item (statusItem_pkIn s c)
  case pkOut => exact rdstat_of_item (statusItem_pkOut s c)
  case block =>
    have reg (k : Fin 12) := rdstat_lane (s := s) (c := c) (j := 0x00 + k.val) (by omega) (statItem_reg _ k)
    refine ⟨reg 0, reg 1, reg 2, reg 3, reg 4, reg 5, reg 6, reg 7, reg 8, reg 9, reg 10, reg 11, fun q => ?_⟩
    simp only [Nat.add_assoc (0x100 + 0x80 * c.val)]
    exact ⟨rdstat_lane (by omega) (statItem_cur _ q), rdstat_lane (by omega) (statItem_tgt _ q),
      rdstat_lane (by omega) (statItem_cnt _ q), rdstat_lane (by omega) (statItem_step _ q)⟩

/-! ## Reset and the step -/

theorem reset_stage (b : StageId) : State.reset.bq[b] = Biquad.reset := Vector.getElem_replicate b.isLt

theorem reset_dl (r : RingId) : State.reset.dl[r] = 0 := Vector.getElem_replicate r.isLt

/-- Settles O10: register by register, the vectors by the lemmas on their elements. -/
theorem resetStateHoldsTheStatedValues : Obligations.ResetStateHoldsTheStatedValues := by
  refine ⟨rfl, rfl, rfl, rfl, rfl, rfl, rfl, rfl, rfl, fun k => Vector.getElem_replicate k.isLt, rfl,
    fun p => Vector.getElem_replicate p.isLt, rfl, rfl, fun r => ?rings, fun b => ?stages, fun c => ?lanes⟩
  case rings => rw [reset_rb, reset_dl]; exact ⟨rfl, rfl, rfl, rfl⟩
  case stages => rw [reset_stage]; exact ⟨rfl, rfl, rfl, rfl, rfl, rfl, rfl, rfl, rfl⟩
  case lanes =>
    rw [reset_ch]
    exact ⟨rfl, rfl, rfl, rfl, rfl, rfl, rfl, rfl, rfl, rfl, rfl, rfl, rfl, rfl, reset_ramp⟩

/-- A step with a word pending on the CMD port decodes it and carries it out (R60, R80). -/
theorem step_cmd {s : State} {w : W64} {rest : List Event} (h : s.input = .cmd w :: rest) :
    step s = runWord (decode w) (s.accept .cmd rest) := by
  rw [step, h]

/-- Settles O8: a decoded word is carried out on the state that has accepted it. -/
theorem stepRunsTheDecodedCommand : Obligations.StepRunsTheDecodedCommand := by
  intro s w rest i hin hdecode
  rw [step_cmd hin, hdecode]
  rfl

end Sys2Proof.Machine
end

section
/-! The memory model's two claims on the lane commands: `SAMPLE`, `TAP_STEP` and `RV_STEP` stay in their lane (R54,
R114), and `SAMPLE` stores one word in each ring of its lane (R54, R57). -/

namespace Sys2Proof.Machine

/-! ## The lane commands stay in their lane -/

theorem OnlyLane.refl (c : Lane) (s : State) : OnlyLane c s s :=
  ⟨rfl, fun _ _ => rfl, fun _ _ => rfl, fun _ _ => rfl, fun _ _ => rfl⟩

/-- A response and a sticky bit are outside the lanes: giving them to both states keeps the frame. -/
theorem OnlyLane.responded {c : Lane} {s u : State} (h : OnlyLane c s u) (e : Err) (l : List Reply) :
    OnlyLane c { s with err := e, log := l } { u with err := e, log := l } where
  globals := by rw [h.globals]
  rings := h.rings
  lines := h.lines
  stages := h.stages
  chan := h.chan

/-- A run of taps of a lane touches only that lane. -/
theorem onlyLane_tapsRun (s : State) (c : Lane) (u : F32) (is : List TapId) (acc : F32) :
    OnlyLane c s (s.tapsRun c u is acc).1 where
  globals := by rw [tapsRun_frame]
  rings r h := ((tapsRun_of_notMem c u s acc).1 r fun i _ => (ring_other c r h).2 i).1
  lines r h := ((tapsRun_of_notMem c u s acc).1 r fun i _ => (ring_other c r h).2 i).2
  stages b h := by
    obtain ⟨-, -, -, hb⟩ := stage_other c b h
    exact (tapsRun_of_notMem c u s acc).2 b fun i _ => hb i
  chan c' _ := by rw [tapsRun_frame]

theorem tapsRun_nil (s : State) (c : Lane) (u : F32) (acc : F32) : s.tapsRun c u [] acc = (s, acc) := (rfl)

/-- `TAP_STEP` touches only its lane: it is the run of one tap. -/
theorem onlyLane_tapStep (s : State) (c : Lane) (i : TapId) (u : F32) : OnlyLane c s (s.tapStep c i u).1 := by
  have h := onlyLane_tapsRun s c u [i] Config.f0
  rwa [tapsRun_cons, tapsRun_nil] at h

/-- `RV_STEP` touches only its lane: it is the run of all ten taps. -/
theorem onlyLane_rvSum (s : State) (c : Lane) (u : F32) : OnlyLane c s (s.rvSum c u).1 := by
  rw [rvSum_eq_tapsRun]
  exact onlyLane_tapsRun s c u taps Config.f0

/-- Settles O19: a lane command answers its effect, which stays in the lane, or is refused and leaves the state it
found. -/
theorem laneCommandsTouchOnlyTheirLane : Obligations.LaneCommandsTouchOnlyTheirLane := by
  intro c s t i hi hexec
  have hmoves : OnlyLane c s (effect i s).1 ∧ refusalBase i s = s := by
    rcases hi with ⟨x, rfl⟩ | ⟨k, u, rfl⟩ | ⟨u, rfl⟩
    · exact ⟨onlyLane_sampleStep s c x, rfl⟩
    · exact ⟨onlyLane_tapStep s c k u, rfl⟩
    · exact ⟨onlyLane_rvSum s c u, rfl⟩
  obtain ⟨heffect, hbase⟩ := hmoves
  rcases exec_next hexec with ⟨-, rfl⟩ | ⟨e, -, rfl⟩
  · exact heffect.responded _ _
  · rw [hbase]
    exact (OnlyLane.refl c s).responded _ _

/-! ## What a write does to a ring (R53, R143) -/

/-- The mask advances the write index by one modulo the capacity, which is a power of two. -/
theorem Ring.write_widx_toNat {g : Ring} (h : g.Ok) (hcap : g.cap ≠ 0) (v : W32) :
    (g.write v).widx.toNat = (g.widx.toNat + 1) % g.cap.toNat := by
  obtain ⟨k, hk⟩ := h.capPow2.resolve_left hcap
  have hlt := h.widxBelow hcap
  have hsucc : (g.widx + 1).toNat = g.widx.toNat + 1 := by bv_omega
  have hmask : (g.cap - 1).toNat = 2 ^ k.val - 1 := by bv_omega
  calc ((g.widx + 1) &&& (g.cap - 1)).toNat
      = (g.widx.toNat + 1) &&& (2 ^ k.val - 1) := by rw [BitVec.toNat_and, hsucc, hmask]
    _ = (g.widx.toNat + 1) % g.cap.toNat := by rw [Nat.and_two_pow_sub_one_eq_mod, hk]

/-- A word of a ring after a write: the word written at the old write index, the old word elsewhere. -/
theorem Ring.memRead_write_mem {g : Ring} (h : g.Ok) (v : W32) (i : Nat) :
    memRead (g.write v).mem i = if i = g.widx.toNat then v else memRead g.mem i :=
  memRead_write h.canonical _ _ _

/-! ## `SAMPLE` stores one word per ring of its lane -/

/-- A prepared machine has every ring allocated (R39 (b)). -/
theorem State.sizedOk.cap_ne_zero {s : State} (h : s.sizedOk) (hlife : s.life ≠ .unprep) (r : RingId) :
    (s.rb[r]).cap ≠ 0 := by
  obtain ⟨hfs, -, -, hcap⟩ := h hlife
  have hpow := le_nextPow2 (2 * s.fs.toNat)
  intro h0
  have hzero : (s.rb[r]).cap.toNat = 0 := congrArg BitVec.toNat h0
  rw [hcap] at hzero
  omega

/-- `SAMPLE` of a finite value passes its checks in the running state (R256, R258). -/
theorem verdict_sample {c : Lane} {x : F32} {s : State} (hsized : s.sizedOk) (hlife : s.life = .run)
    (hx : F32.isFinite x = true) : verdict (.sample c x) s = none := by
  have hprep : s.life ≠ .unprep := by rw [hlife]; decide
  have halloc : s.laneAllocated c = true :=
    laneAllocated_iff.2 ⟨hsized.cap_ne_zero hprep _, fun j => hsized.cap_ne_zero hprep _⟩
  simp [verdict, hlife, halloc, hx]

/-- Each ring of the lane is written once, the main line by `dl_write` and each tap line by its own tap. -/
theorem sampleStep_writes_ring (s : State) {c : Lane} (x : F32) {r : RingId} (hr : r.val / 11 = c.val) :
    ∃ v, (s.sampleStep c x).1.rb[r] = (s.rb[r]).write v := by
  rcases ring_cases c r hr with rfl | ⟨j, rfl⟩
  · rw [((sampleStep_rest s c x).1 _ fun j => (mainRing_ne_tapRing c c j).symm).1, sampleMid_rb, if_pos rfl]
    exact ⟨_, rfl⟩
  · exact ⟨_, (sampleStep_tap s c x j).2.1⟩

/-- Settles O33: a ring of the lane is one `rb_write` ahead, a ring of the other lane is untouched. -/
theorem sampleStoresOneWordPerRing : Obligations.SampleStoresOneWordPerRing := by
  intro c x s hrings hsized hlife hx
  have hexec : exec (.sample c x) s = .next ((s.sampleStep c x).1.respond .ok (s.sampleStep c x).2) := by
    rw [exec_eq, after, verdict_sample hsized hlife hx]; rfl
  refine ⟨_, hexec, fun r => ?_⟩
  simp only [State.word, State.respond_rb]
  have hcap : (s.rb[r]).cap ≠ 0 := hsized.cap_ne_zero (by rw [hlife]; decide) r
  by_cases hr : r.val / 11 = c.val
  · obtain ⟨v, hwrite⟩ := sampleStep_writes_ring s x hr
    rw [hwrite]
    refine ⟨fun _ => Ring.write_widx_toNat (hrings r) hcap v, fun h => absurd hr h, fun i hi => ?_⟩
    rw [Ring.memRead_write_mem (hrings r), if_neg (hi.resolve_left (not_not.2 hr))]
  · rw [(rings_other s c x r hr).1]
    exact ⟨fun h => absurd h hr, fun _ => rfl, fun _ _ => rfl⟩

end Sys2Proof.Machine
end

section
/-! Encoding and decoding: each undoes the other (R70 to R78), and the table rows (R79). -/

namespace Sys2Proof

open Laws.OpcodeField (opcode)

/-! ## The fields of a word -/

/-- A composed word is `w` when each of its fields is `w`'s. -/
theorem mkWord_eq_iff {o s : BitVec 8} {x : BitVec 16} {m : W32} {w : W64} :
    mkWord o s x m = w ↔ o = opcOf w ∧ s = selOf w ∧ x = idxOf w ∧ m = immOf w := by
  constructor
  · rintro rfl; simp
  · rintro ⟨rfl, rfl, rfl, rfl⟩; exact mkWord_fields w

/-- The encoding of every command carries its opcode (R70, R73). -/
@[simp] theorem opcOf_encode (i : Instr) : opcOf (encode i) = opcode i := by
  cases i <;> exact opcOf_mkWord ..

/-! ## Selectors: a field that is read as a selector is that selector's field (R74) -/

theorem sel8_eq {n : Nat} {v : Fin n} {x : BitVec 8} (h : toFin? n x.toNat = some v) : sel8 v = x := by
  rw [sel8, ← toFin?_eq_some h, BitVec.ofNat_toNat, BitVec.setWidth_eq]

theorem idx16_eq {n : Nat} {v : Fin n} {x : BitVec 16} (h : toFin? n x.toNat = some v) : idx16 v = x := by
  rw [idx16, ← toFin?_eq_some h, BitVec.ofNat_toNat, BitVec.setWidth_eq]

theorem lfoId_code_eq {l : LfoId} {x : BitVec 8} (h : lfoId? x.toNat = some l) : l.code = x := by
  unfold lfoId? at h
  split at h <;> cases h <;> exact BitVec.eq_of_toNat_eq (Eq.symm ‹_›)

theorem paramSpace_code_eq {p : ParamSpace} {x : BitVec 8} (h : paramSpace? x.toNat = some p) : p.code = x := by
  unfold paramSpace? at h
  split at h <;> cases h <;> exact BitVec.eq_of_toNat_eq (Eq.symm ‹_›)

theorem bqType_code_eq {t : BqType} {x : BitVec 16} (h : bqType? x.toNat = some t) : t.code = x := by
  unfold bqType? at h
  split at h <;> cases h <;> exact BitVec.eq_of_toNat_eq (Eq.symm ‹_›)

theorem bqField_code_eq {f : BqField} {x : BitVec 16} (h : bqField? x.toNat = some f) : f.code = x := by
  unfold bqField? at h
  split at h <;> cases h <;> exact BitVec.eq_of_toNat_eq (Eq.symm ‹_›)

/-- The flag operand is the whole immediate once its upper bits are zero (R75). -/
theorem flagWord_eq {m : W32} (h : m >>> 1 = 0) : flagWord (m.getLsbD 0) = m := by
  have hm : m.toNat / 2 = 0 := by simpa [Nat.shiftRight_eq_div_pow] using congrArg BitVec.toNat h
  have hlt : m.toNat < 2 := by omega
  apply BitVec.eq_of_toNat_eq
  interval_cases hn : m.toNat <;> simp [flagWord, BitVec.getLsbD, hn]

/-- The lowest bit of a flag operand is the flag (R75). -/
@[simp] theorem flagWord_getElem (on : Bool) : (flagWord on)[0] = on := by cases on <;> rfl

/-- A flag operand has no bit above its lowest. -/
@[simp] theorem flagWord_shiftRight (on : Bool) : flagWord on >>> 1 = 0 := by cases on <;> rfl

/-! ## What the checked decoder accepts, by the number of its selectors -/

@[simp] theorem checked_some (i : Instr) : checked true (some i) = .ok i := rfl

section
variable {α β : Type} {b : Bool} {i : Instr}

theorem checked_map_eq_ok {o : Option α} {f : α → Instr} (h : checked b (o.map f) = .ok i) :
    b = true ∧ ∃ v, o = some v ∧ i = f v := by
  obtain ⟨hb, ho⟩ := checked_eq_ok h
  obtain ⟨v, hv, rfl⟩ := Option.map_eq_some_iff.1 ho
  exact ⟨hb, v, hv, rfl⟩

theorem checked_bind_map_eq_ok {o : Option α} {p : Option β} {f : α → β → Instr}
    (h : checked b (o.bind fun u => p.map fun v => f u v) = .ok i) :
    b = true ∧ ∃ u v, o = some u ∧ p = some v ∧ i = f u v := by
  obtain ⟨hb, ho⟩ := checked_eq_ok h
  obtain ⟨u, hu, hm⟩ := Option.bind_eq_some_iff.1 ho
  obtain ⟨v, hv, rfl⟩ := Option.map_eq_some_iff.1 hm
  exact ⟨hb, u, v, hu, hv, rfl⟩

end

/-- Settles O1: each field of the word is read back, each selector from its code; a status index passes the map check
that well-formedness is. -/
theorem decodeOfEncodeIsTheCommand : Obligations.DecodeOfEncodeIsTheCommand := by
  intro i hwf
  cases i with
  | rdstat idx =>
    have hmap : inStatusMap idx = true := hwf
    simp [encode, decode, hmap]
  | _ => simp [encode, decode]

/-- A word with these fields: its opcode as the decoder matches it, as a number. -/
theorem mkWord_eq {o s : BitVec 8} {x : BitVec 16} {m : W32} {w : W64} (ho : (opcOf w).toNat = o.toNat)
    (hs : s = selOf w) (hx : x = idxOf w) (hm : m = immOf w) : mkWord o s x m = w :=
  mkWord_eq_iff.2 ⟨BitVec.eq_of_toNat_eq ho.symm, hs, hx, hm⟩

/-- Settles O2: each opcode's arm fixes the fields it does not use at zero, and a field it reads as a selector is that
selector's code. -/
theorem decodedWordIsItsEncoding : Obligations.DecodedWordIsItsEncoding := by
  intro w i h
  unfold decode at h
  dsimp only at h
  split at h <;> rename_i ho
  -- no selector: NOP, PREPARE, RELEASE, BLOCK, SM_ONEPOLE, SM_COEFF, MIX, MIXADD
  case h_1 | h_2 | h_3 | h_4 | h_19 | h_20 | h_30 | h_31 =>
    obtain ⟨hz, hi⟩ := checked_eq_ok h
    cases hi
    exact ⟨rfl, mkWord_eq ho (by simp_all) (by simp_all) (by simp_all)⟩
  -- a selector in `sel`: SAMPLE, RB_CREATE, RB_WRITE, RB_READI, RB_READF, DL_SETTIME, DL_READ, DL_WRITE, BQ_STEP,
  -- BQ_RESET, RV_STEP
  case h_5 | h_11 | h_12 | h_13 | h_14 | h_16 | h_17 | h_18 | h_25 | h_26 | h_33 =>
    obtain ⟨hz, v, hv, rfl⟩ := checked_map_eq_ok h
    exact ⟨rfl, mkWord_eq ho (sel8_eq hv) (by simp_all) (by simp_all)⟩
  -- a selector in `idx`: WRPARAM, LDARG, RDARG
  case h_6 | h_9 | h_10 =>
    obtain ⟨hz, v, hv, rfl⟩ := checked_map_eq_ok h
    exact ⟨rfl, mkWord_eq ho (by simp_all) (idx16_eq hv) (by simp_all)⟩
  -- a selector in each: RAMP_SET, RAMP_ADV, RAMP_RD, TAP_STEP
  case h_21 | h_22 | h_23 | h_32 =>
    obtain ⟨hz, u, v, hu, hv, rfl⟩ := checked_bind_map_eq_ok h
    exact ⟨rfl, mkWord_eq ho (sel8_eq hu) (idx16_eq hv) (by simp_all)⟩
  case h_7 => -- RDPARAM
    obtain ⟨hz, u, v, hu, hv, rfl⟩ := checked_bind_map_eq_ok h
    exact ⟨rfl, mkWord_eq ho (paramSpace_code_eq hu) (idx16_eq hv) (by simp_all)⟩
  case h_8 => -- RDSTAT
    obtain ⟨hz, hi⟩ := checked_eq_ok h
    obtain ⟨hmap, hi⟩ := Option.ite_none_right_eq_some.1 hi
    cases hi
    exact ⟨hmap, mkWord_eq ho (by simp_all) rfl (by simp_all)⟩
  case h_15 => -- RB_INTERP
    obtain ⟨hz, v, hv, rfl⟩ := checked_map_eq_ok h
    obtain ⟨hx, hm⟩ := Bool.and_eq_true_iff.1 hz
    exact ⟨rfl, mkWord_eq ho (sel8_eq hv) (by simp_all) (flagWord_eq (eq_of_beq hm))⟩
  case h_24 => -- BQ_COEF
    obtain ⟨hz, u, v, hu, hv, rfl⟩ := checked_bind_map_eq_ok h
    exact ⟨rfl, mkWord_eq ho (sel8_eq hu) (bqType_code_eq hv) (by simp_all)⟩
  case h_27 => -- BQ_RD
    obtain ⟨hz, u, v, hu, hv, rfl⟩ := checked_bind_map_eq_ok h
    exact ⟨rfl, mkWord_eq ho (sel8_eq hu) (bqField_code_eq hv) (by simp_all)⟩
  case h_28 | h_29 => -- LFO_STEP, LFO_RD
    obtain ⟨hz, v, hv, rfl⟩ := checked_map_eq_ok h
    exact ⟨rfl, mkWord_eq ho (lfoId_code_eq hv) (by simp_all) (by simp_all)⟩
  case h_34 => cases h
/-! ## Table rows (R79): all fixed bits, field by field -/

section
variable (v w : W64)

@[simp] theorem opcOf_and : opcOf (v &&& w) = opcOf v &&& opcOf w := BitVec.extractLsb'_and ..
@[simp] theorem selOf_and : selOf (v &&& w) = selOf v &&& selOf w := BitVec.extractLsb'_and ..
@[simp] theorem idxOf_and : idxOf (v &&& w) = idxOf v &&& idxOf w := BitVec.extractLsb'_and ..
@[simp] theorem immOf_and : immOf (v &&& w) = immOf v &&& immOf w := BitVec.extractLsb'_and ..

end

/-- Two words with the same fields are the same word. -/
theorem word_ext {v w : W64} (ho : opcOf v = opcOf w) (hs : selOf v = selOf w) (hx : idxOf v = idxOf w)
    (hm : immOf v = immOf w) : v = w := by
  rw [← mkWord_fields v, ho, hs, hx, hm, mkWord_fields]

/-- Every row fixes all eight bits of the opcode. -/
theorem opcOf_rowOf_mask (i : Instr) : opcOf (rowOf i).1 = 0xFF := by cases i <;> simp [rowOf, opcOf]

theorem opcOf_rowOf_match (i : Instr) : opcOf (rowOf i).2 = opcode i := by
  cases i <;> simp [rowOf, opcOf, opcode]

/-- A word in a row has the row's opcode. -/
theorem opcOf_of_row {w : W64} {i : Instr} (h : w &&& (rowOf i).1 = (rowOf i).2) : opcOf w = opcode i := by
  have ho := congrArg opcOf h
  rwa [opcOf_and, opcOf_rowOf_mask, opcOf_rowOf_match, show (0xFF : BitVec 8) = BitVec.allOnes 8 from rfl,
    BitVec.and_allOnes] at ho

/-- The word that is zero but for a command's opcode decodes to a command of the same row: every selector has the
value 0. -/
theorem decode_opcode_only (i : Instr) : (decode (mkWord (opcode i) 0 0 0)).map rowOf = .ok (rowOf i) := by
  cases i <;> simp only [opcode, rowOf] <;> decide

/-- A row of the table is known by its opcode. -/
theorem rowOf_eq_of_opcode {i j : Instr} (h : opcode i = opcode j) : rowOf i = rowOf j := by
  have hij : Except.ok (ε := DecodeError) (rowOf i) = .ok (rowOf j) := by
    rw [← decode_opcode_only i, h, decode_opcode_only j]
  exact Except.ok.inj hij

/-! ## Selectors keep the fixed bits of their row at zero -/

section
variable (n : Nat)

@[simp] theorem opcOf_ofNat : opcOf (BitVec.ofNat 64 n) = BitVec.ofNat 8 ((n % 2 ^ 64) / 2 ^ 56) :=
  BitVec.eq_of_toNat_eq (by simp [opcOf, Nat.shiftRight_eq_div_pow])
@[simp] theorem selOf_ofNat : selOf (BitVec.ofNat 64 n) = BitVec.ofNat 8 ((n % 2 ^ 64) / 2 ^ 48) :=
  BitVec.eq_of_toNat_eq (by simp [selOf, Nat.shiftRight_eq_div_pow])
@[simp] theorem idxOf_ofNat : idxOf (BitVec.ofNat 64 n) = BitVec.ofNat 16 ((n % 2 ^ 64) / 2 ^ 32) :=
  BitVec.eq_of_toNat_eq (by simp [idxOf, Nat.shiftRight_eq_div_pow])
@[simp] theorem immOf_ofNat : immOf (BitVec.ofNat 64 n) = BitVec.ofNat 32 (n % 2 ^ 64) :=
  BitVec.eq_of_toNat_eq (by simp [immOf])

end

/-- A value below `2 ^ k` has no bit from `k` up. -/
theorem and_shiftLeft_eq_zero {n k : Nat} {x : BitVec n} (h : x.toNat < 2 ^ k) (y : BitVec n) : x &&& y <<< k = 0 := by
  apply BitVec.eq_of_getLsbD_eq
  intro j hj
  by_cases hk : j < k
  · simp [hk]
  · have hbit : x.getLsbD j = false :=
      Nat.testBit_lt_two_pow (h.trans_le (Nat.pow_le_pow_right (by decide) (not_lt.1 hk)))
    simp [hbit]

@[simp] theorem sel8_lane_and (c : Lane) : sel8 c &&& 0xFE#8 = 0 := by revert c; decide
@[simp] theorem sel8_ring_and (r : RingId) : sel8 r &&& 0xE0#8 = 0 := by revert r; decide
@[simp] theorem sel8_stage_and (b : StageId) : sel8 b &&& 0x80#8 = 0 := by revert b; decide
@[simp] theorem idx16_param_and (p : ParamId) : idx16 p &&& 0xFFF0#16 = 0 := by revert p; decide
@[simp] theorem idx16_arg_and (k : ArgId) : idx16 k &&& 0xFFFC#16 = 0 := by revert k; decide
@[simp] theorem idx16_ramp_and (q : RampId) : idx16 q &&& 0xFFF0#16 = 0 := by revert q; decide
@[simp] theorem lfoId_code_and (l : LfoId) : l.code &&& 0xFC#8 = 0 := by cases l <;> rfl
@[simp] theorem paramSpace_code_and (p : ParamSpace) : p.code &&& 0xFE#8 = 0 := by cases p <;> rfl
@[simp] theorem bqType_code_and (t : BqType) : t.code &&& 0xFFFC#16 = 0 := by cases t <;> rfl
@[simp] theorem bqField_code_and (f : BqField) : f.code &&& 0xFFF0#16 = 0 := by cases f <;> rfl
@[simp] theorem flagWord_and (on : Bool) : flagWord on &&& 0xFFFFFFFE#32 = 0 := by cases on <;> rfl

/-- Every status index is below `0x200` (R29). -/
theorem inStatusMap_and {idx : BitVec 16} (h : inStatusMap idx = true) : idx &&& 0xFE00#16 = 0 := by
  have hlt : idx.toNat < 2 ^ 9 := by
    simp [inStatusMap, statusIntervals] at h
    omega
  exact and_shiftLeft_eq_zero hlt 0x7F

/-- A well-formed command's word is in the command's own row. -/
theorem encode_and_mask {i : Instr} (hwf : i.wellFormed = true) : encode i &&& (rowOf i).1 = (rowOf i).2 := by
  cases i with
  | rdstat idx =>
    have hmap : idx &&& 0xFE00#16 = 0 := inStatusMap_and hwf
    apply word_ext <;> simp [encode, rowOf, hmap]
  | _ => apply word_ext <;> simp [encode, rowOf]

/-- A word that decodes is in the row of its command. -/
theorem decode_row {w : W64} {i : Instr} (h : decode w = .ok i) : w &&& (rowOf i).1 = (rowOf i).2 := by
  obtain ⟨hwf, rfl⟩ := decodedWordIsItsEncoding w i h
  exact encode_and_mask hwf

/-- Settles O3: a decoded word is in its own row, and its opcode tells that row from every other. -/
theorem decodedWordSelectsItsTableRow : Obligations.DecodedWordSelectsItsTableRow := by
  refine ⟨fun w i h => ⟨decode_row h, fun j hj => ?_⟩, fun w hnone => ?_⟩
  · exact rowOf_eq_of_opcode ((opcOf_of_row hj).symm.trans (opcOf_of_row (decode_row h)))
  · cases hd : decode w with
    | error e => exact ⟨e, rfl⟩
    | ok i => exact absurd (decode_row hd) (hnone i)

/-! ## The example words (R85) -/

/-- Settles O4: each word is evaluated. -/
theorem exampleWordsDecode : Obligations.ExampleWordsDecode := by
  refine ⟨?_, ?_, ?_, ?_, ?_, ?_, ?_, ?_, ?_, ?_, ?_, ?_, ?_, ?_, ?_, ?_, ?_, ?_⟩ <;> decide

end Sys2Proof
end

section
/-! The words the ports refuse (R74, R77, R78, R84), and the one response of every word (R71, R251). -/

namespace Sys2Proof

open Laws.OpcodeField (opcode)

/-! ## The PAR port (R84) -/

/-- The opcode of a decoded word is its command's. -/
theorem opcOf_of_decode {w : W64} {i : Instr} (h : decode w = .ok i) : opcOf w = opcode i :=
  opcOf_of_row (decode_row h)

/-- The two commands of the PAR port (R84). -/
def Instr.onPar (i : Instr) : Prop := (∃ p v, i = .wrparam p v) ∨ ∃ sp p, i = .rdparam sp p

theorem onPar_iff_opcode {i : Instr} : i.onPar ↔ opcode i = 0x05 ∨ opcode i = 0x06 := by
  cases i <;> simp [Instr.onPar, opcode]

/-- The PAR port decodes what the CMD port does, for its two commands only. -/
theorem decodePar_eq_ok_iff {w : W64} {i : Instr} : decodePar w = .ok i ↔ decode w = .ok i ∧ i.onPar := by
  have hopc : decode w = .ok i → ((opcOf w == 0x05 || opcOf w == 0x06) = true ↔ i.onPar) := fun h => by
    simp [opcOf_of_decode h, onPar_iff_opcode]
  unfold decodePar
  split
  · exact ⟨fun h => ⟨h, (hopc h).1 ‹_›⟩, And.left⟩
  · exact ⟨nofun, fun ⟨h, hpar⟩ => absurd ((hopc h).2 hpar) ‹_›⟩

namespace Machine

/-! ## The step on a command word (R60, R80) -/

/-- A step with a word pending on the PAR port decodes it as that port does and carries it out (R84). -/
theorem step_par {s : State} {w : W64} {rest : List Event} (h : s.input = .par w :: rest) :
    step s = runWord (decodePar w) (s.accept .par rest) := by
  rw [step, h]

/-- A word that reads as no command is refused (R80, R254). -/
theorem runWord_refused {d : Except DecodeError Instr} (h : ∀ i, d ≠ .ok i) (s : State) :
    runWord d s = .next (s.refuse .illegal) := by
  cases d with
  | ok i => exact absurd rfl (h i)
  | error e => rfl

/-- Settles O6: a word that decoded would be the encoding of its command. -/
theorem illegalWordIsRefused : Obligations.IllegalWordIsRefused := by
  intro s w rest hin hnone
  have hillegal : ∀ i, decode w ≠ .ok i := fun i h => by
    obtain ⟨hwf, henc⟩ := decodedWordIsItsEncoding w i h
    exact hnone i hwf henc
  rw [step_cmd hin, runWord_refused hillegal]
  rfl

/-- Settles O5: no command has a reserved opcode. -/
theorem reservedOpcodeIsRefusedIllegal : Obligations.ReservedOpcodeIsRefusedIllegal := by
  intro s w rest hin hres
  refine illegalWordIsRefused s w rest hin fun i _ henc => ?_
  rw [← henc, opcOf_encode] at hres
  cases i <;> simp [opcode] at hres

/-- Settles O7: the port decodes its two commands as CMD does, and a word it decodes is the encoding of one of them. -/
theorem parPortAcceptsOnlyParameterCommands : Obligations.ParPortAcceptsOnlyParameterCommands := by
  intro s w rest hin
  rw [step_par hin]
  refine ⟨fun i hd hpar => ?_, fun hwr hrd => ?_⟩
  · rw [decodePar_eq_ok_iff.2 ⟨hd, hpar⟩]
    rfl
  · have hillegal : ∀ i, decodePar w ≠ .ok i := fun i h => by
      obtain ⟨hd, hpar⟩ := decodePar_eq_ok_iff.1 h
      obtain ⟨-, henc⟩ := decodedWordIsItsEncoding w i hd
      rcases hpar with ⟨p, v, rfl⟩ | ⟨sp, p, rfl⟩
      · exact hwr p v henc
      · exact hrd sp p henc
    rw [runWord_refused hillegal]
    rfl

/-! ## One response (R71, R251, R296) -/

/-- No effect touches the events still to come or the position among them. -/
theorem ControlMoves.events {i : Instr} {s t : State} (h : ControlMoves i s t) : t.input = s.input ∧ t.pos = s.pos := by
  cases h with
  | path h | block n h => rw [h]; exact ⟨rfl, rfl⟩
  | _ => exact ⟨rfl, rfl⟩

/-- `t` is `s` with one response more, on the port of `s`, data 0 if it is an error. -/
def Answered (s t : State) : Prop :=
  ∃ code data, t.log = ⟨s.port, code, data⟩ :: s.log ∧ (code ≠ .ok → data = 0) ∧ t.input = s.input ∧ t.pos = s.pos

theorem answered_refuse (s : State) (e : ErrCode) : Answered s (s.refuse e) :=
  ⟨.err e, 0, rfl, fun _ => rfl, rfl, rfl⟩

/-- Every command answers once, in every state. -/
theorem exec_answered (i : Instr) (s : State) : ∃ t, exec i s = .next t ∧ Answered s t := by
  have hexec := exec_eq i s
  refine ⟨_, hexec, ?_⟩
  obtain ⟨u, hm, ht⟩ := exec_moves hexec
  obtain ⟨-, -, hport, hlog⟩ := hm.control.outside
  obtain ⟨hinput, hpos⟩ := hm.control.events
  obtain ⟨d, ht⟩ | ⟨e, ht⟩ := ht <;> rw [ht]
  · exact ⟨.ok, d, by rw [State.respond_log, hport, hlog], fun h => absurd rfl h, hinput, hpos⟩
  · exact ⟨.err e, 0, by rw [State.refuse_log, hport, hlog], fun _ => rfl, hinput, hpos⟩

/-- Every accepted word answers once, a command or not. -/
theorem runWord_answered (d : Except DecodeError Instr) (s : State) : ∃ t, runWord d s = .next t ∧ Answered s t := by
  cases d with
  | ok i => exact exec_answered i s
  | error e => exact ⟨_, rfl, answered_refuse s .illegal⟩

/-- Settles O11: the word is accepted on its port, and `runWord_answered` is about the state that has accepted it. -/
theorem everyCommandGetsOneResponse : Obligations.EveryCommandGetsOneResponse := by
  intro s w rest p hin
  obtain ⟨d, hstep⟩ : ∃ d, step s = runWord d (s.accept p rest) := by
    cases p with
    | cmd => exact ⟨_, step_cmd hin⟩
    | par => exact ⟨_, step_par hin⟩
  obtain ⟨t, hrun, code, data, hlog, hdata, hinput, hpos⟩ := runWord_answered d (s.accept p rest)
  exact ⟨t, code, data, hstep.trans hrun, hlog, hdata, hinput, hpos⟩

end Machine

end Sys2Proof
end

section
/-! Register reads and writes, `RELEASE` and `PREPARE` (R100 to R106, R122 to R130, R150, R152). -/

namespace Sys2Proof.Machine

/-! ## Accepted and refused commands -/

/-- A command whose checks pass answers its effect. -/
theorem exec_of_accepted {i : Instr} {s : State} (h : verdict i s = none) :
    exec i s = .next ((effect i s).1.respond .ok (effect i s).2) := by
  rw [exec_eq, after, h]

/-- A command one of whose checks fails is refused with its error. -/
theorem exec_of_refused {i : Instr} {s : State} {e : ErrCode} (h : verdict i s = some e) :
    exec i s = .next ((refusalBase i s).refuse e) := by
  rw [exec_eq, after, h]

/-! ## Reading and writing one register -/

/-- Settles O24: the checks of a read always pass, and its effect is the register's value. -/
theorem registerReadCommandsAnswer : Obligations.RegisterReadCommandsAnswer := by
  intro s
  have read {i : Instr} {v : W32} (hv : verdict i s = none) (he : effect i s = (s, v)) :
      exec i s = .next (s.respond .ok v) := by rw [exec_of_accepted hv, he]
  refine ⟨read rfl rfl, fun p => ⟨read rfl rfl, read rfl rfl⟩, fun k => read rfl rfl, fun c q => read rfl rfl,
    fun b => ?stage, read rfl rfl, read rfl rfl, read rfl rfl⟩
  case stage =>
    have field (f : BqField) : exec (.bqRd b f) s = .next (s.respond .ok ((s.bq[b]).field f)) := read rfl rfl
    exact ⟨field .b0, field .b1, field .b2, field .a1, field .a2, field .x1, field .x2, field .y1, field .y2⟩

/-- Settles O25: each command writes one element of one register file. -/
theorem registerWriteCommandsWriteOneRegister : Obligations.RegisterWriteCommandsWriteOneRegister := by
  intro s
  refine ⟨fun p v => ?param, fun k v => ?arg, fun r on => ?interp, fun r ms hms => ?delay⟩
  case param =>
    exact ⟨_, exec_of_accepted rfl, rfl, getElem_set_fin_self _ p v, fun p' hp => getElem_set_fin_ne _ hp.symm v⟩
  case arg =>
    exact ⟨_, exec_of_accepted rfl, rfl, getElem_set_fin_self _ k v, fun k' hk => getElem_set_fin_ne _ hk.symm v⟩
  case interp =>
    exact ⟨_, exec_of_accepted rfl, rfl, getElem_set_fin_self _ r _, fun r' hr => getElem_set_fin_ne _ hr.symm _⟩
  case delay =>
    have hverdict : verdict (.dlSettime r ms) s = none := by rw [verdict, if_pos hms]
    exact ⟨_, exec_of_accepted hverdict, rfl, getElem_set_fin_self _ r ms, fun r' hr => getElem_set_fin_ne _ hr.symm ms⟩

/-! ## The unprepared state (R103, R106) -/

/-- Every ring of the unprepared state is freed. -/
theorem unprepare_ring (s : State) (r : RingId) : s.unprepare.rb[r] = (s.rb[r]).free := by
  simp only [State.unprepare_rb, Fin.getElem_fin, Vector.getElem_ofFn]

/-- A freed ring has no capacity, starts at index 0 and keeps its interpolation toggle. -/
theorem unprepare_freed (s : State) (r : RingId) :
    (s.unprepare.rb[r]).cap = 0 ∧ (s.unprepare.rb[r]).widx = 0 ∧ (s.unprepare.rb[r]).interp = (s.rb[r]).interp := by
  rw [unprepare_ring]
  exact ⟨rfl, rfl, rfl⟩

/-- Settles O26: the effect of `RELEASE` is the unprepared state. -/
theorem releaseFreesEveryRing : Obligations.ReleaseFreesEveryRing := fun s =>
  ⟨_, exec_of_accepted rfl, rfl, unprepare_freed s⟩

/-- `PREPARE` fails its check with a sample rate out of range or a zero block size (R102, R257). -/
theorem verdict_prepare_refused {m : BitVec 16} {fs : W32} (s : State)
    (h : fs.toNat < 1 ∨ 262144 < fs.toNat ∨ m.toNat < 1) : verdict (.prepare m fs) s = some .config := by
  have hno : ¬prepareOk m fs = true := by
    rw [prepareOk_iff, Config.fsMax]
    omega
  rw [verdict, if_neg hno]

/-- Settles O14: a refused `PREPARE` leaves the unprepared state with its error. -/
theorem refusedPrepareLeavesUnprepared : Obligations.RefusedPrepareLeavesUnprepared := fun _ _ s hbad =>
  ⟨_, exec_of_refused (verdict_prepare_refused s hbad), rfl, unprepare_freed s⟩

/-! ## `PREPARE` (R104) -/

/-- `PREPARE` passes its check with a rate of 1 to `FS_MAX` and a block of 1 or more (R102, R257). -/
theorem verdict_prepare {m : BitVec 16} {fs : W32} (s : State) (h1 : 1 ≤ fs.toNat) (h2 : fs.toNat ≤ 262144)
    (h3 : 1 ≤ m.toNat) : verdict (.prepare m fs) s = none := by
  rw [verdict, if_pos (prepareOk_iff.2 ⟨h1, h2, h3⟩)]

section
variable (s : State) (m : BitVec 16) (fs : W32)

theorem prepareInit_ring (r : RingId) :
    (s.prepareInit m fs).rb[r] = { (s.rb[r]).create (2 * fs.toNat) with interp := true } := by
  simp only [State.prepareInit, Fin.getElem_fin, Vector.getElem_ofFn]

theorem prepareInit_dl (r : RingId) : (s.prepareInit m fs).dl[r] = 0 := Vector.getElem_replicate r.isLt

theorem prepareInit_ch (c : Lane) : (s.prepareInit m fs).ch[c] = Chan.reset := Vector.getElem_replicate c.isLt

theorem prepareInit_snap (p : ParamId) : (s.prepareInit m fs).snap[p] = 0 := Vector.getElem_replicate p.isLt

theorem prepareInit_stage (b : StageId) :
    (s.prepareInit m fs).bq[b] = (fixedBank fs s.cal.toCalibration).stage b := by
  simp only [State.prepareInit, Fin.getElem_fin, Vector.getElem_ofFn]

theorem prepareInit_nRamp_toNat (h : fs.toNat ≤ 262144) :
    (s.prepareInit m fs).nRamp.toNat = fs.toNat * 50 / 1000 :=
  Nat.mod_eq_of_lt (show fs.toNat * 50 / 1000 < 2 ^ 32 by omega)

end

/-! The place of a stage in its lane decides its filter (R33). -/

theorem FixedBank.stage_lpf (k : FixedBank) (c : Lane) : k.stage (lpfStage c) = Biquad.reset := by
  have hplace : (lpfStage c).val % 63 = 0 := by rw [lpfStage_val]; omega
  simp [FixedBank.stage, hplace]

theorem FixedBank.stage_hpf (k : FixedBank) (c : Lane) : k.stage (hpfStage c) = Biquad.reset := by
  have hplace : (hpfStage c).val % 63 = 1 := by rw [hpfStage_val]; omega
  simp [FixedBank.stage, hplace]

theorem FixedBank.stage_glpf (k : FixedBank) (c : Lane) : k.stage (glpfStage c) = k.glpf := by
  have hplace : (glpfStage c).val % 63 = 2 := by rw [glpfStage_val]; omega
  simp [FixedBank.stage, hplace]

theorem FixedBank.stage_ap (k : FixedBank) (c : Lane) (i : TapId) (j : Fin 5) :
    k.stage (apStage c i j) = k.ap[j] := by
  have hplace : (apStage c i j).val % 63 = 3 + 6 * i.val + j.val := by rw [apStage_val]; omega
  have hk : (3 + 6 * i.val + j.val - 3) % 6 = j.val := by omega
  unfold FixedBank.stage
  simp only [hplace, hk]
  rw [if_neg (by omega), if_neg (by omega), dif_pos j.isLt]
  rfl

theorem FixedBank.stage_tlp (k : FixedBank) (c : Lane) (i : TapId) : k.stage (tlpStage c i) = k.tlp := by
  have hplace : (tlpStage c i).val % 63 = 3 + 6 * i.val + 5 := by rw [tlpStage_val]; omega
  have hk : (3 + 6 * i.val + 5 - 3) % 6 = 5 := by omega
  unfold FixedBank.stage
  simp only [hplace, hk]
  rw [if_neg (by omega), if_neg (by omega), dif_neg (by omega)]

/-- A fixed filter is the identity stage, loaded with its coefficients when they are finite (R104, R192). -/
theorem fixedStage_eq (fs : W32) (ty : BqType) (f q : F32) :
    fixedStage fs ty f q =
      if (bqDesign fs ty f q).finite then Biquad.reset.load (bqDesign fs ty f q) else Biquad.reset := by
  rw [fixedStage, Biquad.tryLoad]

theorem fixedBank_glpf (fs : W32) (cal : Calibration) :
    (fixedBank fs cal).glpf = fixedStage fs .lp Config.glpfHz Config.qButter := by rw [fixedBank]

theorem fixedBank_tlp (fs : W32) (cal : Calibration) :
    (fixedBank fs cal).tlp = fixedStage fs .lp Config.tlpHz Config.qButter := by rw [fixedBank]

theorem fixedBank_ap (fs : W32) (cal : Calibration) (k : Fin 5) :
    (fixedBank fs cal).ap[k] = fixedStage fs .ap (Config.apHz k) cal.apQ[k] := by
  simp only [fixedBank, Fin.getElem_fin, Vector.getElem_ofFn]

/-- Settles O27: register by register, the rings, stages and lanes by the lemmas on their elements. -/
theorem prepareInitialisesTheSignalPath : Obligations.PrepareInitialisesTheSignalPath := by
  intro m fs s h1 h2 h3
  refine ⟨_, exec_of_accepted (verdict_prepare s h1 h2 h3), rfl, rfl, rfl, rfl, rfl, rfl, rfl, rfl, rfl, rfl, rfl, rfl,
    prepareInit_nRamp_toNat s m fs h2, ⟨rfl, rfl, rfl⟩, fun r => ?rings, fun c => ?lane, rfl, rfl,
    prepareInit_snap s m fs⟩
  case rings =>
    simp only [State.word, effect, State.respond_rb, State.respond_dl, prepareInit_ring, prepareInit_dl]
    exact ⟨Ring.create_cap_toNat _ (by omega), rfl, trivial, fun _ => rfl, trivial⟩
  case lane =>
    simp only [effect, State.respond_bq, State.respond_ch, prepareInit_stage, prepareInit_ch, FixedBank.stage_lpf,
      FixedBank.stage_hpf, FixedBank.stage_glpf, FixedBank.stage_ap, FixedBank.stage_tlp, fixedBank_glpf, fixedBank_ap,
      fixedBank_tlp, fixedStage_eq, implies_true, and_self]

end Sys2Proof.Machine
end

section
/-! `BLOCK`: the snapshot, the reverb LFO, the ramps, the priming and the user filters (R108 to R113). -/

namespace Sys2Proof.Machine

/-- `BLOCK` passes its checks on a prepared hardware with a length of at most `MAXBLK` (R256, R258). -/
theorem verdict_block {n : BitVec 16} {s : State} (hlife : s.life ≠ .unprep) (hn : n.toNat ≤ s.maxBlk.toNat) :
    verdict (.block n) s = none := by
  rw [verdict, if_pos (prepared_iff.2 hlife), if_pos hn]

/-- An accepted `BLOCK` answers 0 after the block update. -/
theorem exec_block {n : BitVec 16} {s : State} (hlife : s.life ≠ .unprep) (hn : n.toNat ≤ s.maxBlk.toNat) :
    exec (.block n) s = .next ((s.blockAll n).respond .ok 0) := exec_of_accepted (verdict_block hlife hn)

/-! ## The snapshot (R112) -/

theorem blockAll_snap (s : State) (n : BitVec 16) : (s.blockAll n).snap = snapshotOf s.param := by
  rw [blockAll_frame]

theorem clampDelay_eq (w : W32) (n : Nat) : clampDelay w n = BitVec.ofNat 32 (min (max w.toInt 0) (n : Int)).toNat := by
  unfold clampDelay
  congr 1
  omega

/-- The delay parameters of a snapshot. -/
theorem snapshotOf_delay (p : Vector W32 13) :
    (snapshotOf p)[0] = BitVec.ofNat 32 (min (max p[0].toInt 0) 2000).toNat ∧
    (snapshotOf p)[1] = BitVec.ofNat 32 (min (max p[1].toInt 0) 2000).toNat :=
  ⟨clampDelay_eq _ 2000, clampDelay_eq _ 2000⟩

/-- The F32 parameters of a snapshot. -/
theorem snapshotOf_clamp (p : Vector W32 13) :
    (snapshotOf p)[2] = F32.clamp p[2] Config.f0 Config.f1 ∧ (snapshotOf p)[3] = F32.clamp p[3] Config.f0 Config.f1 ∧
    (snapshotOf p)[6] = F32.clamp p[6] Config.fTenth Config.f3 ∧
    (snapshotOf p)[8] = F32.clamp p[8] Config.f20 Config.f7000 ∧
    (snapshotOf p)[10] = F32.clamp p[10] Config.f20 Config.f1000 ∧
    (snapshotOf p)[12] = F32.clamp p[12] Config.f0 Config.f1 := ⟨rfl, rfl, rfl, rfl, rfl, rfl⟩

/-- The toggles of a snapshot. -/
theorem snapshotOf_toggle (p : Vector W32 13) :
    (snapshotOf p)[4] = p[4] &&& 1#32 ∧ (snapshotOf p)[5] = p[5] &&& 1#32 ∧ (snapshotOf p)[7] = p[7] &&& 1#32 ∧
    (snapshotOf p)[9] = p[9] &&& 1#32 ∧ (snapshotOf p)[11] = p[11] &&& 1#32 := ⟨rfl, rfl, rfl, rfl, rfl⟩

/-- `clampF` in the order of R12's chain. -/
theorem clamp_chain (v lo hi : F32) :
    F32.clamp v lo hi = if F32.ge v lo = true then (if F32.gt v hi = true then hi else v) else lo := by
  split
  · exact F32.clamp_of_ge ‹_›
  · exact F32.clamp_of_not_ge (Bool.eq_false_of_not_eq_true ‹_›)

theorem toggle_toNat (w : W32) : (w &&& 1#32).toNat = w.toNat % 2 := Nat.and_one_is_mod _

/-! ## The stages and the frame -/

/-- A block leaves every stage but the user filters alone (R111). -/
theorem blockAll_bq_fixed (s : State) (n : BitVec 16) {b : StageId} (h0 : b.val % 63 ≠ 0) (h1 : b.val % 63 ≠ 1) :
    (s.blockAll n).bq[b] = s.bq[b] := by
  obtain ⟨c, hc⟩ : ∃ c : Lane, b.val / 63 = c.val := ⟨⟨b.val / 63, by omega⟩, rfl⟩
  have hlpf : lpfStage c ≠ b := by rintro rfl; rw [lpfStage_val] at h0; omega
  have hhpf : hpfStage c ≠ b := by rintro rfl; rw [hpfStage_val] at h1; omega
  rw [blockAll_bq s n b c hc]
  dsimp only
  rw [if_neg (fun h => hhpf h.1), if_neg (fun h => hlpf h.1)]

/-- Settles O28: the frame is `blockAll_frame`, the snapshot is read entry by entry. -/
theorem blockSnapshotsAndStepsTheReverbLfo : Obligations.BlockSnapshotsAndStepsTheReverbLfo := by
  intro n s hlife hn
  refine ⟨_, exec_block hlife hn, ?frame, ?rmod, ?rph, ?snapshot⟩
  case frame => rw [blockAll_frame]; rfl
  case rmod => rw [State.respond_rmod, blockAll_frame]; rfl
  case rph => rw [State.respond_rph, blockAll_frame]; rfl
  case snapshot =>
    obtain ⟨p0, p1⟩ := snapshotOf_delay s.param
    obtain ⟨p2, p3, p6, p8, p10, p12⟩ := snapshotOf_clamp s.param
    obtain ⟨p4, p5, p7, p9, p11⟩ := snapshotOf_toggle s.param
    simp only [State.respond_snap, State.respond_bq, blockAll_snap, p0, p1, p2, p3, p4, p5, p6, p7, p8, p9, p10, p11,
      p12, clamp_chain, toggle_toNat, and_self, true_and]
    exact fun b => blockAll_bq_fixed s n

/-! ## The ramps of a lane (R110) -/

/-- The delay parameter after a block follows the dual-delay choice of the new snapshot. -/
theorem blockAll_dparam (s : State) (n : BitVec 16) (c : Lane) :
    ((s.blockAll n).ch[c]).dparam =
      if c = 1 ∧ (s.blockAll n).snap[4] = 1 then (s.blockAll n).snap[1] else (s.blockAll n).snap[0] := by
  rw [blockAll_ch, (blockReg_delay ..).1]
  simp only [blockAll_snap]
  rfl

theorem blockAll_zero (s : State) (n : BitVec 16) (c : Lane) :
    ((s.blockAll n).ch[c]).zero = (((s.blockAll n).ch[c]).dparam == 0) := by
  rw [blockAll_ch, (blockReg_delay ..).1, (blockReg_delay ..).2]

/-- Every ramp after a block: snapped to its target on the first block, else retargeted and advanced. -/
theorem blockAll_ramp (s : State) (n : BitVec 16) (c : Lane) {q : RampId} {target : F32}
    (ht : (rampTargets (s.blockAll n).snap ((s.blockAll n).ch[c]).dparam)[q] = target) :
    ((s.blockAll n).ch[c]).ramp[q] =
      if s.life = .prep then Ramp.snapTo target
      else (((s.ch[c]).ramp[q]).setTarget s.nRamp target).advance n.toNat := by
  rw [← ht, blockAll_ch, blockReg_ramp, (blockReg_delay ..).1]
  simp only [blockAll_snap, Ramp.atBlock, beq_iff_eq]
  rfl

/-- Settles O29: the ramps by `blockAll_ramp`, with the targets of R110 one by one. -/
theorem blockRetargetsTheLaneRamps : Obligations.BlockRetargetsTheLaneRamps := by
  intro n s c hlife hn
  refine ⟨_, exec_block hlife hn, blockAll_dparam s n c, ?zero, ?pkIn, ?pkOut, ?cph, ?ramps⟩
  case zero => rw [State.respond_ch, blockAll_zero]; exact beq_iff_eq
  case pkIn => rw [State.respond_ch, blockAll_ch]; rfl
  case pkOut => rw [State.respond_ch, blockAll_ch]; rfl
  case cph => rw [State.respond_ch, blockAll_ch, blockReg_cph]; rfl
  case ramps =>
    obtain ⟨t0, t1, t2, t3, t4, t5, t6, t7, t8, t9⟩ :=
      rampTargets_get (s.blockAll n).snap ((s.blockAll n).ch[c]).dparam
    have moved {q : RampId} {target : F32} := blockAll_ramp s n c (q := q) (target := target)
    exact ⟨moved t0, moved t1, moved t2, moved t3, moved t4, moved t5, moved t6, moved t7, moved t8, moved t9⟩

/-! ## Priming (R113) -/

/-- On the first block every smoothed value adopts its ramp. -/
theorem blockReg_primed (s : State) (c : Lane) (n : BitVec 16) :
    let l := s.blockReg c n true
    l.fbS = (l.ramp[(1 : RampId)]).cur ∧ l.dwS = (l.ramp[(2 : RampId)]).cur ∧ l.rlS = (l.ramp[(3 : RampId)]).cur ∧
    l.lpmS = (l.ramp[(4 : RampId)]).cur ∧ l.hpmS = (l.ramp[(5 : RampId)]).cur ∧
    l.chmS = (l.ramp[(6 : RampId)]).cur ∧ l.rvmS = (l.ramp[(7 : RampId)]).cur := by
  simp only [State.blockReg, State.laneSetReg, if_true, Chan.primed]
  exact ⟨rfl, rfl, rfl, rfl, rfl, rfl, rfl⟩

/-- On a later block every smoothed value is kept. -/
theorem blockReg_kept (s : State) (c : Lane) (n : BitVec 16) :
    let l := s.blockReg c n false
    l.fbS = (s.ch[c]).fbS ∧ l.dwS = (s.ch[c]).dwS ∧ l.rlS = (s.ch[c]).rlS ∧ l.lpmS = (s.ch[c]).lpmS ∧
    l.hpmS = (s.ch[c]).hpmS ∧ l.chmS = (s.ch[c]).chmS ∧ l.rvmS = (s.ch[c]).rvmS :=
  ⟨rfl, rfl, rfl, rfl, rfl, rfl, rfl⟩

/-- On the first block the delay times of a lane adopt their targets: the main line its ramp, a tap its own time under
the latched modulation. -/
theorem blockAll_dl_primed (s : State) (n : BitVec 16) (c : Lane) (h : s.life = .prep) :
    (s.blockAll n).dl[mainRing c] = (((s.blockAll n).ch[c]).ramp[(0 : RampId)]).cur ∧
    ∀ i : TapId, (s.blockAll n).dl[tapRing c i] =
      (let d := F32.add (s.cal.tapMs[c])[i] (s.blockAll n).rmod
       if F32.ge d Config.f0 then d else Config.f0) := by
  obtain ⟨hmain, htap⟩ := blockAll_dl_prep s n h c
  have hrmod : (s.blockAll n).rmod = (s.blockStart n).rmod := by rw [blockAll_frame]; rfl
  refine ⟨?_, fun i => ?_⟩
  · rw [hmain, blockAll_ch, h]; rfl
  · rw [htap, hrmod]; rfl

/-- The lane registers the user filters are looked at with (R111). -/
theorem laneSetReg_filters (s : State) (c : Lane) (n : BitVec 16) (first : Bool) :
    (s.laneSetReg c n first).ramp = (s.blockReg c n first).ramp ∧
    (s.laneSetReg c n first).lpfApp = (s.ch[c]).lpfApp ∧ (s.laneSetReg c n first).hpfApp = (s.ch[c]).hpfApp := by
  cases first <;> exact ⟨rfl, rfl, rfl⟩

/-! ## User filters (R111) -/

theorem blockStart_ch (s : State) (n : BitVec 16) : (s.blockStart n).ch = s.ch := (rfl)

/-- The test that has a user filter rebuilt. -/
theorem rebuild_iff (s : State) (f app : F32) :
    (s.life == .prep || F32.fne f app) = true ↔ s.life = .prep ∨ F32.feq f app = false := by
  simp [F32.fne]

section
variable (s : State) (n : BitVec 16) (c : Lane)

/-- The last applied cutoffs after a block. -/
theorem blockReg_applied (first : Bool) :
    (s.blockReg c n first).lpfApp =
      (if first || F32.fne ((s.blockReg c n first).ramp[8]).cur (s.ch[c]).lpfApp then
        ((s.blockReg c n first).ramp[8]).cur else (s.ch[c]).lpfApp) ∧
    (s.blockReg c n first).hpfApp =
      (if first || F32.fne ((s.blockReg c n first).ramp[9]).cur (s.ch[c]).hpfApp then
        ((s.blockReg c n first).ramp[9]).cur else (s.ch[c]).hpfApp) := by
  obtain ⟨-, hlpf, hhpf⟩ := laneSetReg_filters s c n first
  simp only [State.blockReg, hlpf, hhpf, and_self]

/-- The user low-pass after a block. -/
theorem blockAll_lpf :
    let f := (((s.blockAll n).ch[c]).ramp[8]).cur
    ((s.blockAll n).ch[c]).lpfApp =
      (if s.life = .prep ∨ F32.feq f (s.ch[c]).lpfApp = false then f else (s.ch[c]).lpfApp) ∧
    (s.blockAll n).bq[lpfStage c] =
      if s.life = .prep ∨ F32.feq f (s.ch[c]).lpfApp = false then
        (s.bq[lpfStage c]).tryLoad (bqDesign s.fs .lp f Config.qButter)
      else s.bq[lpfStage c] := by
  obtain ⟨hramp, happ, -⟩ := laneSetReg_filters (s.blockStart n) c n (s.life == .prep)
  simp only [blockAll_bq s n _ c (lpf_div c), blockAll_ch, hramp, happ, blockStart_ch, ← rebuild_iff]
  refine ⟨(blockReg_applied (s.blockStart n) n c _).1, ?_⟩
  rw [if_neg (fun h => lpfStage_ne_hpfStage c c h.1.symm)]
  simp only [true_and]

/-- The user high-pass after a block. -/
theorem blockAll_hpf :
    let f := (((s.blockAll n).ch[c]).ramp[9]).cur
    ((s.blockAll n).ch[c]).hpfApp =
      (if s.life = .prep ∨ F32.feq f (s.ch[c]).hpfApp = false then f else (s.ch[c]).hpfApp) ∧
    (s.blockAll n).bq[hpfStage c] =
      if s.life = .prep ∨ F32.feq f (s.ch[c]).hpfApp = false then
        (s.bq[hpfStage c]).tryLoad (bqDesign s.fs .hp f Config.qButter)
      else s.bq[hpfStage c] := by
  obtain ⟨hramp, -, happ⟩ := laneSetReg_filters (s.blockStart n) c n (s.life == .prep)
  simp only [blockAll_bq s n _ c (hpf_div c), blockAll_ch, hramp, happ, blockStart_ch, ← rebuild_iff]
  refine ⟨(blockReg_applied (s.blockStart n) n c _).2, ?_⟩
  rw [if_neg (c := lpfStage c = hpfStage c ∧ _) (fun h => lpfStage_ne_hpfStage c c h.1)]
  simp only [true_and]

end

/-- Two values chosen by one test, said case by case. -/
theorem ite_and_of_eq_ite {p : Prop} [Decidable p] {α β : Type} {x a a' : α} {y b b' : β}
    (hx : x = if p then a else a') (hy : y = if p then b else b') :
    if p then x = a ∧ y = b else x = a' ∧ y = b' := by
  rw [hx, hy]
  split
  · exact ⟨rfl, rfl⟩
  · exact ⟨rfl, rfl⟩

/-- Settles O30: the smoothed values and delay times by whether the block is the first, each user filter by its own
lemma. -/
theorem blockPrimesAndRebuildsUserFilters : Obligations.BlockPrimesAndRebuildsUserFilters := by
  intro n s c hlife hn
  refine ⟨_, exec_block hlife hn, ?primed, ?kept, ?lpf, ?hpf⟩
  case primed =>
    intro l hprep
    have hl : l = (s.blockStart n).blockReg c n true := (blockAll_ch s n c).trans (by rw [hprep]; rfl)
    obtain ⟨h1, h2, h3, h4, h5, h6, h7⟩ := blockReg_primed (s.blockStart n) c n
    rw [← hl] at h1 h2 h3 h4 h5 h6 h7
    exact ⟨h1, h2, h3, h4, h5, h6, h7, blockAll_dl_primed s n c hprep⟩
  case kept =>
    intro hrun
    rw [State.respond_ch, blockAll_ch, hrun]
    exact ⟨blockAll_dl_run s n (by rw [hrun]; decide), blockReg_kept (s.blockStart n) c n⟩
  case lpf =>
    obtain ⟨happ, hbq⟩ := blockAll_lpf s n c
    exact ite_and_of_eq_ite happ hbq
  case hpf =>
    obtain ⟨happ, hbq⟩ := blockAll_hpf s n c
    exact ite_and_of_eq_ite happ hbq

end Sys2Proof.Machine
end

section
/-! `SAMPLE`: the registers of its lane, its output, and the two lanes side by side (R114 to R120). -/

namespace Sys2Proof.Machine

/-- `SAMPLE` of a finite value in the running state answers its output (R114). -/
theorem exec_sample {c : Lane} {x : F32} {s : State} (hsized : s.sizedOk) (hlife : s.life = .run)
    (hx : F32.isFinite x = true) :
    exec (.sample c x) s = .next ((s.sampleStep c x).1.respond .ok (s.sampleStep c x).2) :=
  exec_of_accepted (verdict_sample hsized hlife hx)

/-! ## The lane's registers (R115 to R117) -/

/-- The lane's registers after `SAMPLE`: those the main line was read with, and the output meter. -/
theorem sampleStep_lane (s : State) (c : Lane) (x : F32) :
    (s.sampleStep c x).1.ch[c] =
      { (s.sampleFront c x).ch[c] with pkOut := peak ((s.sampleFront c x).ch[c]).pkOut (s.sampleOut c x) } := by
  rw [sampleStep_ch, if_pos rfl]

/-- The main line's delay time after `SAMPLE` is the one it was read at. -/
theorem sampleStep_dl_main (s : State) (c : Lane) (x : F32) :
    (s.sampleStep c x).1.dl[mainRing c] = (s.sampleFront c x).dl[mainRing c] :=
  ((sampleStep_rest s c x).1 _ fun i => (mainRing_ne_tapRing c c i).symm).2

/-- Settles O31: the time and the registers are those the main line was read with. -/
theorem sampleGlidesTheLaneRegisters : Obligations.SampleGlidesTheLaneRegisters := by
  intro c x s hsized hlife hx
  refine ⟨_, exec_sample hsized hlife hx, ?time, ?registers⟩
  case time =>
    simp only [State.respond_dl, sampleStep_dl_main]
    rw [sampleFront_dl]; rfl
  case registers =>
    simp only [State.respond_ch, sampleStep_lane, sampleFront_ch]
    rfl

/-! ## The output and the filters (R116 to R120) -/

/-- The main line's ring after `SAMPLE`. -/
theorem sampleStep_rb_main (s : State) (c : Lane) (x : F32) :
    (s.sampleStep c x).1.rb[mainRing c] =
      (s.rb[mainRing c]).write (dlWord x ((s.sampleFront c x).ch[c]).fbS (s.sampleW3 c x)) := by
  rw [((sampleStep_rest s c x).1 _ fun i => (mainRing_ne_tapRing c c i).symm).1, sampleMid_rb, if_pos rfl]

/-- The tone filters after `SAMPLE`: each is stepped on the signal that enters it. -/
theorem sampleStep_bq_tone (s : State) (c : Lane) (x : F32) :
    (s.sampleStep c x).1.bq[lpfStage c] = (s.bq[lpfStage c]).push (s.sampleW c x) ∧
    (s.sampleStep c x).1.bq[hpfStage c] =
      (s.bq[hpfStage c]).push ((s.sampleFront c x).toneW1 c (s.sampleW c x)) ∧
    (s.sampleStep c x).1.bq[glpfStage c] =
      (s.bq[glpfStage c]).push ((s.sampleFront c x).toneW2 c (s.sampleW c x)) := by
  have hrest := (sampleStep_rest s c x).2
  have htone (b : StageId) : (s.sampleMid c x).bq[b] = ((s.sampleFront c x).tone c (s.sampleW c x)).1.bq[b] := by
    simp only [sampleMid_bq]
  refine ⟨?_, ?_, ?_⟩
  · rw [hrest _ fun i => (tone_notMem c i).1, htone, tone_bq, if_neg (lpfStage_ne_glpfStage c c).symm,
      if_neg (lpfStage_ne_hpfStage c c).symm, if_pos rfl]
    simp only [front_bq]
  · rw [hrest _ fun i => (tone_notMem c i).2.1, htone, tone_bq, if_neg (hpfStage_ne_glpfStage c c).symm, if_pos rfl]
    simp only [front_bq]
  · rw [hrest _ fun i => (tone_notMem c i).2.2, htone, tone_bq, if_pos rfl]
    simp only [front_bq]

/-- Settles O32: each signal of the statement is named by its pipeline lemma, in the order of the pipeline. -/
theorem sampleOutputIsThePipeline : Obligations.SampleOutputIsThePipeline := by
  intro c x s hsized hlife hx
  refine ⟨_, exec_sample hsized hlife hx, ?_⟩
  intro l cross w w1 w2 w3 y reverb out meter
  have hl : l = { (s.sampleFront c x).ch[c] with
      pkOut := peak ((s.sampleFront c x).ch[c]).pkOut (s.sampleOut c x) } := sampleStep_lane s c x
  have hcross : cross = mix := rfl
  have hw : w = s.sampleW c x := by
    rw [sampleW_eq, ← sampleStep_dl_main]
    simp only [w, State.respond_dl]
  have hw1 : w1 = (s.sampleFront c x).toneW1 c (s.sampleW c x) := by
    simp only [w1, hcross, hw, hl, State.toneW1, front_bq]
  have hw2 : w2 = (s.sampleFront c x).toneW2 c (s.sampleW c x) := by
    simp only [w2, hcross, hw1, hl, State.toneW2, front_bq]
  have hw3 : w3 = s.sampleW3 c x := by
    simp only [w3, hw2, State.sampleW3, tone_snd, front_bq]
  have hy : y = s.sampleY c x := by
    simp only [y, hcross, hw3, hl, State.sampleY]
  have hreverb : reverb = s.sampleR c x := by
    simp only [reverb, hl, State.sampleR]
  have hout : out = s.sampleOut c x := by
    simp only [out, hy, hreverb, hl, State.sampleOut, mixadd]
  have hmeter : meter = peak := rfl
  obtain ⟨hlpf, hhpf, hglpf⟩ := sampleStep_bq_tone s c x
  refine ⟨?log, ?pkIn, ?pkOut, ?main, ?lpf, ?hpf, ?glpf, fun i => ?tap⟩
  case log => rw [hout, State.respond_log, sampleStep_snd, sampleStep_frame]
  case pkIn => rw [hmeter, hl, sampleFront_ch]
  case pkOut => rw [hmeter, hl, hout, sampleFront_ch]
  case main => simp only [State.respond_rb, sampleStep_rb_main, hw3, hl, dlWord]
  case lpf => simp only [State.respond_bq, hlpf, hw]
  case hpf => simp only [State.respond_bq, hhpf, hw1]
  case glpf => simp only [State.respond_bq, hglpf, hw2]
  case tap =>
    obtain ⟨htime, hring, htlp, hap⟩ := sampleStep_tap s c x i
    simp only [State.respond_dl, State.respond_rb, State.respond_bq, hy]
    exact ⟨htime, hring, htlp, hap⟩

/-! ## The two lanes (R114) -/

/-- Two states alike in both lanes and in every global register are one state. -/
theorem eq_of_sameLane {s t : State} (hglobals : t = { s with rb := t.rb, dl := t.dl, bq := t.bq, ch := t.ch })
    (h : ∀ c, SameLane c s t) : t = s := by
  have hrb : t.rb = s.rb := Vector.ext fun i hi => (h ⟨i / 11, by omega⟩).rb ⟨i, hi⟩ rfl
  have hdl : t.dl = s.dl := Vector.ext fun i hi => (h ⟨i / 11, by omega⟩).dl ⟨i, hi⟩ rfl
  have hbq : t.bq = s.bq := Vector.ext fun i hi => (h ⟨i / 63, by omega⟩).bq ⟨i, hi⟩ rfl
  have hch : t.ch = s.ch := Vector.ext fun i hi => (h ⟨i, hi⟩).ch
  rw [hglobals, hrb, hdl, hbq, hch]

theorem SameLane.symm {c : Lane} {s t : State} (h : SameLane c s t) : SameLane c t s where
  fs := h.fs.symm
  cGen := h.cGen.symm
  cSml := h.cSml.symm
  cLrg := h.cLrg.symm
  snap := h.snap.symm
  rmod := h.rmod.symm
  cal := h.cal.symm
  ch := h.ch.symm
  dl r hr := (h.dl r hr).symm
  rb r hr := (h.rb r hr).symm
  bq b hb := (h.bq b hb).symm

/-- There are two lanes. -/
theorem lane_eq_or_eq {c d : Lane} (h : c ≠ d) (e : Lane) : e = c ∨ e = d := by
  simp only [ne_eq, Fin.ext_iff] at *
  omega

/-- The samples of two different lanes, one on top of the other: the second answers what it answers alone, and the state
does not depend on the order. -/
theorem sampleStep_comm {c d : Lane} (hcd : c ≠ d) (s : State) (x y : F32) :
    ((s.sampleStep c x).1.sampleStep d y).2 = (s.sampleStep d y).2 ∧
    ((s.sampleStep d y).1.sampleStep c x).1 = ((s.sampleStep c x).1.sampleStep d y).1 := by
  have hc := onlyLane_sampleStep s c x
  have hd := onlyLane_sampleStep s d y
  have hthenD := onlyLane_sampleStep (s.sampleStep c x).1 d y
  have hthenC := onlyLane_sampleStep (s.sampleStep d y).1 c x
  have hsameC := (hd.same hcd).step x
  have hsameD := (hc.same hcd.symm).step y
  refine ⟨hsameD.1, eq_of_sameLane ?globals fun e => ?lane⟩
  case globals => rw [hthenC.globals, hd.globals, hthenD.globals, hc.globals]
  case lane =>
    rcases lane_eq_or_eq hcd e with rfl | rfl
    · exact (hthenD.same hcd).symm.trans hsameC.2
    · exact hsameD.2.symm.trans (hthenC.same hcd.symm)

/-! ## What no unit function reads -/

/-- `s` with other staging registers and another record of responses: no unit function reads either. -/
def State.withOutside (s : State) (p : Vector W32 13) (l : List Reply) : State := { s with param := p, log := l }

section
variable (p : Vector W32 13) (l : List Reply)

@[simp] theorem withOutside_rb (s : State) : (s.withOutside p l).rb = s.rb := (rfl)
@[simp] theorem withOutside_bq (s : State) : (s.withOutside p l).bq = s.bq := (rfl)
@[simp] theorem withOutside_ch (s : State) : (s.withOutside p l).ch = s.ch := (rfl)
@[simp] theorem withOutside_fs (s : State) : (s.withOutside p l).fs = s.fs := (rfl)

@[simp] theorem withOutside_param (s : State) : (s.withOutside p l).param = p := (rfl)
@[simp] theorem withOutside_port (s : State) : (s.withOutside p l).port = s.port := (rfl)
@[simp] theorem withOutside_log (s : State) : (s.withOutside p l).log = l := (rfl)

theorem sameLane_withOutside (s : State) (c : Lane) : SameLane c s (s.withOutside p l) :=
  ⟨rfl, rfl, rfl, rfl, rfl, rfl, rfl, rfl, fun _ _ => rfl, fun _ _ => rfl, fun _ _ => rfl⟩

theorem setBq_withOutside (s : State) (b : StageId) (g : Biquad) :
    (s.withOutside p l).setBq b g = (s.setBq b g).withOutside p l := (rfl)

theorem setDl_withOutside (s : State) (r : RingId) (v : F32) :
    (s.withOutside p l).setDl r v = (s.setDl r v).withOutside p l := (rfl)

theorem setCh_withOutside (s : State) (c : Lane) (k : Chan) :
    (s.withOutside p l).setCh c k = (s.setCh c k).withOutside p l := (rfl)

theorem rbWrite_withOutside (s : State) (r : RingId) (v : W32) :
    (s.withOutside p l).rbWrite r v = (s.rbWrite r v).withOutside p l := by
  simp only [State.rbWrite, State.withOutside, State.setRing]

theorem chain_withOutside (bs : List StageId) : ∀ (s : State) (v : F32),
    (s.withOutside p l).chain bs v = ((s.chain bs v).1.withOutside p l, (s.chain bs v).2) := by
  induction bs with
  | nil => intro s v; rfl
  | cons b bs ih =>
    intro s v
    simp only [chain_cons, withOutside_bq, setBq_withOutside, ih]

theorem tapStep_withOutside (s : State) (c : Lane) (i : TapId) (u : F32) :
    (s.withOutside p l).tapStep c i u = ((s.tapStep c i u).1.withOutside p l, (s.tapStep c i u).2) := by
  have htime : (s.withOutside p l).tapTime c i = s.tapTime c i := ((sameLane_withOutside p l s c).tap i).tap.1
  have hread : (s.withOutside p l).tapRead c i = s.tapRead c i := by
    rw [State.tapRead, State.tapRead, htime, withOutside_rb, withOutside_fs]
  simp only [tapStep_eq, htime, hread, setDl_withOutside, chain_withOutside, State.dlWrite, rbWrite_withOutside]

theorem tapsRun_withOutside (c : Lane) (u : F32) (is : List TapId) : ∀ (s : State) (acc : F32),
    (s.withOutside p l).tapsRun c u is acc =
      ((s.tapsRun c u is acc).1.withOutside p l, (s.tapsRun c u is acc).2) := by
  induction is with
  | nil => intro s acc; rfl
  | cons i is ih =>
    intro s acc
    simp only [tapsRun_cons, tapStep_withOutside, withOutside_ch, ih]

theorem rvSum_withOutside (s : State) (c : Lane) (u : F32) :
    (s.withOutside p l).rvSum c u = ((s.rvSum c u).1.withOutside p l, (s.rvSum c u).2) :=
  tapsRun_withOutside p l c u taps s Config.f0

theorem sampleFront_withOutside (s : State) (c : Lane) (x : F32) :
    (s.withOutside p l).sampleFront c x = (s.sampleFront c x).withOutside p l := by
  simp only [State.sampleFront, State.peakIn, State.smoothLane, State.delayGlide, withOutside_ch, setCh_withOutside]
  rfl

theorem sampleMid_withOutside (s : State) (c : Lane) (x : F32) :
    (s.withOutside p l).sampleMid c x = (s.sampleMid c x).withOutside p l := by
  have hs := sameLane_withOutside p l s c
  have hw1 := (hs.tone x (s.sampleW c x)).1
  have hw2 := (hs.tone x (s.sampleW c x)).2
  simp only [sampleFront_withOutside] at hw1 hw2
  simp only [State.sampleMid, hs.w, hs.w3, tone_eq, sampleFront_withOutside, hw1, hw2, withOutside_bq, withOutside_ch,
    setBq_withOutside, State.dlWrite, rbWrite_withOutside]

theorem sampleStep_withOutside (s : State) (c : Lane) (x : F32) :
    (s.withOutside p l).sampleStep c x = ((s.sampleStep c x).1.withOutside p l, (s.sampleStep c x).2) := by
  have hs := sameLane_withOutside p l s c
  refine Prod.ext ?_ (hs.step x).1
  simp only [sampleStep_fst, hs.y, hs.out, sampleMid_withOutside, tapsRun_withOutside, State.peakOut, withOutside_ch,
    setCh_withOutside]

end

/-! ## Two `SAMPLE` commands -/

/-- A response is outside the unit functions. -/
theorem respond_eq_withOutside (s : State) (k : RspCode) (v : W32) :
    s.respond k v = s.withOutside s.param (⟨s.port, k, v⟩ :: s.log) := (rfl)

/-- The staging registers, the port and the record are left to `SAMPLE`'s response. -/
theorem sampleStep_outside (s : State) (c : Lane) (x : F32) :
    (s.sampleStep c x).1.param = s.param ∧ (s.sampleStep c x).1.port = s.port ∧ (s.sampleStep c x).1.log = s.log := by
  rw [sampleStep_frame]
  exact ⟨rfl, rfl, rfl⟩

/-- A `SAMPLE` leaves the hardware sized and running for the next one. -/
theorem sampleStep_ready {s : State} (c : Lane) (x : F32) (hsized : s.sizedOk) (hlife : s.life = .run) :
    (s.sampleStep c x).1.sizedOk ∧ (s.sampleStep c x).1.life = .run := by
  have hprep : s.life ≠ .unprep := by rw [hlife]; decide
  have hcap : s.laneAllocated c = true :=
    laneAllocated_iff.2 ⟨hsized.cap_ne_zero hprep _, fun j => hsized.cap_ne_zero hprep _⟩
  refine ⟨kept_sizedOk.moves _ _ _ (.sample c x hlife hcap) hsized, ?_⟩
  rw [sampleStep_frame]
  exact hlife

theorem withOutside_withOutside (s : State) (p p' : Vector W32 13) (l l' : List Reply) :
    (s.withOutside p l).withOutside p' l' = s.withOutside p' l' := (rfl)

/-- A `SAMPLE` just after a response: the pipeline of the state before the response. -/
theorem exec_sample_respond {c : Lane} {x : F32} {s : State} (hsized : s.sizedOk) (hlife : s.life = .run)
    (hx : F32.isFinite x = true) (k : RspCode) (v : W32) :
    exec (.sample c x) (s.respond k v) =
      .next ((s.sampleStep c x).1.withOutside s.param
        (⟨s.port, .ok, (s.sampleStep c x).2⟩ :: ⟨s.port, k, v⟩ :: s.log)) := by
  obtain ⟨-, hport, -⟩ := sampleStep_outside s c x
  have hlife' : (s.respond k v).life = .run := hlife
  rw [exec_sample (kept_sizedOk.respond s k v hsized) hlife' hx, respond_eq_withOutside s, sampleStep_withOutside,
    respond_eq_withOutside, withOutside_withOutside,
    withOutside_param, withOutside_port, withOutside_log, hport]

/-- Two `SAMPLE`s of different lanes, one after the other: each answers what it answers alone. -/
theorem exec_two_samples {c d : Lane} (hcd : c ≠ d) {s : State} {x y : F32} (hsized : s.sizedOk) (hlife : s.life = .run)
    (hx : F32.isFinite x = true) (hy : F32.isFinite y = true) :
    ∃ s1, exec (.sample c x) s = .next s1 ∧
      exec (.sample d y) s1 = .next (((s.sampleStep c x).1.sampleStep d y).1.withOutside s.param
        (⟨s.port, .ok, (s.sampleStep d y).2⟩ :: ⟨s.port, .ok, (s.sampleStep c x).2⟩ :: s.log)) := by
  obtain ⟨hsized', hlife'⟩ := sampleStep_ready c x hsized hlife
  obtain ⟨hparam, hport, hlog⟩ := sampleStep_outside s c x
  refine ⟨_, exec_sample hsized hlife hx, ?_⟩
  rw [exec_sample_respond hsized' hlife' hy, (sampleStep_comm hcd s x y).1, hparam, hport, hlog]

/-- Only the record of responses tells two such states apart. -/
theorem withOutside_eq_of_log (s : State) (p : Vector W32 13) (l l' : List Reply) :
    s.withOutside p l' = { s.withOutside p l with log := (s.withOutside p l').log } := (rfl)

/-- Settles O20: either order runs both pipelines, whose states are equal by `sampleStep_comm`. -/
theorem samplesOfTheTwoLanesCommute : Obligations.SamplesOfTheTwoLanesCommute := by
  intro s x y hsized hlife hx hy
  have hcomm := (sampleStep_comm (c := 0) (d := 1) (by decide) s x y).2
  obtain ⟨s1, hs1, hs2⟩ := exec_two_samples (c := 0) (d := 1) (by decide) hsized hlife hx hy
  obtain ⟨t1, ht1, ht2⟩ := exec_two_samples (c := 1) (d := 0) (by decide) hsized hlife hy hx
  rw [hcomm] at ht2
  exact ⟨s1, _, t1, _, (s.sampleStep 0 x).2, (s.sampleStep 1 y).2, hs1, hs2, ht1, ht2, rfl, rfl, withOutside_eq_of_log ..⟩

end Sys2Proof.Machine
end

section
/-! The staging registers are read by `BLOCK` and `RDPARAM` alone (R122): every other command commutes with a change of
them. -/

namespace Sys2Proof.Machine

/-- The commands whose effect neither reads nor writes the staging registers. -/
def IgnoresParam (i : Instr) : Prop :=
  (∀ n, i ≠ .block n) ∧ (∀ sp q, i ≠ .rdparam sp q) ∧ ∀ q u, i ≠ .wrparam q u

section
variable (p : Vector W32 13) (l : List Reply)

theorem statusItem_withOutside (s : State) (idx : BitVec 16) : (s.withOutside p l).statusItem idx = s.statusItem idx := (rfl)

/-- No check of a command reads the staging registers. -/
theorem verdict_withOutside (i : Instr) (s : State) : verdict i (s.withOutside p l) = verdict i s := by
  cases i with
  | rdstat idx => simp only [verdict, statusItem_withOutside]
  | _ => rfl

theorem refusalBase_withOutside (i : Instr) (s : State) :
    refusalBase i (s.withOutside p l) = (refusalBase i s).withOutside p l := by
  cases i <;> rfl

/-- Such an effect carries the staging registers along. -/
theorem effect_withOutside {i : Instr} (hi : IgnoresParam i) (s : State) :
    effect i (s.withOutside p l) = ((effect i s).1.withOutside p l, (effect i s).2) := by
  cases i with
  | block n => exact absurd rfl (hi.1 n)
  | rdparam sp q => exact absurd rfl (hi.2.1 sp q)
  | wrparam q u => exact absurd rfl (hi.2.2 q u)
  | rdstat idx => simp only [effect, statusItem_withOutside]
  | sample c x => exact sampleStep_withOutside p l s c x
  | tapStep c i u => exact tapStep_withOutside p l s c i u
  | rvStep c u => exact rvSum_withOutside p l s c u
  | lfoStep id n => cases id <;> rfl
  | lfoRd id => cases id <;> rfl
  | _ => rfl

end

/-- What such a command leaves, with other staging registers: the same response, the same state but for them. -/
theorem exec_withOutside {i : Instr} (hi : IgnoresParam i) {s t : State} (p : Vector W32 13) (h : exec i s = .next t) :
    exec i (s.withOutside p s.log) = .next (t.withOutside p t.log) := by
  rcases exec_next h with ⟨hv, rfl⟩ | ⟨e, hv, rfl⟩
  · have hlog : (effect i s).1.log = s.log := (effect_moves hv).control.outside.2.2.2
    rw [exec_of_accepted (verdict_withOutside p s.log i s ▸ hv), effect_withOutside p s.log hi, ← hlog]
    rfl
  · have hlog : (refusalBase i s).log = s.log := (refusalBase_moves i s).control.outside.2.2.2
    rw [exec_of_refused (verdict_withOutside p s.log i s ▸ hv), refusalBase_withOutside, ← hlog]
    rfl

/-- Settles O21: the command commutes with the change of the staging registers, which it does not write. -/
theorem parameterWriteIsInvisibleUntilBlock : Obligations.ParameterWriteIsInvisibleUntilBlock := by
  intro i s t p v hblock hread hwrite h
  obtain ⟨-, hparam, -⟩ := controlRegistersHaveTheirStatedWriters i s t h
  rw [hparam hwrite]
  exact exec_withOutside ⟨hblock, hread, hwrite⟩ (s.param.set p.val v p.isLt) h

end Sys2Proof.Machine
end

section
/-! The ring buffer and the delay line (R142 to R147, R154 to R157): what a write makes of the reads that follow, and
the commands that read or write one ring. -/

namespace Sys2Proof.Machine

/-! ## The index of a read (R145) -/

/-- An allocated ring has room for a word. -/
theorem Ring.cap_pos {g : Ring} (hcap : g.cap ≠ 0) : 0 < g.cap.toNat :=
  Nat.pos_of_ne_zero fun h => hcap (BitVec.eq_of_toNat_eq h)

theorem Ring.readIndex_emod (g : Ring) (k : Int) : g.readIndex (k % g.cap.toNat) = g.readIndex k := by
  rw [Ring.readIndex, Int.sub_emod_emod, Ring.readIndex]

/-- A delay past the capacity wraps. -/
theorem Ring.read_emod (g : Ring) (k : Int) : g.read (k % g.cap.toNat) = g.read k := by
  rw [Ring.read, Ring.readIndex_emod, Ring.read]

/-- The mask of R143 has moved the write index to the place after the newest word, so delay 0 is that word's index. -/
theorem Ring.readIndex_write_zero {g : Ring} (h : g.Ok) (hcap : g.cap ≠ 0) (v : W32) :
    (g.write v).readIndex 0 = g.widx.toNat := by
  have hlt := h.widxBelow hcap
  have hindex : (((g.write v).widx.toNat : Int) - 1 - 0) % g.cap.toNat = g.widx.toNat := by
    rw [Ring.write_widx_toNat h hcap, Int.natCast_mod, sub_zero, Int.emod_sub_emod, Nat.cast_add_one,
      add_sub_cancel_right]
    exact Int.emod_eq_of_lt (by omega) (by omega)
  exact congrArg Int.toNat hindex

/-- A write makes every earlier word one place older. -/
theorem Ring.readIndex_write_succ {g : Ring} (h : g.Ok) (hcap : g.cap ≠ 0) (v : W32) (k : Int) :
    (g.write v).readIndex (k + 1) = g.readIndex k := by
  have hindex : (((g.write v).widx.toNat : Int) - 1 - (k + 1)) % g.cap.toNat =
      (g.widx.toNat - 1 - k) % g.cap.toNat := by
    rw [Ring.write_widx_toNat h hcap, Int.natCast_mod, sub_sub, Int.emod_sub_emod]
    congr 1
    omega
  exact congrArg Int.toNat hindex

/-- The place a write fills is the oldest one, `cap - 1` behind the newest word: no smaller delay reads it. -/
theorem Ring.readIndex_ne_widx {g : Ring} (h : g.Ok) (hcap : g.cap ≠ 0) {k : Nat} (hk : k + 1 < g.cap.toNat) :
    g.readIndex k ≠ g.widx.toNat := by
  have hlt := h.widxBelow hcap
  rw [Ring.readIndex]
  rcases Nat.lt_or_ge k g.widx.toNat with hbefore | hafter
  · rw [Int.emod_eq_of_lt (by omega) (by omega)]
    omega
  · rw [← Int.add_emod_right, Int.emod_eq_of_lt (by omega) (by omega)]
    omega

/-! ## A read after a write (R143, R145) -/

theorem Ring.read_write_zero {g : Ring} (h : g.Ok) (hcap : g.cap ≠ 0) (v : W32) : (g.write v).read 0 = v := by
  rw [Ring.read, Ring.readIndex_write_zero h hcap, Ring.memRead_write_mem h, if_pos rfl]

theorem Ring.read_write_succ {g : Ring} (h : g.Ok) (hcap : g.cap ≠ 0) (v : W32) {k : Nat} (hk : k + 1 < g.cap.toNat) :
    (g.write v).read (k + 1) = g.read k := by
  rw [Ring.read, Ring.readIndex_write_succ h hcap, Ring.memRead_write_mem h, if_neg (Ring.readIndex_ne_widx h hcap hk),
    Ring.read]

/-- An allocated ring in which the words `ws`, newest first, have been written since its creation: a read below the
capacity answers one of them, or the zero fill (R141, R145). -/
structure Ring.Holds (g : Ring) (ws : List W32) : Prop where
  ok : g.Ok
  allocated : g.cap ≠ 0
  read : ∀ k < g.cap.toNat, g.read k = ws.getD k 0

/-- A created ring has had no word written. -/
theorem Ring.holds_create (g : Ring) {len : Nat} (h : len ≤ 2 ^ 19) : (g.create len).Holds [] where
  ok := g.create_ok h
  allocated h0 := by
    have hcap := g.create_cap_toNat h
    obtain ⟨k, hk⟩ := nextPow2_isPow2 len
    rw [h0, hk] at hcap
    exact (Nat.two_pow_pos k).ne hcap
  read _ _ := rfl

theorem Ring.Holds.write {g : Ring} {ws : List W32} (h : g.Holds ws) (v : W32) : (g.write v).Holds (v :: ws) where
  ok := Ring.write_ok h.ok h.allocated v
  allocated := h.allocated
  read
    | 0, _ => Ring.read_write_zero h.ok h.allocated v
    | k + 1, hk => (Ring.read_write_succ h.ok h.allocated v hk).trans (h.read k (Nat.lt_of_succ_lt hk))

/-- The read at any delay: R145 (b) and (c). -/
theorem Ring.Holds.read_mod {g : Ring} {ws : List W32} (h : g.Holds ws) (d : Nat) :
    g.read d = ws.getD (d % g.cap.toNat) 0 := by
  rw [← g.read_emod, ← Int.natCast_mod]
  exact h.read _ (Nat.mod_lt d (Ring.cap_pos h.allocated))

/-! ## The commands on an allocated ring -/

section
variable {s : State} {r : RingId}

theorem exec_rbWrite (hcap : (s.rb[r]).cap ≠ 0) (v : W32) :
    exec (.rbWrite r v) s = .next ((s.rbWrite r v).respond .ok 0) :=
  exec_of_accepted (if_pos (allocated_iff.2 hcap))

theorem exec_dlWrite (hcap : (s.rb[r]).cap ≠ 0) :
    exec (.dlWrite r) s =
      .next ((s.dlWrite r s.a[0] s.a[1] s.a[2]).respond .ok (dlWord s.a[0] s.a[1] s.a[2])) :=
  exec_of_accepted (if_pos (allocated_iff.2 hcap))

theorem exec_rbReadi (hcap : (s.rb[r]).cap ≠ 0) (d : W32) :
    exec (.rbReadi r d) s = .next (s.respond .ok ((s.rb[r]).read d.toNat)) :=
  exec_of_accepted (if_pos (allocated_iff.2 hcap))

theorem exec_rbReadf (hcap : (s.rb[r]).cap ≠ 0) {d : F32} (hd : F32.isFinite d = true) :
    exec (.rbReadf r d) s = .next (s.respond .ok ((s.rb[r]).readf d)) := by
  refine exec_of_accepted ?_
  rw [verdict, if_pos (allocated_iff.2 hcap), if_pos hd]

theorem exec_dlRead (hlife : s.life ≠ .unprep) (hcap : (s.rb[r]).cap ≠ 0) :
    exec (.dlRead r) s = .next (s.respond .ok (s.dlRead r)) := by
  refine exec_of_accepted ?_
  rw [verdict, prepared_iff.2 hlife, allocated_iff.2 hcap, Bool.and_self, if_pos rfl]

/-- The word `rb_read` reads, as a word of the state. -/
theorem State.word_readIndex (s : State) (r : RingId) (k : Int) :
    s.word r ((s.rb[r]).readIndex k) = (s.rb[r]).read k := rfl

/-- A word of any ring after a write in ring `r`. -/
theorem State.word_rbWrite (h : (s.rb[r]).Ok) (v : W32) (r' : RingId) (i : Nat) :
    (s.rbWrite r v).word r' i = if r' = r ∧ i = (s.rb[r]).widx.toNat then v else s.word r' i := by
  rw [State.word, State.rbWrite, setRing_get]
  by_cases hr : r = r'
  · subst hr
    simp only [↓reduceIte, Ring.memRead_write_mem h, true_and, State.word]
  · rw [if_neg hr, if_neg fun hri => hr hri.1.symm, State.word]

/-- What `rb_write` in ring `r`, answered with `d`, leaves: the word stored, the index advanced, all else kept. -/
theorem State.rbWrite_respond_stores (h : (s.rb[r]).Ok) (hcap : (s.rb[r]).cap ≠ 0) (v d : W32) :
    let t := (s.rbWrite r v).respond .ok d
    t = { s with rb := t.rb, log := ⟨s.port, .ok, d⟩ :: s.log } ∧
    t.word r (s.rb[r]).widx.toNat = v ∧
    (∀ (r' : RingId) (i : Nat), (r' ≠ r ∨ i ≠ (s.rb[r]).widx.toNat) → t.word r' i = s.word r' i) ∧
    (t.rb[r]).widx.toNat = ((s.rb[r]).widx.toNat + 1) % (s.rb[r]).cap.toNat ∧
    (t.rb[r]).cap = (s.rb[r]).cap ∧ (t.rb[r]).interp = (s.rb[r]).interp ∧
    ∀ r' : RingId, r' ≠ r → t.rb[r'] = s.rb[r'] := by
  intro t
  have hword (r' i) : t.word r' i = if r' = r ∧ i = (s.rb[r]).widx.toNat then v else s.word r' i :=
    State.word_rbWrite h v r' i
  have hring : t.rb[r] = (s.rb[r]).write v := (setRing_get s r r _).trans (if_pos rfl)
  rw [hring]
  refine ⟨rfl, ?stored, fun r' i hri => ?kept, Ring.write_widx_toNat h hcap v, rfl, rfl, fun r' hr => ?other⟩
  case stored => rw [hword, if_pos ⟨rfl, rfl⟩]
  case kept => rw [hword, if_neg (not_and_or.2 hri)]
  case other => exact (setRing_get s r r' _).trans (if_neg hr.symm)

end

/-! ## The obligations of one command -/

/-- Settles O35: the command answers `rb_write`. -/
theorem ringWriteStoresOneWord : Obligations.RingWriteStoresOneWord := fun _ v _ hok hcap =>
  ⟨_, exec_rbWrite hcap v, State.rbWrite_respond_stores hok hcap v 0⟩

/-- Settles O39: `DL_WRITE` is `rb_write` of the word it computes, answered with that word. -/
theorem delayWriteStoresInputPlusFeedback : Obligations.DelayWriteStoresInputPlusFeedback := fun _ s hok hcap =>
  ⟨_, exec_dlWrite hcap, State.rbWrite_respond_stores hok hcap (dlWord s.a[0] s.a[1] s.a[2]) _⟩

/-- Settles O36: the index of the read is a remainder by the capacity, so delays with the same remainder read alike. -/
theorem integerReadWrapsAtTheCapacity : Obligations.IntegerReadWrapsAtTheCapacity := by
  intro r d s hcap
  refine ⟨exec_rbReadi hcap d, fun d' hd => ?_⟩
  rw [exec_rbReadi hcap, exec_rbReadi hcap, hd, Int.natCast_mod, Ring.read_emod]

/-- Settles O37: the two neighbours are `rb_read` at the floor and one place further; the toggle chooses. -/
theorem fractionalReadInterpolates : Obligations.FractionalReadInterpolates := by
  intro r d s hcap hd read y1 y2 frac
  have hread (k : Int) : read k = (s.rb[r]).read k := State.word_readIndex s r k
  rw [exec_rbReadf hcap hd, Ring.readf, F32.floor_eq, ← hread, ← hread]
  cases (s.rb[r]).interp <;> rfl

/-- Settles O38: `dl_read` is the read at its delay in samples where that is finite. -/
theorem delayReadConvertsMillisecondsToSamples : Obligations.DelayReadConvertsMillisecondsToSamples := by
  intro r s hlife hcap d
  have hexec : exec (.dlRead r) s =
      .next (s.respond .ok (if F32.isFinite d then (s.rb[r]).readf d else Config.f0)) := exec_dlRead hlife hcap
  refine ⟨fun hd => ?finite, fun hd => ?notFinite⟩
  case finite =>
    rw [hexec, if_pos hd]
    exact ⟨rfl, (exec_rbReadf hcap hd).symm⟩
  case notFinite =>
    rw [hexec, hd]
    rfl

/-! ## Creation and a run of writes (R145) -/

/-- A run of `RB_WRITE` on a ring: each word written comes before the earlier ones. -/
theorem execAll_rbWrite {r : RingId} (vs : List W32) {s : State} {ws : List W32} (h : (s.rb[r]).Holds ws) :
    ∃ t, execAll (vs.map (.rbWrite r)) s = some t ∧ t.port = s.port ∧ (t.rb[r]).cap = (s.rb[r]).cap ∧
      (t.rb[r]).Holds (vs.reverse ++ ws) := by
  induction vs generalizing s ws with
  | nil => exact ⟨s, rfl, rfl, rfl, h⟩
  | cons v vs ih =>
    have hring : ((s.rbWrite r v).respond .ok 0).rb[r] = (s.rb[r]).write v :=
      (setRing_get s r r _).trans (if_pos rfl)
    obtain ⟨t, hrun, hport, hcap, hholds⟩ := ih (hring ▸ h.write v)
    refine ⟨t, ?_, hport, by rw [hcap, hring]; rfl, by simpa using hholds⟩
    rw [List.map_cons, execAll, exec_rbWrite h.allocated]
    exact hrun

/-- Settles O40: creation leaves a ring that holds no word, each write adds one, and the read is by
`Ring.Holds.read_mod`. -/
theorem ringReturnsTheWordsWritten : Obligations.RingReturnsTheWordsWritten := by
  intro s r len d vs hlife h1 h2
  let g := (s.rb[r]).create len.toNat
  have hcreate : exec (.rbCreate r len) s = .next ((s.setRing r g).respond .ok g.cap) :=
    exec_of_accepted (verdict_rbCreate hlife h1 h2)
  have hring : ((s.setRing r g).respond .ok g.cap).rb[r] = g := (setRing_get s r r g).trans (if_pos rfl)
  have hcreated : (((s.setRing r g).respond .ok g.cap).rb[r]).Holds [] := by rw [hring]; exact Ring.holds_create _ h2
  obtain ⟨t, hrun, hport, hcap, hholds⟩ := execAll_rbWrite vs hcreated
  have hpow : (t.rb[r]).cap.toNat = nextPow2 len.toNat := by rw [hcap, hring]; exact Ring.create_cap_toNat _ h2
  refine ⟨t, _, by rw [execAll, hcreate]; exact hrun, exec_rbReadi hholds.allocated d, ?_⟩
  rw [respond_log, hholds.read_mod, hpow, List.append_nil, hport]
  rfl

end Sys2Proof.Machine
end

section
/-! The one-pole smoother, the crossfade and the linear ramp (R170 to R181, R220 to R223): exact results are kept, and
a ramp that moves towards its target stops there. -/

namespace Sys2Proof

namespace F32

/-! ## Exact results -/

/-- A finite value is below the overflow threshold. -/
theorem abs_val_lt_overflow {w : F32} (hw : w.isFinite = true) : |(w.val : ℝ)| < (overflow : ℝ) := by
  have hunits : (w.units : ℝ) ≤ ((16777215 * 2 ^ 253 : Nat) : ℝ) := Nat.cast_le.2 (units_le_of_isFinite hw)
  have habs : |(w.sunits : ℝ)| = w.units := by rw [← Int.cast_abs, Int.abs_eq_natAbs, natAbs_sunits, Int.cast_natCast]
  rw [cast_val, abs_div, habs, abs_of_pos (by positivity : (0 : ℝ) < 2 ^ 149), div_lt_iff₀ (by positivity), overflow]
  push_cast at hunits ⊢
  linarith

/-- A result that is a finite F32 value is not rounded. -/
theorem RoundsTo.exact {x : ℝ} {r w : F32} (h : RoundsTo x r) (hw : w.isFinite = true) (hx : x = w.val) :
    r.isFinite = true ∧ r.val = w.val := by
  subst hx
  have hfin : r.isFinite = true := h.finite_iff.2 (abs_val_lt_overflow hw)
  have hnear := h.nearest hfin w hw
  rw [sub_self, abs_zero, abs_nonpos_iff, sub_eq_zero] at hnear
  exact ⟨hfin, by exact_mod_cast hnear⟩

section
variable {a b : F32} (ha : a.isFinite = true) (hb : b.isFinite = true)
include ha hb

theorem add_zero_exact (h0 : b.val = 0) : (add a b).isFinite = true ∧ (add a b).val = a.val :=
  (roundsTo_add ha hb).exact ha (by rw [h0, Rat.cast_zero, add_zero])

theorem zero_add_exact (h0 : a.val = 0) : (add a b).isFinite = true ∧ (add a b).val = b.val :=
  (roundsTo_add ha hb).exact hb (by rw [h0, Rat.cast_zero, zero_add])

theorem zero_mul_exact (h0 : a.val = 0) : (mul a b).isFinite = true ∧ (mul a b).val = 0 := by
  rw [← h0]
  exact (roundsTo_mul ha hb).exact ha (by rw [h0, Rat.cast_zero, zero_mul])

theorem one_mul_exact (h1 : a.val = 1) : (mul a b).isFinite = true ∧ (mul a b).val = b.val :=
  (roundsTo_mul ha hb).exact hb (by rw [h1, Rat.cast_one, one_mul])

end

theorem sub_self_exact {a : F32} (ha : a.isFinite = true) : (sub a a).isFinite = true ∧ (sub a a).val = 0 := by
  rw [← val_f0]
  exact (roundsTo_sub ha ha).exact isFinite_f0 (by rw [val_f0, Rat.cast_zero, sub_self])

/-- `toF32` of a 32-bit count does not overflow. -/
theorem isFinite_ofNat {n : Nat} (h : n < 2 ^ 32) : (ofNat n).isFinite = true := by
  have hn : (n : ℝ) < 2 ^ 32 := by exact_mod_cast h
  refine (roundsTo_ofNat n).finite_iff.2 ?_
  rw [abs_of_nonneg (Nat.cast_nonneg n), overflow]
  push_cast
  linarith

/-! ## Signs and the order -/

/-- The sign of a quotient that is no NaN. -/
theorem div_isNaN_or_sign (a b : F32) : (div a b).isNaN = true ∨ (div a b).sign = (a.sign != b.sign) := by
  unfold div
  simp only
  split_ifs
  · exact .inl (isNaN_nan ..)
  · exact .inr (sign_pack_infMag _)
  · exact .inr (sign_pack_zero _)
  · exact .inr (sign_pack _ (roundMag_lt ..))

/-- A zero added changes no value that is no NaN, up to the sign of a zero. -/
theorem add_zero_isNaN_or_key (a : F32) {z : F32} (hz : z.isFinite = true) (h0 : z.val = 0) :
    (add a z).isNaN = true ∨ a.isNaN = false ∧ (add a z).key = a.key := by
  by_cases hnan : a.isNaN = true
  · exact .inl (addAs_isNaN _ (.inl hnan))
  rw [Bool.not_eq_true] at hnan
  refine .inr ⟨hnan, ?_⟩
  by_cases hinf : a.isInf = true
  · rw [add, addAs_inf_left _ hinf hz]
  · have hfin : a.isFinite = true := by
      simp only [isNaN, isInf, isFinite, decide_eq_false_iff_not, beq_iff_eq, decide_eq_true_eq] at *
      omega
    have hval := (add_zero_exact hfin hz h0).2
    exact le_antisymm (val_le_iff.1 hval.le) (val_le_iff.1 hval.ge)

/-- `a` lies strictly past `b` on the way up, or on the way down. -/
def past (up : Bool) (a b : F32) : Bool := if up then gt a b else lt a b

theorem past_iff {up : Bool} {a b : F32} :
    past up a b = true ↔
      a.isNaN = false ∧ b.isNaN = false ∧ if up = true then b.key < a.key else a.key < b.key := by
  cases up
  · exact lt_iff
  · exact gt_iff

theorem past_eq_false_iff {up : Bool} {a b : F32} :
    past up a b = false ↔
      (a.isNaN = false → b.isNaN = false → if up = true then a.key ≤ b.key else b.key ≤ a.key) := by
  rw [← Bool.not_eq_true, past_iff, not_and, not_and]
  cases up <;> simp

theorem past_self (up : Bool) (a : F32) : past up a a = false :=
  past_eq_false_iff.2 fun _ _ => by split <;> exact le_rfl

/-- A NaN is past nothing. -/
theorem past_nan (up : Bool) {a : F32} (b : F32) (h : a.isNaN = true) : past up a b = false :=
  past_eq_false_iff.2 fun ha => by rw [h] at ha; cases ha

theorem not_past_of_past {up : Bool} {a b : F32} (h : past up b a = true) : past up a b = false := by
  obtain ⟨-, -, hkey⟩ := past_iff.1 h
  refine past_eq_false_iff.2 fun _ _ => ?_
  cases up
  · exact hkey.le
  · exact hkey.le

/-- A value on neither side of 0 is a zero or a NaN. -/
theorem isNaN_or_isZero {up : Bool} {v : F32} (hlow : past up Config.f0 v = false) (hhigh : past up v Config.f0 = false) :
    v.isNaN = true ∨ v.isZero = true := by
  by_cases hnan : v.isNaN = true
  · exact .inl hnan
  rw [Bool.not_eq_true] at hnan
  have h1 := past_eq_false_iff.1 hlow rfl hnan
  have h2 := past_eq_false_iff.1 hhigh hnan rfl
  have hkey : v.key = 0 := by
    rw [show Config.f0.key = 0 from rfl] at h1 h2
    cases up
    · exact le_antisymm h1 h2
    · exact le_antisymm h2 h1
  unfold key at hkey
  rw [isZero, beq_iff_eq]
  split at hkey <;> omega

/-- A value that is a NaN or has the sign of the way does not lie before 0 on it. -/
theorem not_past_zero {up : Bool} {v : F32} (h : v.isNaN = true ∨ v.sign = !up) : past up Config.f0 v = false := by
  refine past_eq_false_iff.2 fun _ hnan => ?_
  have hsign : v.sign = !up := h.resolve_left (by rw [hnan]; decide)
  rw [show Config.f0.key = 0 from rfl, key, hsign]
  cases up <;> simp

/-- A zero added takes a value past nothing it was not past before. -/
theorem not_past_add_zero {up : Bool} {a b z : F32} (hz : z.isFinite = true) (h0 : z.val = 0)
    (h : past up a b = false) : past up (add a z) b = false := by
  rcases add_zero_isNaN_or_key a hz h0 with hnan | ⟨hnan, hkey⟩
  · exact past_nan up b hnan
  · refine past_eq_false_iff.2 fun _ hb => ?_
    rw [hkey]
    exact past_eq_false_iff.1 h hnan hb

/-- The difference from a value to one past it has the sign of the way. -/
theorem sign_sub_of_past {up : Bool} {a b : F32} (ha : a.isFinite = true) (hb : b.isFinite = true)
    (h : past up a b = true) : (sub a b).sign = !up := by
  rw [sub_of_finite ha hb, sign_ofUnits]
  cases up
  · have hlt : a.sunits < b.sunits := (lt_iff_sunits ha hb).1 h
    rw [if_neg (by omega), decide_eq_true (by omega)]
    rfl
  · have hlt : b.sunits < a.sunits := (lt_iff_sunits hb ha).1 h
    rw [if_neg (by omega), decide_eq_false (by omega)]
    rfl

end F32

namespace Machine

/-! ## Commands that only answer -/

theorem exec_smCoeff {tau : F32} {s : State} (hlife : s.life ≠ .unprep) (hfin : F32.isFinite tau = true)
    (hpos : F32.gt tau Config.f0 = true) : exec (.smCoeff tau) s = .next (s.respond .ok (smCoeff s.fs tau)) := by
  refine exec_of_accepted ?_
  rw [verdict, if_pos (prepared_iff.2 hlife), if_pos (by rw [positiveFinite, hfin, hpos]; rfl)]

/-- Settles O41: the checks of these commands pass, and their effect is to answer the unit function. -/
theorem pureArithmeticCommandsAnswerTheirFormula : Obligations.PureArithmeticCommandsAnswerTheirFormula := fun _ =>
  ⟨exec_of_accepted rfl, exec_of_accepted rfl, exec_of_accepted rfl, fun _ => exec_smCoeff⟩

/-- Settles O44: an exact zero times a finite value adds nothing, and 1 times a value is the value. -/
theorem onePoleAndCrossfadeFixedPoints : Obligations.OnePoleAndCrossfadeFixedPoints := by
  intro d w k hd hw hk
  refine ⟨?onepole, ?dry, ?wet⟩
  case onepole =>
    obtain ⟨hdiff, hdiff0⟩ := F32.sub_self_exact hd
    obtain ⟨hprod, hprod0⟩ := F32.zero_mul_exact hdiff hk hdiff0
    obtain ⟨hsum, hval⟩ := F32.add_zero_exact hd hprod hprod0
    exact (F32.feq_iff_val hsum hd).2 hval
  case dry =>
    have hweight : F32.sub Config.f1 Config.f0 = Config.f1 := by decide
    obtain ⟨hdry, hdryval⟩ := F32.one_mul_exact F32.isFinite_f1 hd F32.val_f1
    obtain ⟨hwet, hwet0⟩ := F32.zero_mul_exact F32.isFinite_f0 hw F32.val_f0
    obtain ⟨hsum, hval⟩ := F32.add_zero_exact hdry hwet hwet0
    rw [mix, hweight]
    exact (F32.feq_iff_val hsum hd).2 (hval.trans hdryval)
  case wet =>
    obtain ⟨hweight, hweight0⟩ := F32.sub_self_exact F32.isFinite_f1
    obtain ⟨hdry, hdry0⟩ := F32.zero_mul_exact hweight hd hweight0
    obtain ⟨hwet, hwetval⟩ := F32.one_mul_exact F32.isFinite_f1 hw F32.val_f1
    obtain ⟨hsum, hval⟩ := F32.zero_add_exact hdry hwet hdry0
    exact (F32.feq_iff_val hsum hw).2 (hval.trans hwetval)

/-! ## The ramp commands (R174, R177) -/

theorem exec_rampSet {c : Lane} {q : RampId} {g : F32} {s : State} (hlife : s.life ≠ .unprep)
    (hg : F32.isFinite g = true) :
    exec (.rampSet c q g) s = .next ((s.setRamp c q (((s.ch[c]).ramp[q]).setTarget s.nRamp g)).respond .ok 0) := by
  refine exec_of_accepted ?_
  rw [verdict, if_pos (prepared_iff.2 hlife), if_pos hg]

theorem exec_rampAdv {c : Lane} {q : RampId} {n : W32} {s : State} (hlife : s.life ≠ .unprep) :
    exec (.rampAdv c q n) s = .next ((s.setRamp c q (((s.ch[c]).ramp[q]).advance n.toNat)).respond .ok
      (((s.ch[c]).ramp[q]).advance n.toNat).cur) :=
  exec_of_accepted (if_pos (prepared_iff.2 hlife))

theorem setRamp_lane (s : State) (c : Lane) (q : RampId) (x : Ramp) :
    (s.setRamp c q x).ch[c] = { s.ch[c] with ramp := (s.ch[c]).ramp.set q.val x q.isLt } :=
  (setCh_get s c c _).trans (if_pos rfl)

theorem setRamp_ramp (s : State) (c : Lane) (q : RampId) (x : Ramp) : ((s.setRamp c q x).ch[c]).ramp[q] = x := by
  rw [setRamp_lane]
  exact getElem_set_fin_self _ q x

/-- What writing ramp `q` of lane `c` and answering leaves alone. -/
theorem setRamp_respond_frame (s : State) (c : Lane) (q : RampId) (x : Ramp) (d : W32) :
    let t := (s.setRamp c q x).respond .ok d
    t = { s with ch := t.ch, log := ⟨s.port, .ok, d⟩ :: s.log } ∧
    t.ch[c] = { s.ch[c] with ramp := (t.ch[c]).ramp } ∧
    (∀ q' : RampId, q' ≠ q → (t.ch[c]).ramp[q'] = (s.ch[c]).ramp[q']) ∧ ∀ c' : Lane, c' ≠ c → t.ch[c'] = s.ch[c'] := by
  intro t
  have hlane : t.ch[c] = { s.ch[c] with ramp := (s.ch[c]).ramp.set q.val x q.isLt } := setRamp_lane s c q x
  refine ⟨rfl, by rw [hlane], fun q' hq => ?_, fun c' hc => (setCh_get s c c' _).trans (if_neg hc.symm)⟩
  rw [hlane]
  exact getElem_set_fin_ne _ hq.symm x

/-! ## `ramp_set` and `ramp_adv` -/

/-- The value a ramp takes `n` steps on, short of its end: it stops where the sum passes the target (R177). -/
def Ramp.glide (x : Ramp) (n : Nat) : F32 :=
  let v := F32.add x.cur (F32.mul x.step (F32.ofNat n))
  if (F32.gt x.step Config.f0 && F32.gt v x.tgt) || (F32.lt x.step Config.f0 && F32.lt v x.tgt) then x.tgt else v

/-- What an advance does to a ramp: nothing, it lands it, or it moves it on. -/
theorem Ramp.advance_cases (x : Ramp) (n : Nat) :
    (x.cnt = 0 ∨ n = 0) ∧ x.advance n = x ∨
    ¬(x.cnt = 0 ∨ n = 0) ∧ x.cnt.toNat ≤ n ∧ x.advance n = { x with cur := x.tgt, cnt := 0 } ∨
    ¬(x.cnt = 0 ∨ n = 0) ∧ n < x.cnt.toNat ∧
      x.advance n = { x with cur := x.glide n, cnt := BitVec.ofNat 32 (x.cnt.toNat - n) } := by
  unfold Ramp.advance
  by_cases hidle : x.cnt = 0 ∨ n = 0
  · exact .inl ⟨hidle, if_pos hidle⟩
  rw [if_neg hidle]
  by_cases hland : x.cnt.toNat ≤ n
  · exact .inr (.inl ⟨hidle, hland, if_pos hland⟩)
  · exact .inr (.inr ⟨hidle, Nat.lt_of_not_le hland, if_neg hland⟩)

theorem Ramp.advance_tgt (x : Ramp) (n : Nat) : (x.advance n).tgt = x.tgt := by
  rcases x.advance_cases n with ⟨-, h⟩ | ⟨-, -, h⟩ | ⟨-, -, h⟩ <;> rw [h]

theorem Ramp.advance_step (x : Ramp) (n : Nat) : (x.advance n).step = x.step := by
  rcases x.advance_cases n with ⟨-, h⟩ | ⟨-, -, h⟩ | ⟨-, -, h⟩ <;> rw [h]

/-- An advance by `n` leaves `n` steps less to go. -/
theorem Ramp.advance_cnt (x : Ramp) (n : Nat) : (x.advance n).cnt.toNat = x.cnt.toNat - n := by
  rcases x.advance_cases n with ⟨hidle, h⟩ | ⟨-, hle, h⟩ | ⟨-, -, h⟩
  · rw [h]
    rcases hidle with h0 | h0 <;> simp [h0]
  · rw [h]
    exact (Nat.sub_eq_zero_of_le hle).symm
  · rw [h]
    exact (BitVec.toNat_ofNat ..).trans (Nat.mod_eq_of_lt (by omega))

theorem Ramp.foldl_advance_cnt (ns : List Nat) (x : Ramp) :
    (ns.foldl Ramp.advance x).cnt.toNat = x.cnt.toNat - ns.sum := by
  induction ns generalizing x with
  | nil => rfl
  | cons n ns ih => rw [List.foldl_cons, ih, x.advance_cnt, List.sum_cons, Nat.sub_sub]

/-- `ramp_adv` by a word, as R177 writes it. -/
theorem Ramp.advance_word (x : Ramp) (n : W32) :
    x.advance n.toNat =
      if x.cnt = 0 ∨ n = 0 then x
      else if x.cnt.toNat ≤ n.toNat then { x with cur := x.tgt, cnt := 0 }
      else { x with cur := x.glide n.toNat, cnt := x.cnt - n } := by
  have hzero : n.toNat = 0 ↔ n = 0 := BitVec.toNat_inj (y := 0)
  rcases x.advance_cases n.toNat with ⟨hidle, h⟩ | ⟨hidle, hle, h⟩ | ⟨hidle, hlt, h⟩ <;> rw [h] <;> rw [hzero] at hidle
  · rw [if_pos hidle]
  · rw [if_neg hidle, if_pos hle]
  · have hcnt : BitVec.ofNat 32 (x.cnt.toNat - n.toNat) = x.cnt - n := by bv_omega
    rw [if_neg hidle, if_neg (Nat.not_le.2 hlt), hcnt]

/-- Settles O42: the frame is that of writing one ramp, and what is written is `ramp_set` or `ramp_adv`. -/
theorem rampCommandsMoveOneRamp : Obligations.RampCommandsMoveOneRamp := by
  intro s c q hlife x moved
  have hmoved (y : Ramp) (d : W32) : moved ((s.setRamp c q y).respond .ok d) y d := by
    obtain ⟨hglobals, hlane, hramps, hother⟩ := setRamp_respond_frame s c q y d
    exact ⟨hglobals, setRamp_ramp s c q y, hlane, hramps, hother⟩
  refine ⟨fun g hg => ⟨_, exec_rampSet hlife hg, ?set⟩, fun n => ⟨_, exec_rampAdv hlife, ?adv⟩⟩
  case set =>
    convert hmoved (x.setTarget s.nRamp g) 0 using 1
    unfold Ramp.setTarget F32.fne
    cases F32.feq g x.tgt <;> rfl
  case adv =>
    convert hmoved (x.advance n.toNat) (x.advance n.toNat).cur using 1
    · rw [Ramp.advance_word]
      simp only [Ramp.glide, Bool.or_eq_true, Bool.and_eq_true]
    · exact congrArg Ramp.cur (setRamp_ramp s c q _)

/-! ## A ramp on its way (R179) -/

/-- A ramp to `g` that stands there once it has no step to go. -/
structure Ramp.Aims (g : F32) (x : Ramp) : Prop where
  tgt : x.tgt = g
  landed : x.cnt = 0 → x.cur = g

theorem Ramp.Aims.advance {g : F32} {x : Ramp} (h : x.Aims g) (n : Nat) : (x.advance n).Aims g := by
  refine ⟨(x.advance_tgt n).trans h.tgt, ?_⟩
  rcases x.advance_cases n with ⟨-, hadv⟩ | ⟨-, -, hadv⟩ | ⟨-, hlt, hadv⟩
  · rw [hadv]
    exact h.landed
  · rw [hadv]
    exact fun _ => h.tgt
  · intro hcnt
    have := x.advance_cnt n
    rw [hcnt, show (0 : W32).toNat = 0 from rfl] at this
    omega

/-- A ramp not past its target on the way `up` or down, with a step that is not the other way. -/
structure Ramp.Approaches (up : Bool) (x : Ramp) : Prop where
  cur : F32.past up x.cur x.tgt = false
  step : F32.past up Config.f0 x.step = false

/-- The value short of the end is not past the target: a step along the way is stopped there, and a step that
underflowed to a zero moves nothing. -/
theorem Ramp.Approaches.glide {up : Bool} {x : Ramp} (h : x.Approaches up) {n : Nat} (hn : n < 2 ^ 32) :
    F32.past up (x.glide n) x.tgt = false := by
  unfold Ramp.glide
  simp only
  split
  case isTrue => exact F32.past_self up x.tgt
  case isFalse hfree =>
    by_cases hstep : F32.past up x.step Config.f0 = true
    · refine Bool.eq_false_of_not_eq_true fun hpast => hfree ?_
      rw [Bool.or_eq_true, Bool.and_eq_true, Bool.and_eq_true]
      cases up
      · exact .inr ⟨hstep, hpast⟩
      · exact .inl ⟨hstep, hpast⟩
    · rcases F32.isNaN_or_isZero h.step (Bool.eq_false_of_not_eq_true hstep) with hnan | hzero
      · exact F32.past_nan up _ (F32.addAs_isNaN _ (.inr (F32.mul_isNaN (.inl hnan))))
      · obtain ⟨hfin, hval⟩ := F32.zero_mul_exact (F32.isFinite_of_isZero hzero) (F32.isFinite_ofNat hn)
          (F32.val_eq_zero_iff.2 hzero)
        exact F32.not_past_add_zero hfin hval h.cur

theorem Ramp.Approaches.advance {up : Bool} {x : Ramp} (h : x.Approaches up) (n : Nat) : (x.advance n).Approaches up := by
  refine ⟨?_, by rw [x.advance_step]; exact h.step⟩
  rcases x.advance_cases n with ⟨-, hadv⟩ | ⟨-, -, hadv⟩ | ⟨-, hlt, hadv⟩ <;> rw [hadv]
  · exact h.cur
  · exact F32.past_self up x.tgt
  · exact h.glide (hlt.trans x.cnt.isLt)

/-! ## A ramp just retargeted (R174) -/

section
variable {x : Ramp} {g : F32} (hne : F32.fne g x.tgt = true)
include hne

theorem Ramp.setTarget_zero : x.setTarget 0 g = { cur := g, tgt := g, step := 0, cnt := 0 } := by
  rw [Ramp.setTarget, if_pos hne, if_pos rfl]

theorem Ramp.setTarget_pos {nRamp : W32} (hpos : nRamp ≠ 0) :
    x.setTarget nRamp g =
      { cur := x.cur, tgt := g, cnt := nRamp, step := F32.div (F32.sub g x.cur) (F32.ofNat nRamp.toNat) } := by
  rw [Ramp.setTarget, if_pos hne, if_neg hpos]

theorem Ramp.setTarget_aims (nRamp : W32) : (x.setTarget nRamp g).Aims g ∧ (x.setTarget nRamp g).cnt = nRamp := by
  by_cases h0 : nRamp = 0
  · rw [h0, Ramp.setTarget_zero hne]
    exact ⟨⟨rfl, fun _ => rfl⟩, rfl⟩
  · rw [Ramp.setTarget_pos hne h0]
    exact ⟨⟨rfl, fun h => absurd h h0⟩, rfl⟩

/-- A ramp set to a target further up or down is on its way there. -/
theorem Ramp.setTarget_approaches {up : Bool} (nRamp : W32) (hg : F32.isFinite g = true)
    (hcur : F32.isFinite x.cur = true) (hway : F32.past up g x.cur = true) : (x.setTarget nRamp g).Approaches up := by
  by_cases h0 : nRamp = 0
  · rw [h0, Ramp.setTarget_zero hne]
    exact ⟨F32.past_self up g, F32.past_self up Config.f0⟩
  · rw [Ramp.setTarget_pos hne h0]
    refine ⟨F32.not_past_of_past hway, F32.not_past_zero ?_⟩
    have hsign : (F32.sub g x.cur).sign = !up := F32.sign_sub_of_past hg hcur hway
    have hquot := F32.div_isNaN_or_sign (F32.sub g x.cur) (F32.ofNat nRamp.toNat)
    rwa [hsign, F32.sign_ofNat, Bool.bne_false] at hquot

end

/-- Settles O43: every advance keeps `Ramp.Aims` and `Ramp.Approaches`, which a retargeted ramp has. -/
theorem rampLandsOnItsTargetAndNeverPasses : Obligations.RampLandsOnItsTargetAndNeverPasses := by
  intro x nRamp g ns hg hne y
  obtain ⟨haims, hcnt⟩ := Ramp.setTarget_aims hne nRamp
  have hy : y.Aims g := List.foldlRecOn ns Ramp.advance haims fun _ h n _ => h.advance n
  refine ⟨fun hsum => ?landed, fun hcur _ => ?between⟩
  case landed =>
    have hy0 : y.cnt = 0 := by
      apply BitVec.eq_of_toNat_eq
      rw [Ramp.foldl_advance_cnt, hcnt]
      exact Nat.sub_eq_zero_of_le hsum
    exact ⟨hy.landed hy0, hy.tgt, hy0⟩
  case between =>
    have hkept (up : Bool) (hway : F32.past up g x.cur = true) : F32.past up y.cur g = false := by
      have hy' : y.Approaches up :=
        List.foldlRecOn ns Ramp.advance (Ramp.setTarget_approaches hne nRamp hg hcur hway) fun _ h n _ => h.advance n
      rw [← hy.tgt]
      exact hy'.cur
    exact ⟨hkept true, hkept false⟩

end Machine

end Sys2Proof
end

section
/-! The biquad commands (R190 to R198): the cutoff clamp, the design formulas, and the one stage each command moves. -/

namespace Sys2Proof.Machine

/-! ## One stage written -/

/-- What writing stage `b` and answering leaves alone. -/
theorem setBq_respond_frame (s : State) (b : StageId) (g : Biquad) (d : W32) :
    let t := (s.setBq b g).respond .ok d
    t = { s with bq := t.bq, log := ⟨s.port, .ok, d⟩ :: s.log } ∧ t.bq[b] = g ∧
    ∀ b' : StageId, b' ≠ b → t.bq[b'] = s.bq[b'] :=
  ⟨rfl, (setBq_get s b b g).trans (if_pos rfl), fun b' hb => (setBq_get s b b' g).trans (if_neg hb.symm)⟩

/-! ## `BQ_COEF` (R191 to R195) -/

theorem exec_bqCoef {b : StageId} {ty : BqType} {s : State} (hlife : s.life ≠ .unprep)
    (hfin : F32.isFinite s.a[1] = true) (hpos : F32.gt s.a[1] Config.f0 = true) :
    exec (.bqCoef b ty) s =
      .next ((s.setBq b ((s.bq[b]).tryLoad (bqDesign s.fs ty s.a[0] s.a[1]))).respond .ok
        (flag (bqDesign s.fs ty s.a[0] s.a[1]).finite)) := by
  refine exec_of_accepted ?_
  rw [verdict, if_pos (prepared_iff.2 hlife), if_pos (by rw [positiveFinite, hfin, hpos]; rfl)]

/-- Settles O45: the cutoff is R12's chain of comparisons, and type by type the formulas are `bqDesign`, whose
finiteness decides both the load and the answer. -/
theorem biquadCoefficientsFollowTheDesign : Obligations.BiquadCoefficientsFollowTheDesign := by
  intro b ty s hlife hfin hpos fsf top fc n n2 nq c1 a1 a2 b0 b1 b2 good
  have hcutoff : cutoff s.fs s.a[0] = fc := clamp_chain s.a[0] Config.f20 top
  have hdesign : bqDesign s.fs ty s.a[0] s.a[1] = { b0 := b0, b1 := b1, b2 := b2, a1 := a1, a2 := a2 } := by
    rw [bqDesign, bqWarp, hcutoff]
    cases ty with
    | lp => rfl
    | hp => rfl
    | ap => rfl
  have hfinite : Coeffs.finite { b0 := b0, b1 := b1, b2 := b2, a1 := a1, a2 := a2 } = good := by rw [Coeffs.finite]
  have hexec := exec_bqCoef (b := b) (ty := ty) hlife hfin hpos
  rw [hdesign, Biquad.tryLoad, hfinite] at hexec
  -- from here the five values are opaque: unification would otherwise compute them
  clear_value good a1 a2 b0 b1 b2
  exact ⟨_, hexec, setBq_respond_frame s b _ _⟩

/-! ## `BQ_STEP` and `BQ_RESET` (R196 to R198) -/

/-- Settles O46: the stage is written with `bq_step`'s shifted history, or with a cleared one. -/
theorem biquadStepAndResetMoveOneHistory : Obligations.BiquadStepAndResetMoveOneHistory := by
  intro b s g
  refine ⟨fun x hx => ⟨_, exec_of_accepted (if_pos hx), ?step⟩, _, exec_of_accepted rfl, ?reset⟩
  case step => exact setBq_respond_frame s b (g.push x) (g.out x)
  case reset => exact setBq_respond_frame s b g.clear 0

end Sys2Proof.Machine
end

section
/-! The LFO commands (R210 to R213): the wrap as a real remainder, and the one phase a step moves. -/

namespace Sys2Proof

namespace F32

/-! ## The wrap (R211) -/

/-- A value of the wrap's domain is its magnitude: the only negative pattern in it is -0.0. -/
theorem sunits_of_ge_f0 {p : F32} (hp : p.isFinite = true) (h0 : ge p Config.f0 = true) : p.sunits = p.units := by
  have hnonneg : 0 ≤ p.sunits := (ge_iff_sunits hp isFinite_f0).1 h0
  rw [← natAbs_sunits, Int.natAbs_of_nonneg hnonneg]

/-- The natural remainder as the real remainder by a division and a floor, on values in units of `1 / u`. -/
theorem cast_mod_div {u : ℚ} (hu : u ≠ 0) (a b : Nat) :
    ((a % b : Nat) : ℚ) / u = a / u - b / u * (⌊(a / u) / (b / u)⌋ : ℚ) := by
  have hsum : ((a % b : Nat) : ℚ) + b * (a / b : Nat) = a := by exact_mod_cast Nat.mod_add_div a b
  rw [div_div_div_cancel_right₀ hu, Rat.floor_natCast_div_natCast, ← Int.natCast_div, Int.cast_natCast,
    eq_sub_of_add_eq hsum]
  ring

theorem val_wrap {p : F32} (hp : p.isFinite = true) (h0 : ge p Config.f0 = true) :
    (wrap p).val = p.val - Config.fTwoPi.val * (⌊p.val / Config.fTwoPi.val⌋ : ℚ) := by
  have htwoPi : Config.fTwoPi.sunits = Config.fTwoPi.units := by decide
  rw [val_of_sunits (wrap_exact hp h0).2, val_of_sunits (sunits_of_ge_f0 hp h0), val_of_sunits htwoPi]
  exact cast_mod_div (by positivity) _ _

/-- The free sign of assumption log 6 is that of -0.0 only. -/
theorem sign_wrap {p : F32} (hp : p.isFinite = true) (h0 : ge p Config.f0 = true) (hsign : p.sign = false) :
    (wrap p).sign = false := by
  rw [wrap, if_pos (by rw [hp, h0]; rfl), sign_ofUnits, hsign]
  split
  · rfl
  · exact decide_eq_false (Int.natCast_nonneg _).not_gt

end F32

/-- Settles O53: the remainder is taken on integers, exactly. -/
theorem phaseWrapIsTheExactRemainder : Obligations.PhaseWrapIsTheExactRemainder := fun _ hp h0 =>
  ⟨F32.val_wrap hp h0, F32.phaseOk_wrap hp h0, F32.sign_wrap hp h0⟩

namespace Machine

/-! ## `LFO_STEP` (R212, R213) -/

theorem exec_lfoStep {id : LfoId} {n : BitVec 16} {s : State} (hlife : s.life ≠ .unprep)
    (hrate : rateOk s.a[0] = true) (hdepth : F32.isFinite s.a[1] = true) :
    exec (.lfoStep id n) s = .next ((s.setPhase id (lfoNext s.fs (s.phase id) s.a[0] n.toNat)).respond .ok
      (lfoOut (s.phase id) s.a[1])) := by
  refine exec_of_accepted ?_
  rw [verdict, if_pos (prepared_iff.2 hlife), if_pos (by rw [hrate, hdepth]; rfl)]

/-- A lane after a lane is given a phase: no register but its phase can differ. -/
theorem setCh_cph_lane (s : State) (c c' : Lane) (v : F32) :
    (s.setCh c { s.ch[c] with cph := v }).ch[c'] =
      { s.ch[c'] with cph := ((s.setCh c { s.ch[c] with cph := v }).ch[c']).cph } := by
  rw [setCh_get]
  split
  case isTrue h => rw [h]
  case isFalse => rfl

theorem setPhase_lane (s : State) (id : LfoId) (v : F32) (c : Lane) :
    (s.setPhase id v).ch[c] = { s.ch[c] with cph := ((s.setPhase id v).ch[c]).cph } := by
  cases id with
  | chorusLeft => exact setCh_cph_lane s 0 c v
  | chorusRight => exact setCh_cph_lane s 1 c v
  | reverb => rfl

@[simp] theorem respond_phase (s : State) (k : RspCode) (d : W32) (id : LfoId) :
    (s.respond k d).phase id = s.phase id := by
  cases id <;> rfl

/-- What writing the phase of one LFO and answering leaves alone. -/
theorem setPhase_respond_frame (s : State) (id : LfoId) (v : F32) (d : W32) :
    let t := (s.setPhase id v).respond .ok d
    t = { s with ch := t.ch, rph := t.rph, log := ⟨s.port, .ok, d⟩ :: s.log } ∧ t.phase id = v ∧
    (∀ id' : LfoId, id' ≠ id → t.phase id' = s.phase id') ∧
    ∀ c : Lane, t.ch[c] = { s.ch[c] with cph := (t.ch[c]).cph } := by
  intro t
  refine ⟨congrArg (State.respond · .ok d) (setPhase_frame s id v), ?self, fun id' hid => ?other, setPhase_lane s id v⟩
  case self => rw [respond_phase, setPhase_phase_self]
  case other => rw [respond_phase, setPhase_phase, if_neg hid.symm]

/-- Settles O47: the checks pass, and the effect writes the one phase `lfo_step` advances. -/
theorem lfoStepAnswersThenAdvances : Obligations.LfoStepAnswersThenAdvances := by
  intro id n s hlife hfin hlo hhi hdepth
  have hrate : rateOk s.a[0] = true := by rw [rateOk, hfin, hlo, hhi]; rfl
  exact ⟨_, exec_lfoStep hlife hrate hdepth, setPhase_respond_frame s id _ _⟩

end Machine

end Sys2Proof
end

section
/-! The reverb commands (R232 to R236): `TAP_STEP` is `tap_step` of one tap, `RV_STEP` the run of the lane's ten. -/

namespace Sys2Proof.Machine

section
variable {c : Lane} {u : F32} {s : State}

theorem exec_tapStep {i : TapId} (hlife : s.life ≠ .unprep) (hcap : (s.rb[tapRing c i]).cap ≠ 0)
    (hu : F32.isFinite u = true) :
    exec (.tapStep c i u) s = .next ((s.tapStep c i u).1.respond .ok (s.tapOut c i)) := by
  rw [← tapStep_snd s c i u]
  refine exec_of_accepted ?_
  rw [verdict, prepared_iff.2 hlife, allocated_iff.2 hcap, Bool.and_self, if_pos rfl, if_pos hu]

/-- The sum `RV_STEP` answers is read from the state before: no tap reads what another has written. -/
theorem exec_rvStep (hlife : s.life ≠ .unprep) (hcap : ∀ i : TapId, (s.rb[tapRing c i]).cap ≠ 0)
    (hu : F32.isFinite u = true) :
    exec (.rvStep c u) s = .next ((s.tapsRun c u taps Config.f0).1.respond .ok
      (taps.foldl (fun acc i => F32.add acc (F32.mul (s.ch[c]).rlS (s.tapOut c i))) Config.f0)) := by
  rw [← tapsRun_snd c u taps s Config.f0 nodup_taps]
  refine exec_of_accepted ?_
  rw [verdict, prepared_iff.2 hlife, tapsAllocated_iff.2 hcap, Bool.and_self, if_pos rfl, if_pos hu]

end

/-- What a response adds to a state that has moved rings, delay times and stages only. -/
theorem respond_of_frame {s t : State} (h : t = { s with rb := t.rb, dl := t.dl, bq := t.bq }) (d : W32) :
    t.respond .ok d = { s with rb := (t.respond .ok d).rb, dl := (t.respond .ok d).dl, bq := (t.respond .ok d).bq,
                               log := ⟨s.port, .ok, d⟩ :: s.log } := by
  rw [h]
  rfl

/-- A stage of the other lane, or one of the first three of a lane, is in no tap (R33). -/
theorem notMem_tapStages {c : Lane} {b : StageId} (h : b.val / 63 ≠ c.val ∨ b.val % 63 < 3) (i : TapId) :
    b ∉ tapStages c i := by
  rw [mem_tapStages]
  rintro ⟨hlo, hhi⟩
  have hlane : b.val / 63 = c.val := by omega
  have hplace : 3 ≤ b.val % 63 := by omega
  omega

/-- Settles O48: field by field from the lemmas on `tap_step`. -/
theorem tapStepRunsOneTap : Obligations.TapStepRunsOneTap := by
  intro c i u s hlife hcap hu
  refine ⟨_, exec_tapStep hlife hcap hu, ?frame, ?time, ?ring, fun k => ?ap, ?tlp, fun r hr => ?otherRing,
    fun b hb => ?otherStage⟩
  case frame => exact respond_of_frame (tapStep_frame s c i u) _
  case time => rw [State.respond_dl, tapStep_dl, if_pos rfl]
  case ring => rw [State.respond_rb, tapStep_rb, if_pos rfl, dlWord]
  case ap => rw [State.respond_bq, tapStep_bq_ap]
  case tlp => rw [State.respond_bq, tapStep_bq_tlp]
  case otherRing =>
    rw [State.respond_rb, State.respond_dl, tapStep_rb, tapStep_dl, if_neg hr.symm, if_neg hr.symm]
    exact ⟨rfl, rfl⟩
  case otherStage =>
    have hout : b ∉ tapStages c i := by
      rw [mem_tapStages]
      omega
    rw [State.respond_bq, tapStep_bq_of_notMem s c i u hout]

/-- Settles O49: what a run of distinct taps makes of each tap in it, and of everything outside them. -/
theorem reverbStepSumsTheTenTaps : Obligations.ReverbStepSumsTheTenTaps := by
  intro c u s hlife hcap hu term sum
  obtain ⟨hrings, hstages⟩ := tapsRun_of_notMem c u (is := taps) s Config.f0
  have hexec := exec_rvStep hlife hcap hu
  have hsum : taps.foldl (fun acc i => F32.add acc (term i)) Config.f0 = sum := by
    simp only [taps, List.foldl_cons, List.foldl_nil, sum]
  rw [hsum] at hexec
  refine ⟨_, hexec, ?frame, fun i => ?tap, fun r hr => ?otherRing, fun b hb => ?otherStage⟩
  case frame => exact respond_of_frame (tapsRun_frame c u taps s Config.f0) _
  case tap =>
    obtain ⟨htime, hring, htlp, hap⟩ := tapsRun_of_mem c u s Config.f0 nodup_taps (mem_taps i)
    simp only [State.respond_dl, State.respond_rb, State.respond_bq]
    exact ⟨htime, hring, hap, htlp⟩
  case otherRing =>
    simp only [State.respond_dl, State.respond_rb]
    exact hrings r fun i _ => (hr i).symm
  case otherStage =>
    simp only [State.respond_bq]
    exact hstages b fun i _ => notMem_tapStages hb i

end Sys2Proof.Machine
end

section
/-! The constants (R6, R9, R234): a decimal is rounded by `roundMag`, and an irrational number rounds as two decimals
that enclose it do. -/

namespace Sys2Proof.F32

/-! ## A number between two numbers that round alike -/

/-- Of two points, the right one stays the nearer when the number moves to the right. -/
theorem nearer_right {a b x y : ℝ} (hab : a ≤ b) (hxy : x ≤ y) (h : |b - x| ≤ |a - x|) : |b - y| ≤ |a - y| := by
  rw [← sq_le_sq] at h ⊢
  nlinarith [mul_nonneg (sub_nonneg.2 hab) (sub_nonneg.2 hxy)]

/-- Of two points, the left one stays the nearer when the number moves to the left. -/
theorem nearer_left {a b x y : ℝ} (hab : a ≤ b) (hxy : x ≤ y) (h : |a - y| ≤ |b - y|) : |a - x| ≤ |b - x| := by
  rw [← sq_le_sq] at h ⊢
  nlinarith [mul_nonneg (sub_nonneg.2 hab) (sub_nonneg.2 hxy)]

/-- The numbers that round to one finite F32 form an interval. -/
theorem RoundsTo.between {x y z : ℝ} {r : F32} (hr : r.isFinite = true) (hx : RoundsTo x r) (hy : RoundsTo y r)
    (hxz : x ≤ z) (hzy : z ≤ y) : RoundsTo z r where
  finite_iff := iff_of_true hr
    ((abs_le_max_abs_abs hxz hzy).trans_lt (max_lt (hx.finite_iff.1 hr) (hy.finite_iff.1 hr)))
  infinite h := absurd hr (by rw [h]; decide)
  nearest _ w hw := by
    rcases le_total (r.val : ℝ) w.val with hle | hle
    · exact nearer_left hle hzy (hy.nearest hr w hw)
    · exact nearer_right hle hxz (hx.nearest hr w hw)
  even _ w hw hne htie := by
    rcases le_total (r.val : ℝ) w.val with hle | hle
    · exact hy.even hr w hw hne ((nearer_right hle hzy htie.le).antisymm (hy.nearest hr w hw))
    · exact hx.even hr w hw hne ((nearer_left hle hxz htie.le).antisymm (hx.nearest hr w hw))

/-! ## Decimals and natural numbers -/

/-- The F32 nearest to the fraction `n / d`. -/
def ofRatio (n d : Nat) : F32 := pack false (roundMag (n * 2 ^ 149) d)

theorem roundsTo_ofRatio (n : Nat) {d : Nat} (hd : 0 < d) : RoundsTo ((n : ℝ) / d) (ofRatio n d) := by
  have h := roundsTo_pack_false (n * 2 ^ 149) hd
  rwa [Nat.cast_mul, Nat.cast_pow, Nat.cast_ofNat, mul_div_right_comm, mul_div_cancel_right₀ _ (by positivity)] at h

/-- A constant that is `roundMag` of the fraction a rule names. -/
theorem roundsTo_of_eq_ofRatio {x : ℝ} {r : F32} (n d : Nat) (h : r = ofRatio n d) (hx : x = n / d)
    (hd : 0 < d := by decide) : RoundsTo x r := by
  rw [h, hx]
  exact roundsTo_ofRatio n hd

theorem val_of_eq_ofNat {r : F32} (n : Nat) (h : r = ofNat n) (hn : n ≤ 2 ^ 24 := by decide) : r.val = n := by
  rw [h, (ofNat_exact hn).2]

/-! ## The irrational constants -/

theorem roundsTo_fPi : RoundsTo Real.pi Config.fPi :=
  .between (x := 3.14159265) (y := 3.14159266) (by decide)
    (roundsTo_of_eq_ofRatio 314159265 100000000 (by decide) (by norm_num))
    (roundsTo_of_eq_ofRatio 314159266 100000000 (by decide) (by norm_num))
    (by linarith [Real.pi_gt_d20]) (by linarith [Real.pi_lt_d20])

theorem roundsTo_fTwoPi : RoundsTo (2 * Real.pi) Config.fTwoPi :=
  .between (x := 6.2831853) (y := 6.2831854) (by decide)
    (roundsTo_of_eq_ofRatio 62831853 10000000 (by decide) (by norm_num))
    (roundsTo_of_eq_ofRatio 62831854 10000000 (by decide) (by norm_num))
    (by linarith [Real.pi_gt_d20]) (by linarith [Real.pi_lt_d20])

theorem val_fTwoPi : Config.fTwoPi.val = 2 * Config.fPi.val := by
  have hdouble : Config.fTwoPi.sunits = 2 * Config.fPi.sunits := by decide
  rw [val_of_sunits hdouble, val, Int.cast_mul, Int.cast_ofNat, mul_div_assoc]

theorem roundsTo_qButter : RoundsTo (1 / Real.sqrt 2) Config.qButter := by
  have hsqrt : 1 / Real.sqrt 2 = Real.sqrt (1 / 2) := by rw [Real.sqrt_div zero_le_one, Real.sqrt_one]
  rw [hsqrt]
  exact .between (x := 0.70710678) (y := 0.70710679) (by decide)
    (roundsTo_of_eq_ofRatio 70710678 100000000 (by decide) (by norm_num))
    (roundsTo_of_eq_ofRatio 70710679 100000000 (by decide) (by norm_num))
    (Real.le_sqrt_of_sq_le (by norm_num)) (Real.sqrt_le_iff.2 (by norm_num))

/-! ## The decay gains (R234) -/

theorem decay_eq_ofRatio (i : TapId) : Config.decay i = ofRatio (90 - i.val) 100 := by
  revert i
  decide

theorem roundsTo_decay (i : TapId) : RoundsTo (0.9 - 0.01 * i.val) (Config.decay i) := by
  refine roundsTo_of_eq_ofRatio _ _ (decay_eq_ofRatio i) ?_
  rw [Nat.cast_sub (by omega)]
  push_cast
  ring

/-! ## Exact constants -/

theorem val_apHz (k : Fin 5) : (Config.apHz k).val = 500 + 1125 * k.val := by
  have hnat : Config.apHz k = ofNat (500 + 1125 * k.val) := by
    revert k
    decide
  rw [val_of_eq_ofNat _ hnat (by omega)]
  push_cast
  rfl

theorem val_tauLrg : Config.tauLrg.val = 1 / 2 := by
  rw [val_of_sunits (i := 2 ^ 148) (by decide)]
  norm_num

/-- Settles O51: constant by constant, the fraction or the natural number its rule names. -/
theorem constantsAreTheNearestValues : Obligations.ConstantsAreTheNearestValues := by
  refine ⟨roundsTo_fPi, roundsTo_fTwoPi, val_fTwoPi, roundsTo_qButter, ?f045, ?fTenth, ?tauGen, ?tauSml, ?rvLfoHz,
    ?rvLfoDepthMs, val_tauLrg, val_f1, ?f2, ?f3, ?f20, ?f1000, ?f7000, ?tlpHz, ?fRateMax, val_apHz, roundsTo_decay,
    ?falling⟩
  case f045 => exact roundsTo_of_eq_ofRatio 45 100 (by decide) (by norm_num)
  case fTenth => exact roundsTo_of_eq_ofRatio 1 10 (by decide) (by norm_num)
  case tauGen => exact roundsTo_of_eq_ofRatio 1 100 (by decide) (by norm_num)
  case tauSml => exact roundsTo_of_eq_ofRatio 1 1000 (by decide) (by norm_num)
  case rvLfoHz => exact roundsTo_of_eq_ofRatio 5 1000 (by decide) (by norm_num)
  case rvLfoDepthMs => exact roundsTo_of_eq_ofRatio 5 1000 (by decide) (by norm_num)
  case f2 => exact val_of_eq_ofNat 2 (by decide)
  case f3 => exact val_of_eq_ofNat 3 (by decide)
  case f20 => exact val_of_eq_ofNat 20 (by decide)
  case f1000 => exact val_of_eq_ofNat 1000 (by decide)
  case f7000 => exact val_of_eq_ofNat 7000 (by decide)
  case tlpHz => exact val_of_eq_ofNat 3300 (by decide)
  case fRateMax => exact val_of_eq_ofNat 262144 (by decide)
  case falling => decide

end Sys2Proof.F32
end

section
/-! The response code of a command and what a refusal leaves (R252, R253, R256 to R258). -/

namespace Sys2Proof.Machine

/-! ## The checks of R256 in a state that has its rings (R39 (b)) -/

section
variable {s : State}

/-- The allocation test of a tap ring never fails in a prepared state. -/
theorem State.sizedOk.prepared_and_allocated (h : s.sizedOk) (r : RingId) :
    (s.prepared && s.allocated r) = s.prepared :=
  Bool.and_eq_left_iff_imp.2 fun hp => allocated_iff.2 (h.cap_ne_zero (prepared_iff.1 hp) r)

/-- The allocation test of the ten tap rings never fails in a prepared state. -/
theorem State.sizedOk.prepared_and_tapsAllocated (h : s.sizedOk) (c : Lane) :
    (s.prepared && s.tapsAllocated c) = s.prepared :=
  Bool.and_eq_left_iff_imp.2 fun hp => tapsAllocated_iff.2 fun _ => h.cap_ne_zero (prepared_iff.1 hp) _

/-- The allocation test of a lane never fails in the running state. -/
theorem State.sizedOk.running_and_laneAllocated (h : s.sizedOk) (c : Lane) :
    (s.life == .run && s.laneAllocated c) = (s.life == .run) := by
  refine Bool.and_eq_left_iff_imp.2 fun hrun => ?_
  have hprep : s.life ≠ .unprep := by rw [beq_iff_eq.1 hrun]; decide
  exact laneAllocated_iff.2 ⟨h.cap_ne_zero hprep _, fun _ => h.cap_ne_zero hprep _⟩

end

/-! ## The verdict is the first failing check -/

/-- The checks of R256, R258 and R257 in the order of R253: a test a command does not have is `true` and
computes away, and an allocation test beside a lifecycle test never fails where the rings exist. -/
theorem verdict_eq_firstFailingCheck {s : State} (h : s.sizedOk) (i : Instr) :
    verdict i s =
      if i.wellFormed then
        if stateAllows i s then
          if valueAllows i s then
            if configAllows i then none else some .config
          else some .range
        else some .state
      else some .illegal := by
  cases i with
  | sample c x => rw [verdict, h.running_and_laneAllocated]; rfl
  | tapStep c k u => rw [verdict, h.prepared_and_allocated]; rfl
  | rvStep c u => rw [verdict, h.prepared_and_tapsAllocated]; rfl
  | rdstat idx => rw [verdict, statusItem_isSome]; rfl
  | block n =>
    have hvalue : valueAllows (.block n) s = true ↔ n.toNat ≤ s.maxBlk.toNat := decide_eq_true_iff
    simp only [hvalue]; rfl
  | rbCreate r len =>
    have hstate : stateAllows (.rbCreate r len) s = true ↔ ¬s.prepared = true := by
      rw [prepared_iff, not_not]; exact beq_iff_eq
    have hvalue : valueAllows (.rbCreate r len) s = true ↔ 1 ≤ len.toNat ∧ len.toNat ≤ Config.capMax :=
      Bool.and_eq_true_iff.trans (and_congr decide_eq_true_iff decide_eq_true_iff)
    simp only [hstate, hvalue, ite_not]; rfl
  | _ => rfl

/-- The code a verdict is answered with (R71). -/
def verdictCode : Option ErrCode → RspCode
  | none => .ok
  | some e => .err e

/-- The verdict's code is the one the first failing check calls for. -/
theorem verdictCode_verdict {s : State} (h : s.sizedOk) (i : Instr) : verdictCode (verdict i s) = expectedCode i s := by
  rw [verdict_eq_firstFailingCheck h, expectedCode]
  simp only [Bool.not_eq_true', ← Bool.not_eq_true, ite_not, apply_ite verdictCode]
  rfl

/-- Every command answers the code of its verdict, in every state. -/
theorem exec_answers_verdictCode (i : Instr) (s : State) :
    ∃ t data, exec i s = .next t ∧ t.log = ⟨s.port, verdictCode (verdict i s), data⟩ :: s.log := by
  cases hv : verdict i s with
  | none =>
    obtain ⟨-, -, hport, hlog⟩ := (effect_moves hv).control.outside
    exact ⟨_, _, exec_of_accepted hv, by rw [respond_log, hport, hlog]; rfl⟩
  | some e =>
    obtain ⟨-, -, hport, hlog⟩ := (refusalBase_moves i s).control.outside
    exact ⟨_, _, exec_of_refused hv, by rw [refuse_log, hport, hlog]; rfl⟩

/-- Settles O12: the code answered is the verdict's, and the verdict is the first failing check. -/
theorem responseCodeIsFirstFailingCheck : Obligations.ResponseCodeIsFirstFailingCheck := by
  intro i s h
  rw [← verdictCode_verdict h]
  exact exec_answers_verdictCode i s

/-! ## A refused command -/

/-- Only `PREPARE` does anything before it is refused (R103, R252). -/
theorem refusalBase_eq_self {i : Instr} (h : ∀ m f, i ≠ .prepare m f) (s : State) : refusalBase i s = s := by
  cases i with
  | prepare m f => exact absurd rfl (h m f)
  | _ => rfl

/-- Settles O13: an error code is answered by a refusal only, and the refusal starts from the state itself. -/
theorem refusedCommandChangesOnlyItsStickyBit : Obligations.RefusedCommandChangesOnlyItsStickyBit := by
  intro i s t e data hi hexec hlog
  obtain ⟨-, rfl⟩ | ⟨e', -, rfl⟩ := exec_next hexec
  case inl =>
    have hcode : RspCode.ok = .err e := congrArg Reply.code (List.head_eq_of_cons_eq hlog)
    cases hcode
  case inr =>
    rw [refusalBase_eq_self hi] at hlog ⊢
    cases hlog
    rfl

end Sys2Proof.Machine
end

section
/-! Reset, the idle step, and the commands that only read (R280, R291, R296). -/

namespace Sys2Proof.Machine

/-! ## The steps that take no command word -/

/-- A step with a reset pending is the hardware reset (R280). -/
theorem step_reset {s : State} {rest : List Event} (h : s.input = .reset :: rest) :
    step s = .next (s.hardReset rest) := by
  rw [step, h]

/-- A step with nothing pending changes nothing (R296). -/
theorem step_idle {s : State} (h : s.input = []) : step s = .next s := by
  rw [step, h]

/-- Settles O9: the step on a reset, and the step on nothing. -/
theorem resetEventRestoresResetState : Obligations.ResetEventRestoresResetState :=
  ⟨fun _ _ hin => step_reset hin, fun _ hin => step_idle hin⟩

/-! ## The read-only and the pure commands -/

/-- A command whose effect moves nothing, and which is no `PREPARE`, leaves everything but the sticky bits and the
record of responses: accepted it only answers, refused it sets its bit and answers (R252, R291). -/
theorem exec_frame_of_effect_eq_self {i : Instr} {s t : State} (hprep : ∀ m f, i ≠ .prepare m f)
    (heffect : (effect i s).1 = s) (h : exec i s = .next t) : t = { s with err := t.err, log := t.log } := by
  obtain ⟨-, rfl⟩ | ⟨e, -, rfl⟩ := exec_next h
  case inl => rw [heffect]; rfl
  case inr => rw [refusalBase_eq_self hprep]; rfl

/-- Settles O18: the effect of each command named is its data alone. `RDPARAM` has one effect for each of the two
parameter spaces. -/
theorem readOnlyAndPureCommandsChangeNothing : Obligations.ReadOnlyAndPureCommandsChangeNothing := by
  intro i s t hi hexec
  refine exec_frame_of_effect_eq_self ?noPrepare ?effect hexec
  case noPrepare =>
    rintro m f rfl
    simp only [reduceCtorEq, exists_false, or_self] at hi
  case effect =>
    rcases hi with ⟨r, d, rfl⟩ | ⟨r, d, rfl⟩ | ⟨r, rfl⟩ | ⟨b, f, rfl⟩ | ⟨c, q, rfl⟩ | ⟨l, rfl⟩ | ⟨x, rfl⟩ |
      ⟨_ | _, p, rfl⟩ | ⟨k, rfl⟩ | rfl | ⟨tau, rfl⟩ | rfl | rfl | rfl <;> rfl

end Sys2Proof.Machine
end
